-- ==== Sys2Proof/Word.lean ====
section
/-! DEFINITION. The two word sizes of the block: a byte is what one `XFER` carries each way (spec R4, R11), a word is
a 16-bit code, address, display value or stimulus word (R11, R24, R32, R113). Bits are numbered from 0 at the least
significant end (R11). -/

namespace Sys2Proof

/-- A byte, 0..255, as one byte exchange carries it. -/
abbrev Byte := BitVec 8

/-- A 16-bit quantity: a converter code, an EEPROM address, a display value, a stimulus word. -/
abbrev Word := BitVec 16

end Sys2Proof
end

