-- ==== Sys2Proof/Config.lean ====
section
/-! DEFINITION. What is fixed for the life of the block: its nine chips and two channels (R2, R3), the numbers the
source fixes (R9), the record `Cfg` of named parameters (R10) and the values nobody in the model controls (R13,
`draw`; R258, `Cal[k]`). The values the spec gives the parameters by default are in Machine/Defaults.lean. -/

namespace Sys2Proof

/-- The channel number `k` of a paired device, 1 or 2 (R2). -/
inductive Chan where
  | one
  | two
deriving DecidableEq, Repr

/-- The electrical level driven on a select line (R130). -/
inductive Level where
  | low
  | high
deriving DecidableEq, Repr

/-- The nine slave devices of the block; each has one select line of the same name (R2, R71). -/
inductive Chip where
  | eeprom
  | rtc
  | bp
  | ioexp (k : Chan)
  | adc (k : Chan)
  | dac (k : Chan)
deriving DecidableEq, Repr

/-- The six device protocols. The byte formats `cmd8.<CHIP>` of the opcode table are one per protocol (R110). -/
inductive ChipKind where
  | eeprom
  | rtc
  | bp
  | ioexp
  | adc
  | dac
deriving DecidableEq, Repr

/-- The protocol a chip speaks. -/
def Chip.kind : Chip → ChipKind
  | .eeprom => .eeprom
  | .rtc => .rtc
  | .bp => .bp
  | .ioexp _ => .ioexp
  | .adc _ => .adc
  | .dac _ => .dac

/-- One thing per channel. -/
structure Pair (α : Type) where
  one : α
  two : α
deriving DecidableEq, Repr

/-- The thing of channel `k`. -/
def Pair.get {α : Type} (p : Pair α) : Chan → α
  | .one => p.one
  | .two => p.two

/-- The pair with the thing of channel `k` replaced. -/
def Pair.set {α : Type} (p : Pair α) (k : Chan) (v : α) : Pair α :=
  match k with
  | .one => { p with one := v }
  | .two => { p with two := v }

/-- `CS_ACTIVE[line]`: for each line, the level at which it selects its chip (R10, R131). -/
structure LineLevels where
  eeprom : Level
  rtc    : Level
  bp     : Level
  ioexp  : Pair Level
  adc    : Pair Level
  dac    : Pair Level
deriving DecidableEq, Repr

/-- The active level of the line of chip `c`. -/
def LineLevels.get (l : LineLevels) : Chip → Level
  | .eeprom => l.eeprom
  | .rtc => l.rtc
  | .bp => l.bp
  | .ioexp k => l.ioexp.get k
  | .adc k => l.adc.get k
  | .dac k => l.dac.get k

/-- `GPIO_LAYOUT`: which of the two board layouts the IO expanders have (R214). -/
inductive GpioLayout where
  | combined
  | bankA
deriving DecidableEq, Repr

/-- `Cal[k]`, the conversion curves of one channel (R56, R258), as plain data. `linear` is the default shape of
R258 over the channel's ranges; `milli` is the record `Cal_T1` of R258; `curve n` is any other record of five total
functions, of which nothing is known but that they are total (R257): its members are the constants
`Config.curve…` below applied to `n` (log entry 11). -/
inductive Cal where
  | linear (uMin uMax iMin iMax : Rat)
  | milli
  | curve (n : Nat)
deriving DecidableEq, Repr

/-- The record of named parameters (R10). A model takes it as an argument: here it is a field of `State` that no step
writes, so that a statement about every state quantifies over every `Cfg` (log entry 7). -/
structure Cfg where
  csActive      : LineLevels
  eeCmdRead     : Byte
  eeCmdWrite    : Byte
  eeCmdRdsr     : Byte
  eeStatusValue : Byte
  eeBacked      : Bool
  /-- `EE_IMAGE`: the EEPROM contents found at reset; a cell not listed holds 0x00. -/
  eeImage       : List Host.Cell
  rtcCmdRdCtrl  : Byte
  rtcCmdWrCtrl  : Byte
  rtcCmdRdTime  : Byte
  rtcCmdWrTime  : Byte
  /-- `RTC_OFFSET_IMAGE`: the offset found at reset. -/
  rtcOffsetImage : Int
  ioxCmdWrite   : Byte
  ioxCmdRead    : Byte
  ioxNregs      : Nat
  gpioLayout    : GpioLayout
  gpioIndexCombined : Byte
  gpioIndexBankA    : Byte
  ioxBitPwrgood : Fin 8
  ioxBitRpol    : Fin 8
  ioxBitCv      : Fin 8
  ioxBitCc      : Fin 8
  rpolCapable   : Pair Bool
  adcCmdReset   : Byte
  adcCmdStart   : Byte
  adcCmdRdata   : Byte
  adcCmdRreg    : Byte
  adcCmdWreg    : Byte
  adcCmdWmode   : Byte
  adcNregs      : Nat
  adcBurstStart : Byte
  adcModeUMon   : Byte
  adcModeISet   : Byte
  adcModeUSet   : Byte
  adcModeIMon   : Byte
  adcMin        : Nat
  adcMax        : Nat
  dacMin        : Nat
  dacMax        : Nat
  dacCmdBufA    : Byte
  dacCmdBufB    : Byte
  cal           : Pair Cal
deriving DecidableEq, Repr

/-- `IOX_GPIO_INDEX[GPIO_LAYOUT]`: the index of the overlaid register (R10, R214). -/
def Cfg.gpioIndex (c : Cfg) : Byte :=
  match c.gpioLayout with
  | .combined => c.gpioIndexCombined
  | .bankA => c.gpioIndexBankA

/-- A linear record's ranges are not empty, so that the quotients of R258 are defined (log entry 9). -/
def Cal.wf : Cal → Bool
  | .linear uMin uMax iMin iMax => decide (uMin ≠ uMax) && decide (iMin ≠ iMax)
  | .milli => true
  | .curve _ => true

/-- What R10 requires of the parameters: the command bytes of one chip, the four mode values and the four overlay
positions are pairwise distinct. The bounds on counts and ranges are DEDUCED from R38, R73, R252 and R258 (log entry
9): register 0 of an ADC exists, indices are bytes, codes are 16-bit, and the remap divides by a positive span. -/
abbrev Cfg.Wf (c : Cfg) : Prop :=
  [c.eeCmdRead, c.eeCmdWrite, c.eeCmdRdsr].Nodup ∧
  [c.rtcCmdRdCtrl, c.rtcCmdWrCtrl, c.rtcCmdRdTime, c.rtcCmdWrTime].Nodup ∧
  [c.ioxCmdRead, c.ioxCmdWrite].Nodup ∧
  [c.adcCmdReset, c.adcCmdStart, c.adcCmdRdata, c.adcCmdRreg, c.adcCmdWreg, c.adcCmdWmode].Nodup ∧
  [c.dacCmdBufA, c.dacCmdBufB].Nodup ∧
  [c.adcModeUMon, c.adcModeISet, c.adcModeUSet, c.adcModeIMon].Nodup ∧
  [c.ioxBitPwrgood, c.ioxBitRpol, c.ioxBitCv, c.ioxBitCc].Nodup ∧
  c.ioxNregs ≤ 256 ∧ 1 ≤ c.adcNregs ∧ c.adcNregs ≤ 256 ∧
  c.adcMin < c.adcMax ∧ c.adcMax ≤ 65535 ∧ c.dacMin < c.dacMax ∧ c.dacMax ≤ 65535 ∧
  c.cal.one.wf = true ∧ c.cal.two.wf = true

namespace Config

/-- `EE_PAGE`: the EEPROM's window, in cells (R9, R25). -/
def eePage : Nat := 64

/-- `EE_SPAN`: the number of EEPROM cells, 0xFFFF + 63 + 1 (R10, R72). -/
def eeSpan : Nat := 65599

/-- `ADC_DEPTH_MAX`: the bound of the in-flight-conversion depth counter (R9, R40). -/
def adcDepthMax : Nat := 4

/-- `RTC_YEAR_ORIGIN` (R9, R180). -/
def rtcYearOrigin : Int := 2000

/-- `VPROG_MAX`: the top of the programming-voltage domain, in volts (R9, R258). -/
def vprogMax : Rat := 5 / 2

/-- The `n`-th `draw` of a byte: the RTC's year byte outside 2000..2099 (R180). Nothing is known of it. -/
opaque freeByte : Nat → Byte

/-- The `n`-th `draw` of an integer: the RTC's offset after an invalid write (R184). Nothing is known of it. -/
opaque freeOffset : Nat → Int

/-- The `n`-th `draw` of a 16-bit code: the measured current of R259. Nothing is known of it. -/
opaque freeCode : Nat → Word

/-- `code_to_volts` of the `n`-th unknown calibration record (R257, R258). -/
opaque curveCodeToVolts : Nat → Word → Rat

/-- `code_to_amps` of the `n`-th unknown calibration record (R257, R258). -/
opaque curveCodeToAmps : Nat → Word → Rat

/-- `volts_to_code` of the `n`-th unknown calibration record (R257, R258). -/
opaque curveVoltsToCode : Nat → Rat → Word

/-- `amps_to_code` of the `n`-th unknown calibration record (R257, R258). -/
opaque curveAmpsToCode : Nat → Rat → Word

/-- `prog_to_volts` of the `n`-th unknown calibration record (R257, R258). -/
opaque curveProgToVolts : Nat → Rat → Rat

end Config

end Sys2Proof
end

