-- ==== Sys2Proof/Machine/Defaults.lean ====
section
/-! DEFINITION. The default value of every parameter of R10, each set by the decision of 92_eei_decisions.md that the
table of R10 names, and the test calibration `Cal_T1` of R258. -/

namespace Sys2Proof.Machine

/-- `CS_ACTIVE` at its default: High for the RTC, Low for the eight others (R131). -/
def defaultLevels : LineLevels where
  eeprom := .low
  rtc := .high
  bp := .low
  ioexp := ⟨.low, .low⟩
  adc := ⟨.low, .low⟩
  dac := ⟨.low, .low⟩

/-- The default calibration: linear, 0..40 V and 0..5 A (R258). -/
def defaultCal : Cal := .linear 0 40 0 5

/-- `Cal_T1`: one code is one millivolt or one milliampere (R258). -/
def calT1 : Cal := .milli

/-- `Cfg` at its defaults (R10). -/
def defaultCfg : Cfg where
  csActive := defaultLevels
  eeCmdRead := 0x03#8
  eeCmdWrite := 0x02#8
  eeCmdRdsr := 0x05#8
  eeStatusValue := 0x00#8
  eeBacked := true
  eeImage := []
  rtcCmdRdCtrl := 0x90#8
  rtcCmdWrCtrl := 0x10#8
  rtcCmdRdTime := 0x92#8
  rtcCmdWrTime := 0x12#8
  rtcOffsetImage := 0
  ioxCmdWrite := 0x40#8
  ioxCmdRead := 0x41#8
  ioxNregs := 22
  gpioLayout := .bankA
  gpioIndexCombined := 0x09#8
  gpioIndexBankA := 0x12#8
  ioxBitPwrgood := 0
  ioxBitRpol := 1
  ioxBitCv := 2
  ioxBitCc := 3
  rpolCapable := ⟨true, true⟩
  adcCmdReset := 0x06#8
  adcCmdStart := 0x08#8
  adcCmdRdata := 0x10#8
  adcCmdRreg := 0x26#8
  adcCmdWreg := 0x46#8
  adcCmdWmode := 0x40#8
  adcNregs := 4
  adcBurstStart := 0x01#8
  adcModeUMon := 0x81#8
  adcModeISet := 0x91#8
  adcModeUSet := 0xA1#8
  adcModeIMon := 0xB1#8
  adcMin := 0
  adcMax := 32767
  dacMin := 0
  dacMax := 65535
  dacCmdBufA := 0x10#8
  dacCmdBufB := 0x24#8
  cal := ⟨defaultCal, defaultCal⟩

end Sys2Proof.Machine
end

