-- ==== Sys2Proof/Syntax.lean ====
section
/-! DEFINITION. What the outside can ask of the block. `Instr` has one constructor per row of spec/opcode_table.json:
the three operations on the pins (R130, R134, R136) and the eighteen command bytes a selected chip decodes (R110).
`EnvOp` and `HandlerOp` are the environment's changes and the operations a `DRDY` handler may issue (R53, R114, R285):
they have no stimulus word and no row in the table. -/

namespace Sys2Proof

/-- The instructions. A command-byte constructor stands for "the selected chip, in its command state, receives this
command byte": which of the two expanders or converters that is, `bus.sel` says, not the byte (R101, R110). -/
inductive Instr where
  /-- `CS line, level`: the four bits `LLLL` of the stimulus word, of which 0..8 name a line (R71, R113, R130). -/
  | cs (line : BitVec 4) (level : Level)
  /-- `XFER byte` (R134). -/
  | xfer (b : Byte)
  /-- `TICK k` (R136). -/
  | tick (k : Chan)
  | eeRead | eeWrite | eeRdsr
  | rtcRdCtrl | rtcWrCtrl | rtcRdTime | rtcWrTime
  /-- The first byte of a backplane frame: there is no command byte, so every value is the high byte (R201). -/
  | bpFrame (b : Byte)
  | ioxRead | ioxWrite
  | adcReset | adcStart | adcRdata | adcRreg | adcWreg | adcWmode
  | dacBufA | dacBufB
deriving DecidableEq, Repr

/-- A change the environment makes to an input (R52 to R55, R114). `advance d` is `ENV NOW (env.now + d)`: since `d`
is a natural number, exactly the changes that do not decrease `env.now` can be written (R52, R294; log entry 12). -/
inductive EnvOp where
  | pwrgood (k : Chan) (v : Bool)
  | rpol (k : Chan) (v : Bool)
  | advance (d : Nat)
  | outEn (k : Chan) (v : Bool)
  | load (k : Chan) (en : Bool) (ohms : Rat)
  | rprog (k : Chan) (en : Bool) (volts : Rat)
deriving DecidableEq, Repr

/-- An operation a handler may issue inside `invoke DRDY(k)`: `CS`, `XFER` or `ENV`, and no `TICK` (R285, R290). Its
`CS` names one of the nine lines by its chip, so no handler operation is out of range (log entry 17). -/
inductive HandlerOp where
  | cs (line : Chip) (level : Level)
  | xfer (b : Byte)
  | env (e : EnvOp)
deriving DecidableEq, Repr

/-- What waits at the block's pins: a stimulus word of the master or scheduler, a change by the environment
(R14, R113, R294), or the firmware registering the handler of line `k` (R301, R303). A handler is written as the
operations it will issue at each of its coming activations, the next activation first (log entry 3). -/
inductive Input where
  | word (w : Word)
  | env (e : EnvOp)
  | handler (k : Chan) (activations : List (List HandlerOp))
deriving DecidableEq, Repr

/-- Why a 16-bit word is no stimulus, or a byte no command (R71, R111, R113). -/
inductive Reject where
  /-- `bits[15:12]` is none of 1, 2, 3 (R113). -/
  | unknownKind
  /-- A bit that the format fixes at 0 is 1 (R113). -/
  | fixedBitSet
  /-- A `CS` word with `LLLL` in 9..15 (R71). -/
  | noSuchLine
  /-- A byte that is no command of the chip. On the bus this is no error (R111): the reader of a single command byte
  alone reports it. -/
  | notACommand
deriving DecidableEq, Repr

end Sys2Proof
end

