-- ==== Sys2Proof/WellFormed.lean ====
section
/-! DEFINITION. Which instructions are well formed. The only operand that can be out of range is the line number of
`CS`: lines are 0..8 (R71, R130). Every byte is a legal operand of `XFER` and of a backplane frame, and `k` is 1 or 2
by its type. -/

namespace Sys2Proof

/-- The operand checks of R71 and R280. -/
def Instr.wf : Instr → Bool
  | .cs line _ => decide (line.toNat < 9)
  | .xfer _ => true
  | .tick _ => true
  | .eeRead => true
  | .eeWrite => true
  | .eeRdsr => true
  | .rtcRdCtrl => true
  | .rtcWrCtrl => true
  | .rtcRdTime => true
  | .rtcWrTime => true
  | .bpFrame _ => true
  | .ioxRead => true
  | .ioxWrite => true
  | .adcReset => true
  | .adcStart => true
  | .adcRdata => true
  | .adcRreg => true
  | .adcWreg => true
  | .adcWmode => true
  | .dacBufA => true
  | .dacBufB => true

end Sys2Proof
end

