-- ==== Sys2Proof/Decode.lean ====
section
/-! DEFINITION. Reading stimulus words and command bytes, and writing them. Two formats exist (R110): the 16-bit
stimulus word of an operation on the pins (R113), and the command byte that the selected chip alone decodes, and only
in its command state (R101). After the decoders stand the encoders, written from the same tables. -/

namespace Sys2Proof

/-! ### Lines -/

/-- Line number to chip, in the order of R71; 9..15 name no line. -/
def Chip.ofLine (line : BitVec 4) : Option Chip :=
  match line.toNat with
  | 0 => some .eeprom
  | 1 => some .rtc
  | 2 => some .bp
  | 3 => some (.ioexp .one)
  | 4 => some (.ioexp .two)
  | 5 => some (.adc .one)
  | 6 => some (.adc .two)
  | 7 => some (.dac .one)
  | 8 => some (.dac .two)
  | _ => none

/-- Chip to line number (R71). -/
def Chip.line : Chip → BitVec 4
  | .eeprom => 0
  | .rtc => 1
  | .bp => 2
  | .ioexp .one => 3
  | .ioexp .two => 4
  | .adc .one => 5
  | .adc .two => 6
  | .dac .one => 7
  | .dac .two => 8

/-- `V` of a `CS` word: 1 is High, 0 is Low (R113). -/
def Level.ofBit (v : Bool) : Level := if v then .high else .low

/-- The bit `V` of a level (R113). -/
def Level.bit : Level → BitVec 1
  | .low => 0
  | .high => 1

/-- `K` of a `TICK` word: 0 is ADC1, 1 is ADC2 (R113, R136). -/
def Chan.ofBit (k : Bool) : Chan := if k then .two else .one

/-- The bit `K` of a channel (R113). -/
def Chan.bit : Chan → BitVec 1
  | .one => 0
  | .two => 1

/-! ### Stimulus words -/

/-- A word of kind 1, `0001 LLLL 0000 000V` (R113). -/
def decodeCs (w : Word) : Except Reject Instr :=
  if w.extractLsb' 1 7 ≠ 0 then .error .fixedBitSet
  else if (w.extractLsb' 8 4).toNat < 9 then .ok (.cs (w.extractLsb' 8 4) (Level.ofBit (w.getLsbD 0)))
  else .error .noSuchLine

/-- A word of kind 2, `0010 0000 DDDD DDDD` (R113). -/
def decodeXfer (w : Word) : Except Reject Instr :=
  if w.extractLsb' 8 4 ≠ 0 then .error .fixedBitSet
  else .ok (.xfer (w.extractLsb' 0 8))

/-- A word of kind 3, `0011 000K 0000 0000` (R113). -/
def decodeTick (w : Word) : Except Reject Instr :=
  if w.extractLsb' 9 3 ≠ 0 ∨ w.extractLsb' 0 8 ≠ 0 then .error .fixedBitSet
  else .ok (.tick (Chan.ofBit (w.getLsbD 8)))

/-- The reader of stimulus words: total, and it refuses by name every word R113 does not give. -/
def decodeStimulus (w : Word) : Except Reject Instr :=
  match (w.extractLsb' 12 4).toNat with
  | 1 => decodeCs w
  | 2 => decodeXfer w
  | 3 => decodeTick w
  | _ => .error .unknownKind

/-! ### Command bytes -/

/-- The command map of R110, one list of rows per protocol. The backplane has none: see `decodeCommand`. -/
def commandTable (c : Cfg) : ChipKind → List (Byte × Instr)
  | .eeprom => [(c.eeCmdRead, .eeRead), (c.eeCmdWrite, .eeWrite), (c.eeCmdRdsr, .eeRdsr)]
  | .rtc =>
    [(c.rtcCmdRdCtrl, .rtcRdCtrl), (c.rtcCmdWrCtrl, .rtcWrCtrl), (c.rtcCmdRdTime, .rtcRdTime),
      (c.rtcCmdWrTime, .rtcWrTime)]
  | .bp => []
  | .ioexp => [(c.ioxCmdRead, .ioxRead), (c.ioxCmdWrite, .ioxWrite)]
  | .adc =>
    [(c.adcCmdReset, .adcReset), (c.adcCmdStart, .adcStart), (c.adcCmdRdata, .adcRdata), (c.adcCmdRreg, .adcRreg),
      (c.adcCmdWreg, .adcWreg), (c.adcCmdWmode, .adcWmode)]
  | .dac => [(c.dacCmdBufA, .dacBufA), (c.dacCmdBufB, .dacBufB)]

/-- What a byte means to a chip in its command state: the command whose parameter it equals in all eight bits, or
nothing (R101, R110, R111). The backplane row has mask 0x00: every byte is its first byte (R110, R201). -/
def decodeCommand (c : Cfg) (kind : ChipKind) (b : Byte) : Option Instr :=
  match kind with
  | .bp => some (.bpFrame b)
  | k => ((commandTable c k).find? (fun row => row.1 = b)).map Prod.snd

/-- What a stimulus word means on a bus where a chip of protocol `listening`, if any, would take the next byte as a
command: an `XFER` of one of its command bytes is that command, every other word is what the word says (R101, R134). -/
def decodeOnBus (c : Cfg) (listening : Option ChipKind) (w : Word) : Except Reject Instr :=
  match decodeStimulus w with
  | .ok (.xfer b) => .ok ((listening.bind (fun k => decodeCommand c k b)).getD (.xfer b))
  | r => r

/-! ### Encoding -/

/-- An instruction's bits: a stimulus word, or a command byte in the format of one protocol (R110). -/
inductive Encoded where
  | stimulus (w : Word)
  | command (kind : ChipKind) (b : Byte)
deriving DecidableEq, Repr

/-- The word `0001 LLLL 0000 000V` (R113). -/
def csWord (line : BitVec 4) (level : Level) : Word := (0x1#4 ++ line ++ 0x00#7 ++ level.bit).cast (by decide)

/-- The word `0010 0000 DDDD DDDD` (R113). -/
def xferWord (b : Byte) : Word := 0x20#8 ++ b

/-- The word `0011 000K 0000 0000` (R113). -/
def tickWord (k : Chan) : Word := (0x18#7 ++ k.bit ++ 0x00#8).cast (by decide)

/-- The bits of an instruction, from R113 and the command map of R110. -/
def encode (c : Cfg) : Instr → Encoded
  | .cs line level => .stimulus (csWord line level)
  | .xfer b => .stimulus (xferWord b)
  | .tick k => .stimulus (tickWord k)
  | .eeRead => .command .eeprom c.eeCmdRead
  | .eeWrite => .command .eeprom c.eeCmdWrite
  | .eeRdsr => .command .eeprom c.eeCmdRdsr
  | .rtcRdCtrl => .command .rtc c.rtcCmdRdCtrl
  | .rtcWrCtrl => .command .rtc c.rtcCmdWrCtrl
  | .rtcRdTime => .command .rtc c.rtcCmdRdTime
  | .rtcWrTime => .command .rtc c.rtcCmdWrTime
  | .bpFrame b => .command .bp b
  | .ioxRead => .command .ioexp c.ioxCmdRead
  | .ioxWrite => .command .ioexp c.ioxCmdWrite
  | .adcReset => .command .adc c.adcCmdReset
  | .adcStart => .command .adc c.adcCmdStart
  | .adcRdata => .command .adc c.adcCmdRdata
  | .adcRreg => .command .adc c.adcCmdRreg
  | .adcWreg => .command .adc c.adcCmdWreg
  | .adcWmode => .command .adc c.adcCmdWmode
  | .dacBufA => .command .dac c.dacCmdBufA
  | .dacBufB => .command .dac c.dacCmdBufB

/-- The reader of `Encoded`: the inverse of `encode` on well-formed instructions. -/
def decodeEncoded (c : Cfg) : Encoded → Except Reject Instr
  | .stimulus w => decodeStimulus w
  | .command kind b =>
    match decodeCommand c kind b with
    | some i => .ok i
    | none => .error .notACommand

/-- The stimulus word that carries encoded bits to the pins: a command byte travels in an `XFER` word. -/
def Encoded.word : Encoded → Word
  | .stimulus w => w
  | .command _ b => xferWord b

/-- The protocol that must be listening for encoded bits to be read as what they encode. -/
def Encoded.listener : Encoded → Option ChipKind
  | .stimulus _ => none
  | .command kind _ => some kind

/-- The stimulus word an instruction travels in. -/
def encodeWord (c : Cfg) (i : Instr) : Word := (encode c i).word

/-! ### The opcode table's rows -/

/-- The protocol whose table a bare command byte is read in when nothing else says which (log entry 4): the first of
EEPROM, RTC, IO expander, ADC, DAC that has the byte, else the backplane, which takes every byte. -/
def tableKind (c : Cfg) (b : Byte) : ChipKind :=
  (([.eeprom, .rtc, .ioexp, .adc, .dac] : List ChipKind).find? (fun k => (decodeCommand c k b).isSome)).getD .bp

/-- The instruction this decoder reads from a row of the opcode table: 16 bits are a stimulus word, 8 bits a command
byte at the default parameters. -/
def decodeTableWord (nbits w : Nat) : Option Instr :=
  if nbits = 16 ∧ w < 65536 then
    match decodeStimulus (BitVec.ofNat 16 w) with
    | .ok i => some i
    | .error _ => none
  else if nbits = 8 ∧ w < 256 then
    let b := BitVec.ofNat 8 w
    decodeCommand Machine.defaultCfg (tableKind Machine.defaultCfg b) b
  else none

end Sys2Proof
end

