-- ==== Sys2Proof/Machine/State.lean ====
section
/-! DEFINITION. The state of the block, as plain data (10_state.md R20 to R46, R52 to R58), with the inputs it samples,
its configuration, and the model's own bookkeeping: the operations waiting at the pins, the handlers' scripts, the
trace of outputs and the counter of draws. -/

namespace Sys2Proof.Machine

/-! ### Memory -/

/-- The EEPROM's cells: the listed ones, in canonical form; an unlisted cell holds `unlistedByte`. -/
abbrev Memory := List Host.Cell

/-- What a cell that nothing has written reads as: 0x00 (R26, R57; 92_eei_decisions.md D11; log entry 15). -/
def unlistedByte : Byte := 0x00#8

/-- The canonical form: addresses strictly rising, and every listed cell inside the store (R72) and different from
`unlistedByte`, so that equal stores are equal lists. -/
abbrev Memory.wf (m : Memory) : Prop :=
  m.Pairwise (fun c d => c.1 < d.1) ∧ ∀ c ∈ m, c.1 < Config.eeSpan ∧ c.2 ≠ unlistedByte

/-! ### Protocol states -/

/-- `ee.ps` (R23). -/
inductive EePs where
  | idle | readAddrHigh | readAddrLow | read | writeAddrHigh | writeAddrLow | write | readStatus
deriving DecidableEq, Repr

/-- `rtc.ps` (R27). -/
inductive RtcPs where
  | idle
  | rdCtrl1 | rdCtrl2
  | wrCtrl1 | wrCtrl2
  | rdSeconds | rdMinutes | rdHours | rdDays | rdWeekdays | rdMonths | rdYears
  | wrSeconds | wrMinutes | wrHours | wrDays | wrWeekdays | wrMonths | wrYears
deriving DecidableEq, Repr

/-- `bp.ps` (R31). -/
inductive BpPs where
  | high | low | done
deriving DecidableEq, Repr

/-- `io[k].ps` (R33). -/
inductive IoPs where
  | idle | rdIndex | wrIndex | rdData | wrData
deriving DecidableEq, Repr

/-- `adc[k].ps` (R37). -/
inductive AdcPs where
  | idle | regRead | regWrite | modeWrite | dataMsb | dataLsb
deriving DecidableEq, Repr

/-- `dac[k].ps` (R42). -/
inductive DacPs where
  | idle | msb | lsb
deriving DecidableEq, Repr

/-- `dac[k].buf`: A is the voltage set-point, B the current set-point (R42, R271). -/
inductive Buf where
  | a | b
deriving DecidableEq, Repr

/-! ### The chips -/

/-- The EEPROM (R23 to R26). -/
structure Eeprom where
  ps      : EePs
  address : Word
  index   : Fin 64
  store   : Memory
deriving DecidableEq, Repr

/-- The RTC (R27 to R29). The seven calendar fields are derived, never stored (R30). The offset is unbounded
(R29; log entry 20). -/
structure Rtc where
  ps     : RtcPs
  ctrl1  : Byte
  ctrl2  : Byte
  offset : Int
deriving DecidableEq, Repr

/-- The backplane display sink (R31, R32). -/
structure Backplane where
  ps      : BpPs
  shift   : Word
  display : Word
deriving DecidableEq, Repr

/-- IO expander `k` (R33 to R35). `regs` has `IOX_NREGS` entries. -/
structure IoExp where
  ps      : IoPs
  index   : Byte
  regs    : List Byte
  pwrgood : Bool
  rpol    : Bool
  cv      : Bool
  cc      : Bool
deriving DecidableEq, Repr

/-- ADC `k` (R37 to R41). `regs` has `ADC_NREGS` entries; entry 0 is the mode register. -/
structure Adc where
  ps    : AdcPs
  index : Byte
  regs  : List Byte
  uSet  : Word
  iSet  : Word
  uMon  : Word
  iMon  : Word
  depth : Fin 5
  start : Bool
deriving DecidableEq, Repr

/-- DAC `k` (R42). It holds no output code (R275). -/
structure Dac where
  ps  : DacPs
  buf : Buf
  msb : Byte
deriving DecidableEq, Repr

/-! ### Inputs and outputs -/

/-- The inputs of one channel (R54, R55). -/
structure ChanEnv where
  outEn    : Bool
  loadEn   : Bool
  loadR    : Rat
  rprog    : Bool
  vProgExt : Rat
deriving DecidableEq, Repr

/-- The inputs the block samples (R52 to R55); `pwrgood` and `rpol` stand with the expander they belong to (R35). -/
structure Env where
  now : Int
  ch  : Pair ChanEnv
deriving DecidableEq, Repr

/-- One entry of the observable trace (R4, R285): the byte an `XFER` returned, or the event `DRDY(k)`. -/
inductive Output where
  | ret (b : Byte)
  | drdy (k : Chan)
deriving DecidableEq, Repr

/-! ### The whole state -/

/-- The machine's state. The fields from `sel` to `dac` are the block's own (R20 to R42); `cfg` is its configuration,
which no step writes (R10, R294); `env` holds the inputs (R52 to R55). The last four are the model's own: `inputs`, the
operations waiting at the pins, next first; `scripts`, for each channel the operations its handler will issue at each
coming activation, next activation first (R285: an activation that finds the list empty is one with no handler
registered); `trace`, the outputs so far, newest first; `draws`, how many free values have been drawn (log entries 1, 3,
13 and 10). -/
structure State where
  cfg     : Cfg
  sel     : Option Chip
  ee      : Eeprom
  rtc     : Rtc
  bp      : Backplane
  io      : Pair IoExp
  adc     : Pair Adc
  dac     : Pair Dac
  env     : Env
  inputs  : List Input
  scripts : Pair (List (List HandlerOp))
  trace   : List Output
  draws   : Nat
deriving DecidableEq, Repr

/-- Why a step may stop with a fault: never. "The block raises no exception, sets no fault bit and has no error output"
(R280), so this type has no constructor. Safe: no claim can rest on a fault. -/
inductive Fault
deriving DecidableEq, Repr

/-- Why a step may be refused. -/
inductive Refusal where
  /-- Raised by `exec` for an instruction that has no meaning yet. No arm raises it. Safe. -/
  | notModelled (mnemonic : String)
  /-- Raised by `execCs` for a line number in 9..15: "the operation `CS` is not defined for it and a model refuses it"
  (R71, R280). Safe. -/
  | noSuchLine
  /-- Raised by `step` for a word at the pins that is no stimulus: "a model's reader refuses it" (R113, R280;
  log entry 23). Safe. -/
  | badStimulus (why : Reject)
deriving DecidableEq, Repr

/-! ### Reset -/

/-- IO expander at reset (R57). -/
def IoExp.reset (nregs : Nat) : IoExp where
  ps := .idle
  index := 0x00#8
  regs := List.replicate nregs 0x00#8
  pwrgood := true
  rpol := false
  cv := false
  cc := false

/-- ADC at reset (R57). -/
def Adc.reset (nregs : Nat) : Adc where
  ps := .idle
  index := 0x00#8
  regs := List.replicate nregs 0x00#8
  uSet := 0x0000#16
  iSet := 0x0000#16
  uMon := 0x0000#16
  iMon := 0x0000#16
  depth := 0
  start := false

/-- DAC at reset (R57). -/
def Dac.reset : Dac where
  ps := .idle
  buf := .a
  msb := 0x00#8

/-- The inputs of a channel before the environment has set any (95_test_vectors.md, conventions; log entry 2). -/
def ChanEnv.reset : ChanEnv where
  outEn := false
  loadEn := false
  loadR := 0
  rprog := false
  vProgExt := 0

/-- The state right after construction with configuration `c`: every volatile field at the value of R57, the two
non-volatile ones loaded from their images (R301, R302), nothing waiting at the pins, no handler registered
(log entry 8). -/
def State.resetWith (c : Cfg) : State where
  cfg := c
  sel := none
  ee := { ps := .idle, address := 0x0000#16, index := 0, store := c.eeImage }
  rtc := { ps := .idle, ctrl1 := 0x00#8, ctrl2 := 0x00#8, offset := c.rtcOffsetImage }
  bp := { ps := .done, shift := 0x0000#16, display := 0x0000#16 }
  io := ⟨IoExp.reset c.ioxNregs, IoExp.reset c.ioxNregs⟩
  adc := ⟨Adc.reset c.adcNregs, Adc.reset c.adcNregs⟩
  dac := ⟨Dac.reset, Dac.reset⟩
  env := { now := 0, ch := ⟨ChanEnv.reset, ChanEnv.reset⟩ }
  inputs := []
  scripts := ⟨[], []⟩
  trace := []
  draws := 0

/-- The machine right after reset, at the default parameters. -/
def State.reset : State := State.resetWith defaultCfg

end Sys2Proof.Machine
end

