-- ==== Sys2Proof/Machine/Ops.lean ====
section
/-! DEFINITION. The named operations over the state: the EEPROM store (R74, R75), one writer per component of the
state, the draws (R13), the environment's changes (R53, R114), each chip's `select()` (R138), and the two halves of a
conversion-complete delivery (R250, R285, R288, R289), which is this hardware's only interrupt. -/

namespace Sys2Proof.Machine

/-! ### The EEPROM store -/

/-- The byte a store holds at a cell. -/
def Memory.read : Memory → Nat → Byte
  | [], _ => unlistedByte
  | c :: m, a => if c.1 = a then c.2 else Memory.read m a

/-- The store with the cell at `a` unlisted. -/
def Memory.erase (m : Memory) (a : Nat) : Memory := m.filter (fun c => decide (c.1 ≠ a))

/-- The store with `(a, v)` listed in its place, where `a` is not listed yet. -/
def Memory.insert : Memory → Nat → Byte → Memory
  | [], a, v => [(a, v)]
  | c :: m, a, v => if a < c.1 then (a, v) :: c :: m else c :: Memory.insert m a v

/-- The store with the cell at `a` holding `v`, in canonical form. -/
def Memory.write (m : Memory) (a : Nat) (v : Byte) : Memory :=
  if v = unlistedByte then m.erase a else (m.erase a).insert a v

/-- The cell a data byte touches: `address + index`, an integer 0..65598 that is not reduced mod 65536 (R72, R155).
Every such cell exists, so no access is out of range (R77). -/
def cellOf (address : Word) (index : Fin 64) : Fin Config.eeSpan :=
  ⟨address.toNat + index.val, by have := address.isLt; have := index.isLt; unfold Config.eeSpan; omega⟩

/-- `MemRead(addr, 1)` (R74, R160; log entry 16). -/
def memRead (c : Cfg) (m : Memory) (addr : Fin Config.eeSpan) : Byte :=
  if c.eeBacked then m.read addr.val else 0x00#8

/-- `MemWrite(addr, 1, v)` (R75, R160). -/
def memWrite (c : Cfg) (m : Memory) (addr : Fin Config.eeSpan) (v : Byte) : Memory :=
  if c.eeBacked then m.write addr.val v else m

/-! ### Writers -/

/-- `bus.sel <- c`. -/
def State.setSel (s : State) (c : Option Chip) : State := { s with sel := c }

/-- The EEPROM replaced. -/
def State.setEe (s : State) (e : Eeprom) : State := { s with ee := e }

/-- The RTC replaced. -/
def State.setRtc (s : State) (r : Rtc) : State := { s with rtc := r }

/-- The backplane replaced. -/
def State.setBp (s : State) (b : Backplane) : State := { s with bp := b }

/-- IO expander `k` replaced. -/
def State.setIo (s : State) (k : Chan) (x : IoExp) : State := { s with io := s.io.set k x }

/-- ADC `k` replaced. -/
def State.setAdc (s : State) (k : Chan) (x : Adc) : State := { s with adc := s.adc.set k x }

/-- DAC `k` replaced. -/
def State.setDac (s : State) (k : Chan) (x : Dac) : State := { s with dac := s.dac.set k x }

/-- The inputs replaced. -/
def State.setEnv (s : State) (e : Env) : State := { s with env := e }

/-- What waits at the pins replaced. -/
def State.setInputs (s : State) (i : List Input) : State := { s with inputs := i }

/-- The scripts of the handler of line `k` replaced. -/
def State.setScripts (s : State) (k : Chan) (l : List (List HandlerOp)) : State :=
  { s with scripts := s.scripts.set k l }

/-- One more output on the trace. -/
def State.emit (s : State) (o : Output) : State := { s with trace := o :: s.trace }

/-- One more draw taken. -/
def State.drawn (s : State) : State := { s with draws := s.draws + 1 }

/-! ### Draws: a value of the right type that nobody in the model controls (R13; log entry 10) -/

/-- `draw r : byte` (R180). -/
def State.drawByte (s : State) : Byte := Config.freeByte s.draws

/-- `draw x : integer` (R184). -/
def State.drawOffset (s : State) : Int := Config.freeOffset s.draws

/-- `draw x : u16` (R259). -/
def State.drawCode (s : State) : Word := Config.freeCode s.draws

/-! ### The environment -/

/-- One change by the environment: the named input takes the value, nothing else changes (R53 to R55, R114). -/
def applyEnv (e : EnvOp) (s : State) : State :=
  match e with
  | .pwrgood k v => s.setIo k { s.io.get k with pwrgood := v }
  | .rpol k v => s.setIo k { s.io.get k with rpol := v }
  | .advance d => s.setEnv { s.env with now := s.env.now + d }
  | .outEn k v => s.setEnv { s.env with ch := s.env.ch.set k { s.env.ch.get k with outEn := v } }
  | .load k en ohms => s.setEnv { s.env with ch := s.env.ch.set k { s.env.ch.get k with loadEn := en, loadR := ohms } }
  | .rprog k en volts =>
    s.setEnv { s.env with ch := s.env.ch.set k { s.env.ch.get k with rprog := en, vProgExt := volts } }

/-! ### Selection -/

/-- `c.select()`: only the protocol cursor, never the stored contents (R138, R150, R170, R200, R210, R230, R270). -/
def selectChip (c : Chip) (s : State) : State :=
  match c with
  | .eeprom => s.setEe { s.ee with ps := .idle, index := 0 }
  | .rtc => s.setRtc { s.rtc with ps := .idle }
  | .bp => s.setBp { s.bp with ps := .high }
  | .ioexp k => s.setIo k { s.io.get k with ps := .idle }
  | .adc k => s.setAdc k { s.adc.get k with ps := .idle }
  | .dac k => s.setDac k { s.dac.get k with ps := .idle }

/-- Whether chip `c` would take its next byte as a command: it is in `Idle`, or in `High` for the backplane (R101,
R112, R201). -/
def State.awaitsCommand (s : State) : Chip → Bool
  | .eeprom => decide (s.ee.ps = .idle)
  | .rtc => decide (s.rtc.ps = .idle)
  | .bp => decide (s.bp.ps = .high)
  | .ioexp k => decide ((s.io.get k).ps = .idle)
  | .adc k => decide ((s.adc.get k).ps = .idle)
  | .dac k => decide ((s.dac.get k).ps = .idle)

/-- The protocol whose command table the next byte on the bus is read in, if the selected chip awaits a command. -/
def State.listening (s : State) : Option ChipKind :=
  match s.sel with
  | none => none
  | some c => if s.awaitsCommand c then some c.kind else none

/-! ### Delivery of `DRDY(k)` -/

/-- What changes on entry: the depth counter is one higher and the pending bit is cleared, both before the handler runs;
the event joins the trace; nothing is saved, masked or switched (R250, R285, R288). `depth < 4` is the caller's test. -/
def enterTick (k : Chan) (s : State) : State := s.setAdc k { s.adc.get k with depth := (s.adc.get k).depth + 1 }

/-- `adc[k].start <- false` and the event `DRDY(k)` (R250, R285). -/
def takePending (k : Chan) (s : State) : State :=
  (s.setAdc k { s.adc.get k with start := false }).emit (.drdy k)

/-- The return: the counter goes down by one and nothing else is restored (R250, R289). -/
def leaveTick (k : Chan) (s : State) : State := s.setAdc k { s.adc.get k with depth := (s.adc.get k).depth - 1 }

/-- `invoke DRDY(k)` once the event is out: the handler's operations for this activation run to completion, in order,
on the current state (R285). `run` executes one of them. -/
def runHandler (run : HandlerOp → State → State) (k : Chan) (s : State) : State :=
  match s.scripts.get k with
  | [] => s
  | ops :: later => ops.foldl (fun t o => run o t) (s.setScripts k later)

/-- `adc_tick(k)` over a way `run` to execute a handler's operation: below the bound, count the activation, deliver if a
start is pending, and count it off again; at the bound, drop the tick whole (R250, R283). -/
def tickWith (run : HandlerOp → State → State) (k : Chan) (s : State) : State :=
  if (s.adc.get k).depth.val < Config.adcDepthMax then
    let s1 := enterTick k s
    let s2 := if (s1.adc.get k).start then runHandler run k (takePending k s1) else s1
    leaveTick k s2
  else s

end Sys2Proof.Machine
end

