-- ==== Sys2Proof/Machine/Operands.lean ====
section
/-! DEFINITION. Operand forms (R76, R109): operands are whole bytes, 16-bit ones travel high byte first, RTC fields are
packed BCD; and the two clamps of the model's code conversions (R11, R252, R258). -/

namespace Sys2Proof.Machine

/-- `hi8(w) = w[15:8]` (R11). -/
def hi8 (w : Word) : Byte := w.extractLsb' 8 8

/-- `lo8(w) = w[7:0]` (R11). -/
def lo8 (w : Word) : Byte := w.extractLsb' 0 8

/-- `{hi, lo} = hi * 256 + lo` (R11, R109). -/
def word (hi lo : Byte) : Word := (hi ++ lo : BitVec 16)

/-- `clamp(x, lo, hi)` (R11). -/
def clamp (x lo hi : Int) : Int := if x < lo then lo else if x > hi then hi else x

/-- `to_bcd(v)` for 0 <= v <= 99: tens in bits 7:4, units in bits 3:0 (R171). It is not defined outside that range and
no rule applies it there. -/
def toBcd (v : Int) : Byte := BitVec.ofNat 8 (v.toNat / 10 * 16 + v.toNat % 10)

/-- `bcd_ok(b)`: both nibbles are decimal digits (R172). -/
def bcdOk (b : Byte) : Bool := decide ((b.extractLsb' 4 4).toNat ≤ 9) && decide ((b.extractLsb' 0 4).toNat ≤ 9)

/-- `from_bcd(b)` (R172). -/
def fromBcd (b : Byte) : Int := (b.extractLsb' 4 4).toNat * 10 + (b.extractLsb' 0 4).toNat

/-- A register array read: an index that names no register reads 0x00 (R73, R217, R235; log entry 22). -/
def regRead (nregs : Nat) (regs : List Byte) (i : Byte) : Byte :=
  if i.toNat < nregs then regs.getD i.toNat 0x00#8 else 0x00#8

/-- A register array write: an index that names no register swallows it (R73, R217, R237). -/
def regWrite (nregs : Nat) (regs : List Byte) (i v : Byte) : List Byte :=
  if i.toNat < nregs then regs.set i.toNat v else regs

end Sys2Proof.Machine
end

