-- ==== Sys2Proof/Machine/Flags.lean ====
section
/-! DEFINITION. The flags (R44): what asserts a select line (R131), the GPIO input overlay (R214) and the two
regulation-mode flags an electrical-model run publishes (R254 to R256). -/

namespace Sys2Proof.Machine

/-- `asserted(line, level)`, for the line of chip `c` (R131). -/
def asserted (cfg : Cfg) (c : Chip) (level : Level) : Bool := decide (level = cfg.csActive.get c)

/-- `v[p] <- f`: bit `p` set when `f` is true, cleared when it is false (R214). -/
def putBit (v : Byte) (p : Fin 8) (f : Bool) : Byte :=
  if f then v ||| (1#8 <<< p.val) else v &&& ~~~(1#8 <<< p.val)

/-- `overlay(k, v)`: the four transient flags forced into the stored byte, in the order PWRGOOD, reverse polarity (only
on a capable channel), CV, CC; a later line wins where positions coincide (R214). -/
def overlay (cfg : Cfg) (k : Chan) (x : IoExp) (v : Byte) : Byte :=
  let v1 := putBit v cfg.ioxBitPwrgood x.pwrgood
  let v2 := if cfg.rpolCapable.get k then putBit v1 cfg.ioxBitRpol x.rpol else v1
  let v3 := putBit v2 cfg.ioxBitCv x.cv
  putBit v3 cfg.ioxBitCc x.cc

/-- `io[k].cv <- cv; io[k].cc <- cc`, the only writer of the two flags (R35, R220). -/
def publishMode (k : Chan) (cv cc : Bool) (s : State) : State := s.setIo k { s.io.get k with cv := cv, cc := cc }

/-- The flags of the no-load, output-on branch: CV only when both set-points are strictly positive, CC never (R255). -/
def noLoadCv (uSet iSet : Word) : Bool := decide (0 < uSet.toNat) && decide (0 < iSet.toNat)

end Sys2Proof.Machine
end

