-- ==== Sys2Proof/Machine/Backplane.lean ====
section
/-! DEFINITION. The backplane's byte protocol (43_backplane.md): two bytes shift in, high first, and the second commits;
every returned byte is 0x00. -/

namespace Sys2Proof.Machine

/-- `BP.FRAME`, the high byte (R201). -/
def bpHigh (b : Byte) (s : State) : State × Byte :=
  (s.setBp { s.bp with shift := word b 0x00#8, ps := .low }, 0x00#8)

/-- The low byte is ORed in and the value committed, in one step (R202). -/
def bpLow (b : Byte) (s : State) : State × Byte :=
  let v := s.bp.shift ||| b.setWidth 16
  (s.setBp { ps := .done, shift := v, display := v }, 0x00#8)

/-- `bp_transfer(b)` (R201 to R203). -/
def bpTransfer (b : Byte) (s : State) : State × Byte :=
  match s.bp.ps with
  | .high => bpHigh b s
  | .low => bpLow b s
  | .done => (s, 0x00#8)

end Sys2Proof.Machine
end

