-- ==== Sys2Proof/Machine/Electrical.lean ====
section
/-! DEFINITION. The calibration record and the electrical model (R252 to R259), on exact rationals (R257;
log entry 21). -/

namespace Sys2Proof.Machine

/-- A real-valued code brought to 16 bits: floor, then `clamp(·, 0, 65535)` (R258). -/
def codeOf (q : Rat) : Word := BitVec.ofInt 16 (clamp q.floor 0 65535)

/-- `S = ADC_MAX - ADC_MIN` (R258). -/
def codeSpan (cfg : Cfg) : Rat := (cfg.adcMax : Rat) - (cfg.adcMin : Rat)

/-- A code's offset in its range, `c - ADC_MIN` (R258). -/
def codeOffset (cfg : Cfg) (c : Word) : Rat := (c.toNat : Rat) - (cfg.adcMin : Rat)

/-- `code_to_volts` (R258). -/
def codeToVolts (cfg : Cfg) (cal : Cal) (c : Word) : Rat :=
  match cal with
  | .linear uMin uMax _ _ => uMin + codeOffset cfg c * (uMax - uMin) / codeSpan cfg
  | .milli => (c.toNat : Rat) / 1000
  | .curve n => Config.curveCodeToVolts n c

/-- `code_to_amps` (R258). -/
def codeToAmps (cfg : Cfg) (cal : Cal) (c : Word) : Rat :=
  match cal with
  | .linear _ _ iMin iMax => iMin + codeOffset cfg c * (iMax - iMin) / codeSpan cfg
  | .milli => (c.toNat : Rat) / 1000
  | .curve n => Config.curveCodeToAmps n c

/-- `volts_to_code` (R258). -/
def voltsToCode (cfg : Cfg) (cal : Cal) (u : Rat) : Word :=
  match cal with
  | .linear uMin uMax _ _ => codeOf ((cfg.adcMin : Rat) + (u - uMin) * codeSpan cfg / (uMax - uMin))
  | .milli => codeOf (u * 1000)
  | .curve n => Config.curveVoltsToCode n u

/-- `amps_to_code` (R258). -/
def ampsToCode (cfg : Cfg) (cal : Cal) (i : Rat) : Word :=
  match cal with
  | .linear _ _ iMin iMax => codeOf ((cfg.adcMin : Rat) + (i - iMin) * codeSpan cfg / (iMax - iMin))
  | .milli => codeOf (i * 1000)
  | .curve n => Config.curveAmpsToCode n i

/-- `prog_to_volts` (R258): the programming domain 0..2.5 V to the voltage range, the input not clamped (R259). -/
def progToVolts (cal : Cal) (p : Rat) : Rat :=
  match cal with
  | .linear uMin uMax _ _ => uMin + p * (uMax - uMin) / Config.vprogMax
  | .milli => p * 16
  | .curve n => Config.curveProgToVolts n p

/-- `dac_to_adc(code)` (R252): the linear remap, floored once, clamped to the ADC's range. `ADC_MIN` is an integer, so
it stands outside the floor (log entry 18). -/
def dacToAdc (cfg : Cfg) (code : Word) : Word :=
  BitVec.ofInt 16 (clamp
    ((cfg.adcMin : Int) +
      ((code.toNat : Int) - cfg.dacMin) * ((cfg.adcMax : Int) - cfg.adcMin) / ((cfg.dacMax : Int) - cfg.dacMin))
    cfg.adcMin cfg.adcMax)

/-! ### Branch A: a resistive load (R254) -/

/-- Step 1: the commanded voltage, from the programming input or from the held code. -/
def commandedVolts (k : Chan) (s : State) : Rat :=
  if (s.env.ch.get k).rprog then progToVolts (s.cfg.cal.get k) (s.env.ch.get k).vProgExt
  else codeToVolts s.cfg (s.cfg.cal.get k) (s.adc.get k).uSet

/-- Step 2: the commanded current. -/
def commandedAmps (k : Chan) (s : State) : Rat := codeToAmps s.cfg (s.cfg.cal.get k) (s.adc.get k).iSet

/-- Step 3: the candidate voltage, commanded current times load resistance. -/
def candidateVolts (k : Chan) (s : State) : Rat := commandedAmps k s * (s.env.ch.get k).loadR

/-- `adc[k].u_mon <- u; adc[k].i_mon <- i`, the only writer of the measured codes (R39, R253). -/
def setMeasured (k : Chan) (u i : Word) (s : State) : State := s.setAdc k { s.adc.get k with uMon := u, iMon := i }

/-- Step 4: constant voltage. The current code is a draw when the division is by zero (R254, R259). -/
def branchCv (k : Chan) (s : State) : State :=
  let cal := s.cfg.cal.get k
  let r := (s.env.ch.get k).loadR
  let uCmd := commandedVolts k s
  if r = 0 then (setMeasured k (voltsToCode s.cfg cal uCmd) s.drawCode (publishMode k true false s)).drawn
  else setMeasured k (voltsToCode s.cfg cal uCmd) (ampsToCode s.cfg cal (uCmd / r)) (publishMode k true false s)

/-- Step 5: constant current (R254). -/
def branchCc (k : Chan) (s : State) : State :=
  let cal := s.cfg.cal.get k
  setMeasured k (voltsToCode s.cfg cal (candidateVolts k s)) (ampsToCode s.cfg cal (commandedAmps k s))
    (publishMode k false true s)

/-- Branch A: constant voltage when the candidate strictly exceeds the commanded voltage, else constant current
(R254). -/
def branchA (k : Chan) (s : State) : State :=
  if candidateVolts k s > commandedVolts k s then branchCv k s else branchCc k s

/-- Branch B: no load, output enabled (R255). -/
def branchB (k : Chan) (s : State) : State :=
  let x := s.adc.get k
  setMeasured k x.uSet 0x0000#16 (publishMode k (noLoadCv x.uSet x.iSet) false s)

/-- Branch C: no load, output disabled (R256). -/
def branchC (k : Chan) (s : State) : State := setMeasured k 0x0000#16 0x0000#16 (publishMode k false false s)

/-- `updateValues(k)`: exactly one of the three branches, tested in this order (R253). -/
def updateValues (k : Chan) (s : State) : State :=
  if (s.env.ch.get k).loadEn then branchA k s
  else if (s.env.ch.get k).outEn then branchB k s
  else branchC k s

end Sys2Proof.Machine
end

