-- ==== Sys2Proof/Machine/Adc.lean ====
section
/-! DEFINITION. The ADCs' byte protocol (R230 to R244) and their set-point intake (R251). Every function answers the new
state and the byte returned to the master, 0x00 where no rule names one (R139). -/

namespace Sys2Proof.Machine

/-- `adc[k].ps <- p`. -/
def setAdcPs (k : Chan) (p : AdcPs) (s : State) : State := s.setAdc k { s.adc.get k with ps := p }

/-- `ADC.RESET`, a no-op (R232). -/
def adcResetCommand (_k : Chan) (s : State) : State × Byte := (s, 0x00#8)

/-- `ADC.START`: one delivery is pending (R233). -/
def adcStartCommand (k : Chan) (s : State) : State × Byte :=
  (s.setAdc k { s.adc.get k with start := true }, 0x00#8)

/-- `ADC.RDATA`: nothing is latched (R240). -/
def adcRdataCommand (k : Chan) (s : State) : State × Byte := (setAdcPs k .dataMsb s, 0x00#8)

/-- `ADC.RREG`: the burst starts at `ADC_BURST_START` (R234). -/
def adcRregCommand (k : Chan) (s : State) : State × Byte :=
  (s.setAdc k { s.adc.get k with index := s.cfg.adcBurstStart, ps := .regRead }, 0x00#8)

/-- `ADC.WREG`: the burst starts at `ADC_BURST_START` (R236). -/
def adcWregCommand (k : Chan) (s : State) : State × Byte :=
  (s.setAdc k { s.adc.get k with index := s.cfg.adcBurstStart, ps := .regWrite }, 0x00#8)

/-- `ADC.WMODE` (R238). -/
def adcWmodeCommand (k : Chan) (s : State) : State × Byte := (setAdcPs k .modeWrite s, 0x00#8)

/-- A byte in `Idle`: one of the six commands, else ignored (R231, R244). -/
def adcCommand (k : Chan) (b : Byte) (s : State) : State × Byte :=
  match decodeCommand s.cfg .adc b with
  | some .adcReset => adcResetCommand k s
  | some .adcStart => adcStartCommand k s
  | some .adcRdata => adcRdataCommand k s
  | some .adcRreg => adcRregCommand k s
  | some .adcWreg => adcWregCommand k s
  | some .adcWmode => adcWmodeCommand k s
  | _ => (s, 0x00#8)

/-- A register read byte; the cursor counts mod 256 (R235). -/
def adcRegRead (k : Chan) (s : State) : State × Byte :=
  let x := s.adc.get k
  (s.setAdc k { x with index := x.index + 1 }, regRead s.cfg.adcNregs x.regs x.index)

/-- A register write byte; the cursor counts mod 256 (R237). -/
def adcRegWrite (k : Chan) (b : Byte) (s : State) : State × Byte :=
  let x := s.adc.get k
  (s.setAdc k { x with regs := regWrite s.cfg.adcNregs x.regs x.index b, index := x.index + 1 }, 0x00#8)

/-- The mode byte goes to register 0 and the chip decodes commands again (R239). -/
def adcModeByte (k : Chan) (b : Byte) (s : State) : State × Byte :=
  let x := s.adc.get k
  (s.setAdc k { x with regs := x.regs.set 0 b, ps := .idle }, 0x00#8)

/-- The mode register, `adc[k].regs[0]` (R38). -/
def Adc.mode (x : Adc) : Byte := x.regs.getD 0 0x00#8

/-- `result(k)`: the quantity the mode register selects; a measured one is computed by a run of the electrical model
first (R241). -/
def adcResult (k : Chan) (s : State) : State × Word :=
  let m := (s.adc.get k).mode
  if m = s.cfg.adcModeUMon then (updateValues k s, ((updateValues k s).adc.get k).uMon)
  else if m = s.cfg.adcModeIMon then (updateValues k s, ((updateValues k s).adc.get k).iMon)
  else if m = s.cfg.adcModeUSet then (s, (s.adc.get k).uSet)
  else if m = s.cfg.adcModeISet then (s, (s.adc.get k).iSet)
  else (s, 0x0000#16)

/-- The high byte of the result (R242). -/
def adcResultHigh (k : Chan) (s : State) : State × Byte :=
  let q := adcResult k s
  (setAdcPs k .dataLsb q.1, hi8 q.2)

/-- The low byte of the result, computed again (R243). -/
def adcResultLow (k : Chan) (s : State) : State × Byte :=
  let q := adcResult k s
  (setAdcPs k .idle q.1, lo8 q.2)

/-- `adc_transfer(k, b)` (R231). -/
def adcTransfer (k : Chan) (b : Byte) (s : State) : State × Byte :=
  match (s.adc.get k).ps with
  | .idle => adcCommand k b s
  | .regRead => adcRegRead k s
  | .regWrite => adcRegWrite k b s
  | .modeWrite => adcModeByte k b s
  | .dataMsb => adcResultHigh k s
  | .dataLsb => adcResultLow k s

/-- The held set-point a buffer names: A is `u_set`, B is `i_set` (R251). -/
def setSetPoint (k : Chan) (buf : Buf) (v : Word) (s : State) : State :=
  match buf with
  | .a => s.setAdc k { s.adc.get k with uSet := v }
  | .b => s.setAdc k { s.adc.get k with iSet := v }

/-- `setDacValue(k, buf, code)`: remap, hold, run the model, tick. `tick` is the chip's own `adc_tick(k)` (R251). -/
def setDacValueWith (tick : Chan → State → State) (k : Chan) (buf : Buf) (code : Word) (s : State) : State :=
  tick k (updateValues k (setSetPoint k buf (dacToAdc s.cfg code) s))

end Sys2Proof.Machine
end

