-- ==== Sys2Proof/Machine/Dac.lean ====
section
/-! DEFINITION. The DACs' byte protocol (46_dac.md): write-only, every returned byte 0x00. `tick` is the paired ADC's
`adc_tick`, which a commit runs (R273). -/

namespace Sys2Proof.Machine

/-- `DAC.BUF_A` (R271). -/
def dacBufACommand (k : Chan) (s : State) : State × Byte :=
  (s.setDac k { s.dac.get k with buf := .a, ps := .msb }, 0x00#8)

/-- `DAC.BUF_B` (R276). -/
def dacBufBCommand (k : Chan) (s : State) : State × Byte :=
  (s.setDac k { s.dac.get k with buf := .b, ps := .msb }, 0x00#8)

/-- A byte in `Idle`: one of the two buffer selections, else ignored (R271, R274, R276). -/
def dacCommand (k : Chan) (b : Byte) (s : State) : State × Byte :=
  match decodeCommand s.cfg .dac b with
  | some .dacBufA => dacBufACommand k s
  | some .dacBufB => dacBufBCommand k s
  | _ => (s, 0x00#8)

/-- The high code byte (R272). -/
def dacMsb (k : Chan) (b : Byte) (s : State) : State × Byte :=
  (s.setDac k { s.dac.get k with msb := b, ps := .lsb }, 0x00#8)

/-- The low code byte: the DAC is back in `Idle` before the commit runs (R273). -/
def dacLsbWith (tick : Chan → State → State) (k : Chan) (b : Byte) (s : State) : State × Byte :=
  let d := s.dac.get k
  (setDacValueWith tick k d.buf (word d.msb b) (s.setDac k { d with ps := .idle }), 0x00#8)

/-- `dac_transfer(k, b)` (R271 to R274, R276). -/
def dacTransferWith (tick : Chan → State → State) (k : Chan) (b : Byte) (s : State) : State × Byte :=
  match (s.dac.get k).ps with
  | .idle => dacCommand k b s
  | .msb => dacMsb k b s
  | .lsb => dacLsbWith tick k b s

end Sys2Proof.Machine
end

