-- ==== Sys2Proof/Machine/Eeprom.lean ====
section
/-! DEFINITION. The EEPROM's byte protocol (41_eeprom.md). Every function answers the new state and the byte returned
to the master, 0x00 where no rule names one (R139). -/

namespace Sys2Proof.Machine

/-- `EE.READ` (R152). -/
def eeReadCommand (s : State) : State × Byte := (s.setEe { s.ee with ps := .readAddrHigh }, 0x00#8)

/-- `EE.WRITE` (R156). -/
def eeWriteCommand (s : State) : State × Byte := (s.setEe { s.ee with ps := .writeAddrHigh }, 0x00#8)

/-- `EE.RDSR`, the command byte (R158). -/
def eeRdsrCommand (s : State) : State × Byte := (s.setEe { s.ee with ps := .readStatus }, 0x00#8)

/-- A byte in `Idle`: one of the three commands, else ignored (R151, R159). -/
def eeCommand (b : Byte) (s : State) : State × Byte :=
  match decodeCommand s.cfg .eeprom b with
  | some .eeRead => eeReadCommand s
  | some .eeWrite => eeWriteCommand s
  | some .eeRdsr => eeRdsrCommand s
  | _ => (s, 0x00#8)

/-- The high address byte: the whole register is written, its low byte cleared (R153). -/
def eeAddrHigh (b : Byte) (next : EePs) (s : State) : State × Byte :=
  (s.setEe { s.ee with address := word b 0x00#8, ps := next }, 0x00#8)

/-- The low address byte; the cursor starts at 0 (R154). -/
def eeAddrLow (b : Byte) (next : EePs) (s : State) : State × Byte :=
  (s.setEe { s.ee with address := word (hi8 s.ee.address) b, index := 0, ps := next }, 0x00#8)

/-- A read data byte: the cell at `address + index`; the cursor counts mod 64 (R155). -/
def eeReadData (s : State) : State × Byte :=
  (s.setEe { s.ee with index := s.ee.index + 1 }, memRead s.cfg s.ee.store (cellOf s.ee.address s.ee.index))

/-- A write data byte: stored before the exchange returns; the cursor counts mod 64 (R157). -/
def eeWriteData (b : Byte) (s : State) : State × Byte :=
  (s.setEe { s.ee with
      store := memWrite s.cfg s.ee.store (cellOf s.ee.address s.ee.index) b
      index := s.ee.index + 1 }, 0x00#8)

/-- A byte in `ReadStatus` returns the status and changes nothing (R158). -/
def eeStatus (s : State) : State × Byte := (s, s.cfg.eeStatusValue)

/-- `ee_transfer(b)` (R151). -/
def eeTransfer (b : Byte) (s : State) : State × Byte :=
  match s.ee.ps with
  | .idle => eeCommand b s
  | .readAddrHigh => eeAddrHigh b .readAddrLow s
  | .readAddrLow => eeAddrLow b .read s
  | .read => eeReadData s
  | .writeAddrHigh => eeAddrHigh b .writeAddrLow s
  | .writeAddrLow => eeAddrLow b .write s
  | .write => eeWriteData b s
  | .readStatus => eeStatus s

end Sys2Proof.Machine
end

