-- ==== Sys2Proof/Machine/IoExpander.lean ====
section
/-! DEFINITION. The IO expanders' byte protocol (44_ioexp.md). Every function answers the new state and the byte
returned to the master, 0x00 where no rule names one (R139). -/

namespace Sys2Proof.Machine

/-- `IOX.READ` on expander `k` (R212). -/
def ioxReadCommand (k : Chan) (s : State) : State × Byte :=
  (s.setIo k { s.io.get k with ps := .rdIndex }, 0x00#8)

/-- `IOX.WRITE` on expander `k` (R215). -/
def ioxWriteCommand (k : Chan) (s : State) : State × Byte :=
  (s.setIo k { s.io.get k with ps := .wrIndex }, 0x00#8)

/-- A byte in `Idle`: one of the two commands, else ignored (R211, R219). -/
def ioxCommand (k : Chan) (b : Byte) (s : State) : State × Byte :=
  match decodeCommand s.cfg .ioexp b with
  | some .ioxRead => ioxReadCommand k s
  | some .ioxWrite => ioxWriteCommand k s
  | _ => (s, 0x00#8)

/-- The index byte: every value is accepted (R212, R215, R217). -/
def ioxIndex (k : Chan) (b : Byte) (next : IoPs) (s : State) : State × Byte :=
  (s.setIo k { s.io.get k with index := b, ps := next }, 0x00#8)

/-- The byte a data read returns: 0x00 beyond the array, the overlaid byte at the GPIO index, else the stored one
(R213, R214, R217). -/
def ioxReadValue (cfg : Cfg) (k : Chan) (x : IoExp) : Byte :=
  if x.index.toNat < cfg.ioxNregs then
    let v := regRead cfg.ioxNregs x.regs x.index
    if x.index = cfg.gpioIndex then overlay cfg k x v else v
  else 0x00#8

/-- A read data byte changes no state (R213, R218). -/
def ioxReadData (k : Chan) (s : State) : State × Byte := (s, ioxReadValue s.cfg k (s.io.get k))

/-- A write data byte goes straight to the array; index and protocol state stay (R216, R217, R218). -/
def ioxWriteData (k : Chan) (b : Byte) (s : State) : State × Byte :=
  let x := s.io.get k
  (s.setIo k { x with regs := regWrite s.cfg.ioxNregs x.regs x.index b }, 0x00#8)

/-- `iox_transfer(k, b)` (R211). -/
def ioxTransfer (k : Chan) (b : Byte) (s : State) : State × Byte :=
  match (s.io.get k).ps with
  | .idle => ioxCommand k b s
  | .rdIndex => ioxIndex k b .rdData s
  | .wrIndex => ioxIndex k b .wrData s
  | .rdData => ioxReadData k s
  | .wrData => ioxWriteData k b s

end Sys2Proof.Machine
end

