-- ==== Sys2Proof/Machine/Calendar.lean ====
section
/-! DEFINITION. Calendar arithmetic of the RTC (R174, R175): proleptic Gregorian, UTC, days of 86400 seconds, on
unbounded integers. Lean's `/` and `%` on `Int` by a positive divisor are the spec's `div` and `mod` (R11). -/

namespace Sys2Proof.Machine

/-- A broken-down time (R174); weekday 0 is Sunday. -/
structure Civil where
  year    : Int
  month   : Int
  day     : Int
  hour    : Int
  minute  : Int
  second  : Int
  weekday : Int
deriving DecidableEq, Repr

/-- The day of the 400-year era, 0..146096, of day number `z` (R174). -/
def dayOfEra (z : Int) : Int := (z + 719468) - (z + 719468) / 146097 * 146097

/-- The year of the era, 0..399, of a day of the era (R174). -/
def yearOfEra (doe : Int) : Int := (doe - doe / 1460 + doe / 36524 - doe / 146096) / 365

/-- The day of the year counted from 1 March, 0..365 (R174). -/
def dayOfYear (doe : Int) : Int :=
  doe - (365 * yearOfEra doe + yearOfEra doe / 4 - yearOfEra doe / 100)

/-- The month counted from March, 0..11, of a day of the year (R174). -/
def marchMonth (doy : Int) : Int := (5 * doy + 2) / 153

/-- `civil_from_days(z)`: year, month, day (R174). -/
def civilFromDays (z : Int) : Int × Int × Int :=
  let era := (z + 719468) / 146097
  let doe := dayOfEra z
  let doy := dayOfYear doe
  let mp := marchMonth doy
  let day := doy - (153 * mp + 2) / 5 + 1
  let month := if mp < 10 then mp + 3 else mp - 9
  let year := yearOfEra doe + era * 400 + (if month ≤ 2 then 1 else 0)
  (year, month, day)

/-- `break_time(t)` (R174). -/
def breakTime (t : Int) : Civil :=
  let z := t / 86400
  let sod := t % 86400
  let ymd := civilFromDays z
  { year := ymd.1
    month := ymd.2.1
    day := ymd.2.2
    hour := sod / 3600
    minute := sod % 3600 / 60
    second := sod % 60
    weekday := (z + 4) % 7 }

/-- A leap year (R174). -/
def isLeap (y : Int) : Bool := (decide (y % 4 = 0) && !decide (y % 100 = 0)) || decide (y % 400 = 0)

/-- `days_in_month(Y, M)` for M = 1..12 (R175). -/
def daysInMonth (y m : Int) : Int :=
  if m = 2 then (if isLeap y then 29 else 28)
  else if m = 4 ∨ m = 6 ∨ m = 9 ∨ m = 11 then 30
  else 31

/-- `valid(Y, M, D, h, m, s)` (R175); the weekday is not looked at. -/
def Civil.valid (t : Civil) : Bool :=
  decide (1 ≤ t.month ∧ t.month ≤ 12 ∧ 1 ≤ t.day ∧ t.day ≤ daysInMonth t.year t.month ∧
    0 ≤ t.hour ∧ t.hour ≤ 23 ∧ 0 ≤ t.minute ∧ t.minute ≤ 59 ∧ 0 ≤ t.second ∧ t.second ≤ 59)

/-- The day number of a date (R175). -/
def daysFromCivil (y m d : Int) : Int :=
  let y' := if m ≤ 2 then y - 1 else y
  let era := y' / 400
  let yoe := y' - era * 400
  let mp := (m + 9) % 12
  let doy := (153 * mp + 2) / 5 + d - 1
  let doe := yoe * 365 + yoe / 4 - yoe / 100 + doy
  era * 146097 + doe - 719468

/-- `make_time` (R175). It is used on valid records only: on others the spec gives it no value (R184). -/
def makeTime (t : Civil) : Int :=
  daysFromCivil t.year t.month t.day * 86400 + t.hour * 3600 + t.minute * 60 + t.second

/-- The seven calendar fields, in chain order (R179). -/
inductive Field where
  | second | minute | hour | day | weekday | month | year
deriving DecidableEq, Repr

/-- A field of a broken-down time. -/
def Civil.field (t : Civil) : Field → Int
  | .second => t.second
  | .minute => t.minute
  | .hour => t.hour
  | .day => t.day
  | .weekday => t.weekday
  | .month => t.month
  | .year => t.year

/-- A broken-down time with one field replaced (R182). -/
def Civil.put (t : Civil) (f : Field) (v : Int) : Civil :=
  match f with
  | .second => { t with second := v }
  | .minute => { t with minute := v }
  | .hour => { t with hour := v }
  | .day => { t with day := v }
  | .weekday => { t with weekday := v }
  | .month => { t with month := v }
  | .year => { t with year := v }

end Sys2Proof.Machine
end

