-- ==== Sys2Proof/Machine/Rtc.lean ====
section
/-! DEFINITION. The RTC's byte protocol (42_rtc.md). Every function answers the new state and the byte returned to the
master, 0x00 where no rule names one (R139). -/

namespace Sys2Proof.Machine

/-- `rtc.ps <- p`. -/
def setRtcPs (p : RtcPs) (s : State) : State := s.setRtc { s.rtc with ps := p }

/-- `RTC.RD_CTRL` (R177). -/
def rtcRdCtrlCommand (s : State) : State × Byte := (setRtcPs .rdCtrl1 s, 0x00#8)

/-- `RTC.WR_CTRL` (R178). -/
def rtcWrCtrlCommand (s : State) : State × Byte := (setRtcPs .wrCtrl1 s, 0x00#8)

/-- `RTC.RD_TIME` (R179). -/
def rtcRdTimeCommand (s : State) : State × Byte := (setRtcPs .rdSeconds s, 0x00#8)

/-- `RTC.WR_TIME` (R181). -/
def rtcWrTimeCommand (s : State) : State × Byte := (setRtcPs .wrSeconds s, 0x00#8)

/-- A byte in `Idle`: one of the four commands, else ignored (R176, R185). -/
def rtcCommand (b : Byte) (s : State) : State × Byte :=
  match decodeCommand s.cfg .rtc b with
  | some .rtcRdCtrl => rtcRdCtrlCommand s
  | some .rtcWrCtrl => rtcWrCtrlCommand s
  | some .rtcRdTime => rtcRdTimeCommand s
  | some .rtcWrTime => rtcWrTimeCommand s
  | _ => (s, 0x00#8)

/-- Present time, computed afresh at every use (R173). -/
def presentTime (s : State) : Int := s.rtc.offset + s.env.now

/-- `field(f)` for every field but the year (R180). -/
def rtcPlainField (f : Field) (s : State) : Byte := toBcd ((breakTime (presentTime s)).field f)

/-- Whether the year byte is defined: the year is in 2000..2099 (R180). -/
def yearShown (s : State) : Bool :=
  decide (Config.rtcYearOrigin ≤ (breakTime (presentTime s)).year) &&
    decide ((breakTime (presentTime s)).year ≤ Config.rtcYearOrigin + 99)

/-- `field(f)`, then `rtc.ps <- next`: the field is derived at this exchange; the year byte outside 2000..2099 is a
draw (R179, R180). -/
def rtcReadField (f : Field) (next : RtcPs) (s : State) : State × Byte :=
  match f with
  | .year =>
    if yearShown s then
      (setRtcPs next s, toBcd ((breakTime (presentTime s)).year - Config.rtcYearOrigin))
    else ((setRtcPs next s).drawn, s.drawByte)
  | f => (setRtcPs next s, rtcPlainField f s)

/-- The value a written byte gives a field: its decimal value, from the year origin for the year (R182). -/
def fieldValue (f : Field) (b : Byte) : Int :=
  match f with
  | .year => Config.rtcYearOrigin + fromBcd b
  | _ => fromBcd b

/-- The record a setter builds: the present breakdown with the one field substituted (R182). -/
def substituted (f : Field) (b : Byte) (s : State) : Civil := (breakTime (presentTime s)).put f (fieldValue f b)

/-- Whether a written byte gives a valid record; if not, the spec gives the offset no value (R182, R184). -/
def fieldWriteOk (f : Field) (b : Byte) (s : State) : Bool := bcdOk b && (substituted f b s).valid

/-- `set_field(f, b)`: the offset that makes the substituted record the present time, or a draw (R182, R184). -/
def setField (f : Field) (b : Byte) (s : State) : State :=
  if fieldWriteOk f b s then s.setRtc { s.rtc with offset := makeTime (substituted f b s) - s.env.now }
  else (s.setRtc { s.rtc with offset := s.drawOffset }).drawn

/-- One byte of a time write: the setter, then `rtc.ps <- next` (R181). -/
def rtcWriteField (f : Field) (b : Byte) (next : RtcPs) (s : State) : State × Byte :=
  (setRtcPs next (setField f b s), 0x00#8)

/-- The weekday byte of a time write: nothing but the chain moves (R183). -/
def rtcWriteWeekday (s : State) : State × Byte := (setRtcPs .wrMonths s, 0x00#8)

/-- `rtc_transfer(b)` (R176 to R181). -/
def rtcTransfer (b : Byte) (s : State) : State × Byte :=
  match s.rtc.ps with
  | .idle => rtcCommand b s
  | .rdCtrl1 => (setRtcPs .rdCtrl2 s, s.rtc.ctrl1)
  | .rdCtrl2 => (setRtcPs .idle s, s.rtc.ctrl2)
  | .wrCtrl1 => (s.setRtc { s.rtc with ctrl1 := b, ps := .wrCtrl2 }, 0x00#8)
  | .wrCtrl2 => (s.setRtc { s.rtc with ctrl2 := b, ps := .idle }, 0x00#8)
  | .rdSeconds => rtcReadField .second .rdMinutes s
  | .rdMinutes => rtcReadField .minute .rdHours s
  | .rdHours => rtcReadField .hour .rdDays s
  | .rdDays => rtcReadField .day .rdWeekdays s
  | .rdWeekdays => rtcReadField .weekday .rdMonths s
  | .rdMonths => rtcReadField .month .rdYears s
  | .rdYears => rtcReadField .year .idle s
  | .wrSeconds => rtcWriteField .second b .wrMinutes s
  | .wrMinutes => rtcWriteField .minute b .wrHours s
  | .wrHours => rtcWriteField .hour b .wrDays s
  | .wrDays => rtcWriteField .day b .wrWeekdays s
  | .wrWeekdays => rtcWriteWeekday s
  | .wrMonths => rtcWriteField .month b .wrYears s
  | .wrYears => rtcWriteField .year b .idle s

end Sys2Proof.Machine
end

