-- ==== Sys2Proof/Machine/Bus.lean ====
section
/-! DEFINITION. The arbiter's three operations (40_bus.md) and the meanings of `CS`, `XFER` and `TICK`. An operation,
with every handler it runs, is one indivisible transition (R12): the nesting of ticks, handlers and commits is a
recursion on a bound that the two depth counters impose (R250, R289). -/

namespace Sys2Proof.Machine

/-- `CS(line, level)` on the line of chip `c` (R130 to R133). -/
def csWrite (c : Chip) (level : Level) (s : State) : State :=
  if asserted s.cfg c level then selectChip c (s.setSel (some c))
  else if s.sel = some c then s.setSel none
  else s

/-- One chip's `transfer(b)` (R134). -/
def chipTransferWith (tick : Chan → State → State) (c : Chip) (b : Byte) (s : State) : State × Byte :=
  match c with
  | .eeprom => eeTransfer b s
  | .rtc => rtcTransfer b s
  | .bp => bpTransfer b s
  | .ioexp k => ioxTransfer k b s
  | .adc k => adcTransfer k b s
  | .dac k => dacTransferWith tick k b s

/-- `XFER(b)` up to its result: the selected chip's transfer, or 0x00 and no effect when none is selected
(R134, R135). -/
def transferWith (tick : Chan → State → State) (b : Byte) (s : State) : State × Byte :=
  match s.sel with
  | none => (s, 0x00#8)
  | some c => chipTransferWith tick c b s

/-- The exchange completed: the returned byte goes out (R134). -/
def reply (p : State × Byte) : State := p.1.emit (.ret p.2)

/-- `XFER(b)` over a way to tick. -/
def xferWith (tick : Chan → State → State) (b : Byte) (s : State) : State := reply (transferWith tick b s)

/-- One operation of a handler, by the ordinary rules (R285). -/
def runHandlerOp (tick : Chan → State → State) (o : HandlerOp) (s : State) : State :=
  match o with
  | .cs c level => csWrite c level s
  | .xfer b => xferWith tick b s
  | .env e => applyEnv e s

/-- `adc_tick(k)` with at most `n` activations nested, this one included. -/
def adcTick : Nat → Chan → State → State
  | 0, _, s => s
  | n + 1, k, s => tickWith (runHandlerOp (adcTick n)) k s

/-- How deep activations can nest: four of each ADC (R40, R289). A tick that finds no room left here finds
`depth = 4` too, and is dropped all the same (log entry 14). -/
def nestBound : Nat := 8

/-- `adc_tick(k)` (R250). -/
def tick (k : Chan) (s : State) : State := adcTick nestBound k s

/-- `XFER(b)` (R134). -/
def xfer (b : Byte) (s : State) : State := xferWith tick b s

/-- `CS` (R130); a line number above 8 names no line and is refused (R71). -/
def execCs (line : BitVec 4) (level : Level) (s : State) : Host.Outcome State Fault Refusal :=
  match Chip.ofLine line with
  | some c => .next (csWrite c level s)
  | none => .refused .noSuchLine

/-- `XFER` (R134). -/
def execXfer (b : Byte) (s : State) : Host.Outcome State Fault Refusal := .next (xfer b s)

/-- `TICK` (R136). -/
def execTick (k : Chan) (s : State) : Host.Outcome State Fault Refusal := .next (tick k s)

end Sys2Proof.Machine
end

