-- ==== Sys2Proof/Machine/Commands.lean ====
section
/-! DEFINITION. The meanings of the eighteen command bytes. Each is decoded only by a selected chip of its protocol in
its command state (R101, R110) and there has the effect its rule gives it. Where no such chip is listening, the same
byte on the bus is no command (R101): it is the plain exchange of R134, and that is what the meaning then is. -/

namespace Sys2Proof.Machine

/-- `EE.READ` (R152). -/
def execEeRead (s : State) : Host.Outcome State Fault Refusal :=
  if s.listening = some .eeprom then .next (reply (eeReadCommand s)) else .next (xfer s.cfg.eeCmdRead s)

/-- `EE.WRITE` (R156). -/
def execEeWrite (s : State) : Host.Outcome State Fault Refusal :=
  if s.listening = some .eeprom then .next (reply (eeWriteCommand s)) else .next (xfer s.cfg.eeCmdWrite s)

/-- `EE.RDSR` (R158). -/
def execEeRdsr (s : State) : Host.Outcome State Fault Refusal :=
  if s.listening = some .eeprom then .next (reply (eeRdsrCommand s)) else .next (xfer s.cfg.eeCmdRdsr s)

/-- `RTC.RD_CTRL` (R177). -/
def execRtcRdCtrl (s : State) : Host.Outcome State Fault Refusal :=
  if s.listening = some .rtc then .next (reply (rtcRdCtrlCommand s)) else .next (xfer s.cfg.rtcCmdRdCtrl s)

/-- `RTC.WR_CTRL` (R178). -/
def execRtcWrCtrl (s : State) : Host.Outcome State Fault Refusal :=
  if s.listening = some .rtc then .next (reply (rtcWrCtrlCommand s)) else .next (xfer s.cfg.rtcCmdWrCtrl s)

/-- `RTC.RD_TIME` (R179). -/
def execRtcRdTime (s : State) : Host.Outcome State Fault Refusal :=
  if s.listening = some .rtc then .next (reply (rtcRdTimeCommand s)) else .next (xfer s.cfg.rtcCmdRdTime s)

/-- `RTC.WR_TIME` (R181). -/
def execRtcWrTime (s : State) : Host.Outcome State Fault Refusal :=
  if s.listening = some .rtc then .next (reply (rtcWrTimeCommand s)) else .next (xfer s.cfg.rtcCmdWrTime s)

/-- `BP.FRAME` (R201). -/
def execBpFrame (b : Byte) (s : State) : Host.Outcome State Fault Refusal :=
  if s.listening = some .bp then .next (reply (bpHigh b s)) else .next (xfer b s)

/-- `IOX.READ`, on whichever expander is listening (R212). -/
def execIoxRead (s : State) : Host.Outcome State Fault Refusal :=
  match s.sel, s.listening with
  | some (.ioexp k), some .ioexp => .next (reply (ioxReadCommand k s))
  | _, _ => .next (xfer s.cfg.ioxCmdRead s)

/-- `IOX.WRITE`, on whichever expander is listening (R215). -/
def execIoxWrite (s : State) : Host.Outcome State Fault Refusal :=
  match s.sel, s.listening with
  | some (.ioexp k), some .ioexp => .next (reply (ioxWriteCommand k s))
  | _, _ => .next (xfer s.cfg.ioxCmdWrite s)

/-- `ADC.RESET`, on whichever ADC is listening (R232). -/
def execAdcReset (s : State) : Host.Outcome State Fault Refusal :=
  match s.sel, s.listening with
  | some (.adc k), some .adc => .next (reply (adcResetCommand k s))
  | _, _ => .next (xfer s.cfg.adcCmdReset s)

/-- `ADC.START`, on whichever ADC is listening (R233). -/
def execAdcStart (s : State) : Host.Outcome State Fault Refusal :=
  match s.sel, s.listening with
  | some (.adc k), some .adc => .next (reply (adcStartCommand k s))
  | _, _ => .next (xfer s.cfg.adcCmdStart s)

/-- `ADC.RDATA`, on whichever ADC is listening (R240). -/
def execAdcRdata (s : State) : Host.Outcome State Fault Refusal :=
  match s.sel, s.listening with
  | some (.adc k), some .adc => .next (reply (adcRdataCommand k s))
  | _, _ => .next (xfer s.cfg.adcCmdRdata s)

/-- `ADC.RREG`, on whichever ADC is listening (R234). -/
def execAdcRreg (s : State) : Host.Outcome State Fault Refusal :=
  match s.sel, s.listening with
  | some (.adc k), some .adc => .next (reply (adcRregCommand k s))
  | _, _ => .next (xfer s.cfg.adcCmdRreg s)

/-- `ADC.WREG`, on whichever ADC is listening (R236). -/
def execAdcWreg (s : State) : Host.Outcome State Fault Refusal :=
  match s.sel, s.listening with
  | some (.adc k), some .adc => .next (reply (adcWregCommand k s))
  | _, _ => .next (xfer s.cfg.adcCmdWreg s)

/-- `ADC.WMODE`, on whichever ADC is listening (R238). -/
def execAdcWmode (s : State) : Host.Outcome State Fault Refusal :=
  match s.sel, s.listening with
  | some (.adc k), some .adc => .next (reply (adcWmodeCommand k s))
  | _, _ => .next (xfer s.cfg.adcCmdWmode s)

/-- `DAC.BUF_A`, on whichever DAC is listening (R271). -/
def execDacBufA (s : State) : Host.Outcome State Fault Refusal :=
  match s.sel, s.listening with
  | some (.dac k), some .dac => .next (reply (dacBufACommand k s))
  | _, _ => .next (xfer s.cfg.dacCmdBufA s)

/-- `DAC.BUF_B`, on whichever DAC is listening (R276). -/
def execDacBufB (s : State) : Host.Outcome State Fault Refusal :=
  match s.sel, s.listening with
  | some (.dac k), some .dac => .next (reply (dacBufBCommand k s))
  | _, _ => .next (xfer s.cfg.dacCmdBufB s)

end Sys2Proof.Machine
end

