-- ==== Sys2Proof/Machine/Dispatch.lean ====
section
/-! DEFINITION. From each instruction to its meaning. -/

namespace Sys2Proof.Machine

def exec (i : Instr) (s : State) : Host.Outcome State Fault Refusal :=
  match i with
  -- the arbiter's operations
  | .cs line level => Sys2Proof.Machine.execCs line level s
  | .xfer b => Sys2Proof.Machine.execXfer b s
  | .tick k => Sys2Proof.Machine.execTick k s
  -- EEPROM
  | .eeRead => Sys2Proof.Machine.execEeRead s
  | .eeWrite => Sys2Proof.Machine.execEeWrite s
  | .eeRdsr => Sys2Proof.Machine.execEeRdsr s
  -- RTC
  | .rtcRdCtrl => Sys2Proof.Machine.execRtcRdCtrl s
  | .rtcWrCtrl => Sys2Proof.Machine.execRtcWrCtrl s
  | .rtcRdTime => Sys2Proof.Machine.execRtcRdTime s
  | .rtcWrTime => Sys2Proof.Machine.execRtcWrTime s
  -- backplane
  | .bpFrame b => Sys2Proof.Machine.execBpFrame b s
  -- IO expanders
  | .ioxRead => Sys2Proof.Machine.execIoxRead s
  | .ioxWrite => Sys2Proof.Machine.execIoxWrite s
  -- ADCs
  | .adcReset => Sys2Proof.Machine.execAdcReset s
  | .adcStart => Sys2Proof.Machine.execAdcStart s
  | .adcRdata => Sys2Proof.Machine.execAdcRdata s
  | .adcRreg => Sys2Proof.Machine.execAdcRreg s
  | .adcWreg => Sys2Proof.Machine.execAdcWreg s
  | .adcWmode => Sys2Proof.Machine.execAdcWmode s
  -- DACs
  | .dacBufA => Sys2Proof.Machine.execDacBufA s
  | .dacBufB => Sys2Proof.Machine.execDacBufB s

end Sys2Proof.Machine
end

