-- ==== Sys2Proof/Machine/Fetch.lean ====
section
/-! DEFINITION. Taking the next thing that waits at the pins (R14, R82, R113): operations are taken one at a time in the
order they were issued, and the block does nothing on its own (R301). -/

namespace Sys2Proof.Machine

/-- What the next step does, with the state after the input has been taken. -/
inductive Fetched where
  /-- Nothing waits. -/
  | nothing
  /-- A change by the environment, or a handler registered: the state it leaves. -/
  | changed (s : State)
  /-- An instruction: an operation on the pins, or the command byte the selected chip reads in it. -/
  | run (i : Instr) (s : State)
  /-- A word that is no stimulus. -/
  | refuse (why : Reject)
deriving DecidableEq, Repr

/-- The next thing at the pins, read as the bus stands (R101, R113). -/
def fetch (s : State) : Fetched :=
  match s.inputs with
  | [] => .nothing
  | .env e :: rest => .changed (applyEnv e (s.setInputs rest))
  | .handler k l :: rest => .changed ((s.setInputs rest).setScripts k l)
  | .word w :: rest =>
    match decodeOnBus s.cfg s.listening w with
    | .ok i => .run i (s.setInputs rest)
    | .error why => .refuse why

/-- A chip of each protocol, channel 1 where there are two. -/
def chipOfKind : ChipKind → Chip
  | .eeprom => .eeprom
  | .rtc => .rtc
  | .bp => .bp
  | .ioexp => .ioexp .one
  | .adc => .adc .one
  | .dac => .dac .one

/-- The state in which chip `c` has just been selected (R132). -/
def select (c : Chip) (s : State) : State := selectChip c (s.setSel (some c))

/-- Stimulus word `w` waiting first at the pins. -/
def placeStimulus (s : State) (w : Word) : State := s.setInputs (.word w :: s.inputs)

/-- A row of the opcode table placed where the next step takes it: a stimulus word at the pins; a command byte in an
`XFER` at the pins, with a chip of the row's protocol just selected (R101; log entries 1 and 4). -/
def placeTableWord (s : State) (nbits w : Nat) : State :=
  if nbits = 16 then placeStimulus s (BitVec.ofNat 16 w)
  else if nbits = 8 then
    let b := BitVec.ofNat 8 w
    placeStimulus (select (chipOfKind (tableKind s.cfg b)) s) (xferWord b)
  else s

end Sys2Proof.Machine
end

