-- ==== Sys2Proof/Machine/Step.lean ====
section
/-! DEFINITION. One step of the machine: the next thing that waits at the pins, whole (R12, R82). -/

namespace Sys2Proof.Machine

/-- One step. With nothing at the pins the block does nothing (R301; log entry 6). -/
def step (s : State) : Host.Outcome State Fault Refusal :=
  match fetch s with
  | .nothing => .next s
  | .changed t => .next t
  | .run i t => exec i t
  | .refuse why => .refused (.badStimulus why)

/-- `s` with a row of the opcode table waiting first, so that the very next step runs it. -/
def State.withFetchWord (s : State) (nbits w : Nat) : State := placeTableWord s nbits w

end Sys2Proof.Machine
end

