-- ==== Sys2Proof/Machine/Pseudo.lean ====
section
/-! DEFINITION. The pseudo-instructions of R115, each as the stimuli it expands to, in order. A byte the chip ignores is
sent as 0x00. -/

namespace Sys2Proof.Machine

/-- The stimulus word of `CS`, on the line of a chip. -/
def csInput (c : Chip) (level : Level) : Input := .word (csWord c.line level)

/-- The stimulus word of `XFER`. -/
def xferInput (b : Byte) : Input := .word (xferWord b)

/-- The other level. -/
def Level.other : Level → Level
  | .low => .high
  | .high => .low

/-- `SEL line`. -/
def selInput (cfg : Cfg) (c : Chip) : Input := csInput c (cfg.csActive.get c)

/-- `DESEL line`. -/
def deselInput (cfg : Cfg) (c : Chip) : Input := csInput c (Level.other (cfg.csActive.get c))

/-- One frame: select, the bytes, de-select (R100, R115). -/
def frame (cfg : Cfg) (c : Chip) (bytes : List Byte) : List Input :=
  selInput cfg c :: bytes.map xferInput ++ [deselInput cfg c]

/-- `TICKALL`. -/
def tickAll : List Input := [.word (tickWord .one), .word (tickWord .two)]

/-- `EE.WR A, b0, .., bn`. -/
def eeWr (cfg : Cfg) (a : Word) (bytes : List Byte) : List Input :=
  frame cfg .eeprom ([cfg.eeCmdWrite, a.extractLsb' 8 8, a.extractLsb' 0 8] ++ bytes)

/-- `EE.RD A, n`. -/
def eeRd (cfg : Cfg) (a : Word) (n : Nat) : List Input :=
  frame cfg .eeprom ([cfg.eeCmdRead, a.extractLsb' 8 8, a.extractLsb' 0 8] ++ List.replicate n 0x00#8)

/-- `IOX.WR k, i, v`. -/
def ioxWr (cfg : Cfg) (k : Chan) (i v : Byte) : List Input := frame cfg (.ioexp k) [cfg.ioxCmdWrite, i, v]

/-- `IOX.RD k, i`. -/
def ioxRd (cfg : Cfg) (k : Chan) (i : Byte) : List Input := frame cfg (.ioexp k) [cfg.ioxCmdRead, i, 0x00#8]

/-- `DAC.SET k, A|B, C`. -/
def dacSet (cfg : Cfg) (k : Chan) (buf : Buf) (c : Word) : List Input :=
  frame cfg (.dac k)
    [match buf with | .a => cfg.dacCmdBufA | .b => cfg.dacCmdBufB, c.extractLsb' 8 8, c.extractLsb' 0 8]

/-- `ADC.MODE k, m`. -/
def adcMode (cfg : Cfg) (k : Chan) (m : Byte) : List Input := frame cfg (.adc k) [cfg.adcCmdWmode, m]

/-- `ADC.READ k`. -/
def adcRead (cfg : Cfg) (k : Chan) : List Input := frame cfg (.adc k) [cfg.adcCmdRdata, 0x00#8, 0x00#8]

/-- `BP.SET V`. -/
def bpSet (cfg : Cfg) (v : Word) : List Input := frame cfg .bp [v.extractLsb' 8 8, v.extractLsb' 0 8]

end Sys2Proof.Machine
end

