-- ==== Sys2Proof/Safety.lean ====
section
/-! DEFINITION. What holds of every state the block can be in (`State.Inv`), and what a safe step is. The properties
are those the spec states of its fields: 10_state.md R22 to R42, 43_backplane.md R202, 45_adc.md R250, R254. -/

namespace Sys2Proof

/-- The instruction is a byte exchange: `XFER`, or a command byte, which travels in one (R101, R134); not `CS`, not
`TICK`. -/
def Instr.isExchange : Instr → Bool
  | .cs _ _ | .tick _ => false
  | .xfer _ | .eeRead | .eeWrite | .eeRdsr | .rtcRdCtrl | .rtcWrCtrl | .rtcRdTime | .rtcWrTime | .bpFrame _
  | .ioxRead | .ioxWrite | .adcReset | .adcStart | .adcRdata | .adcRreg | .adcWreg | .adcWmode
  | .dacBufA | .dacBufB => true

end Sys2Proof

namespace Sys2Proof.Machine

/-- Of one IO expander: the array has its fixed size (R34), and at most one of `cv`, `cc` is true (R254 to R256). -/
abbrev IoExp.Inv (cfg : Cfg) (x : IoExp) : Prop := x.regs.length = cfg.ioxNregs ∧ ¬(x.cv = true ∧ x.cc = true)

/-- A held set-point: 0 until the first commit, then within `ADC_MIN..ADC_MAX` (R39). -/
abbrev setPointOk (cfg : Cfg) (v : Word) : Prop := v = 0 ∨ (cfg.adcMin ≤ v.toNat ∧ v.toNat ≤ cfg.adcMax)

/-- Of one ADC: the array has its fixed size (R38), the set-points are in range (R39), and no tick is in progress
(R40). -/
abbrev Adc.Inv (cfg : Cfg) (x : Adc) : Prop :=
  x.regs.length = cfg.adcNregs ∧ setPointOk cfg x.uSet ∧ setPointOk cfg x.iSet ∧ x.depth = 0

/-- Of the backplane: while the low byte is expected, the low half of the shift register is zero (R202). -/
abbrev Backplane.Inv (x : Backplane) : Prop := x.ps = .low → lo8 x.shift = 0x00#8

/-- The invariant of the block between operations. -/
abbrev State.Inv (s : State) : Prop :=
  s.cfg.Wf ∧ Memory.wf s.cfg.eeImage ∧ Memory.wf s.ee.store ∧ s.bp.Inv ∧
  (s.io.get .one).Inv s.cfg ∧ (s.io.get .two).Inv s.cfg ∧
  (s.adc.get .one).Inv s.cfg ∧ (s.adc.get .two).Inv s.cfg

/-- A step that is not refused. -/
abbrev State.Safe (s : State) : Prop := ∃ t, step s = .next t

/-- No handler will do anything at any coming activation: the simplest admitted subset of R285. -/
abbrev State.handlersEmpty (s : State) : Prop := s.scripts = ⟨[], []⟩

/-- Both the decoded command and its byte on the bus take `s` to `t`. -/
abbrev RunsAs (i : Instr) (b : Byte) (s t : State) : Prop := exec i s = .next t ∧ exec (.xfer b) s = .next t

/-- A new construction: the configuration of the run before, with what it left in non-volatile storage as the images
(R58, R300, R302; log entry 19). The inputs of R52 to R55 are no state of the block, and the spec does not say what they
hold in the second run: DESIGN CHOICE, `env.now` is 0 again and every channel input false or 0, as in `State.reset`; the
model's own fields start afresh too (log entry 24). -/
def State.restart (s : State) : State :=
  State.resetWith { s.cfg with eeImage := s.ee.store, rtcOffsetImage := s.rtc.offset }

end Sys2Proof.Machine
end

