-- ==== Sys2Proof/Certificates/Slice0/Obligations.lean ====
section
/-! DEFINITION. What is claimed of the model, for the provers. Each statement names the rule of spec/ it formalises, or
says that it is derived. Results are written as whole states, so each is also its instruction's frame: what the
equation does not change is unchanged, every byte of the store included. -/

open Sys2Proof Sys2Proof.Machine

/-! ### Encoding and stepping -/

/-- The words of 95_test_vectors.md 2.1 and the command bytes of R110 decode to what they stand for. -/
def Obligations.SpecWordsDecode : Prop :=
  decodeStimulus 0x1000#16 = .ok (.cs 0 .low) ∧ decodeStimulus 0x1001#16 = .ok (.cs 0 .high) ∧
  decodeStimulus 0x1101#16 = .ok (.cs 1 .high) ∧ decodeStimulus 0x1800#16 = .ok (.cs 8 .low) ∧
  decodeStimulus 0x20A5#16 = .ok (.xfer 0xA5#8) ∧ decodeStimulus 0x3000#16 = .ok (.tick .one) ∧
  decodeStimulus 0x3100#16 = .ok (.tick .two) ∧ decodeStimulus 0x1900#16 = .error .noSuchLine ∧
  decodeStimulus 0x1002#16 = .error .fixedBitSet ∧ decodeStimulus 0x2100#16 = .error .fixedBitSet ∧
  decodeStimulus 0x3200#16 = .error .fixedBitSet ∧ decodeStimulus 0x0000#16 = .error .unknownKind ∧
  decodeStimulus 0x4000#16 = .error .unknownKind ∧ decodeStimulus 0xFFFF#16 = .error .unknownKind ∧
  decodeCommand defaultCfg .eeprom 0x03#8 = some .eeRead ∧ decodeCommand defaultCfg .rtc 0x92#8 = some .rtcRdTime ∧
  decodeCommand defaultCfg .bp 0xA5#8 = some (.bpFrame 0xA5#8) ∧
  decodeCommand defaultCfg .ioexp 0x40#8 = some .ioxWrite ∧ decodeCommand defaultCfg .adc 0x40#8 = some .adcWmode ∧
  decodeCommand defaultCfg .rtc 0x10#8 = some .rtcWrCtrl ∧ decodeCommand defaultCfg .adc 0x10#8 = some .adcRdata ∧
  decodeCommand defaultCfg .dac 0x10#8 = some .dacBufA

/-- R113: a word is a stimulus exactly when it has one of the three layouts, read here off its number, and it then reads
as that operation; a word that is none is refused by the step that meets it. -/
def Obligations.StimulusWordsReadExactly : Prop :=
  (∀ (w : Word) (i : Instr), decodeStimulus w = .ok i ↔
    (∃ (line : BitVec 4) (level : Level), line.toNat < 9 ∧ i = .cs line level ∧
      w.toNat = 0x1000 + 256 * line.toNat + (if level = .high then 1 else 0)) ∨
    (∃ b : Byte, i = .xfer b ∧ w.toNat = 0x2000 + b.toNat) ∨
    (∃ k : Chan, i = .tick k ∧ w.toNat = 0x3000 + (if k = .two then 256 else 0))) ∧
  ∀ (s : State) (w : Word) (rest : List Input) (why : Reject), s.inputs = .word w :: rest →
    decodeStimulus w = .error why → step s = .refused (.badStimulus why)

/-- Decoding undoes encoding, for every well-formed instruction under every legal parameter record. -/
def Obligations.EncodedInstructionDecodesBack : Prop :=
  ∀ (c : Cfg) (i : Instr), c.Wf → i.wf = true → decodeEncoded c (encode c i) = .ok i

/-- On a bus where the instruction's protocol is listening (or none, for an operation on the pins), the stimulus word an
instruction travels in is read as that instruction (R101, R110). -/
def Obligations.InstructionWordIsReadBackOnTheBus : Prop :=
  ∀ (c : Cfg) (i : Instr), c.Wf → i.wf = true →
    decodeOnBus c (encode c i).listener (encodeWord c i) = .ok i

/-- A command is the exchange of its byte, in every state: where its chip is listening by R101, R134 and the command's
own rule; elsewhere by the model's reading of a command constructor (log entry 5). -/
def Obligations.CommandByteIsItsExchange : Prop :=
  ∀ (s : State) (i : Instr) (kind : ChipKind) (b : Byte), s.cfg.Wf → encode s.cfg i = .command kind b →
    exec i s = exec (.xfer b) s

/-- R111, and with it R159, R185, R219, R244, R274: an unknown command byte changes nothing, so that the next byte is
read as a command again, and returns 0x00; and how many such bytes each protocol has at the defaults. -/
def Obligations.UnknownCommandByteChangesNothing : Prop :=
  (∀ (s : State) (kind : ChipKind) (b : Byte), s.listening = some kind → decodeCommand s.cfg kind b = none →
    exec (.xfer b) s = .next { s with trace := .ret 0x00#8 :: s.trace }) ∧
  (∀ kind : ChipKind,
    ((List.range 256).filter (fun n => (decodeCommand defaultCfg kind (BitVec.ofNat 8 n)).isNone)).length =
      match kind with
      | .eeprom => 253
      | .rtc => 252
      | .bp => 0
      | .ioexp => 254
      | .adc => 250
      | .dac => 254)

/-- A step takes the first word at the pins and runs the instruction it reads there. -/
def Obligations.StepRunsTheDecodedInstruction : Prop :=
  ∀ (s : State) (w : Word) (rest : List Input) (i : Instr), s.inputs = .word w :: rest →
    decodeOnBus s.cfg s.listening w = .ok i → step s = exec i { s with inputs := rest }

/-- R53, R54, R55 and R52: an environment change sets the named inputs and nothing else, and the time moves by a
natural number; with nothing at the pins the block does nothing. A handler is registered as its coming activations
(log entry 3). -/
def Obligations.StepTakesInputsOfTheEnvironment : Prop :=
  (∀ s : State, s.inputs = [] → step s = .next s) ∧
  (∀ (s : State) (rest : List Input) (k : Chan) (v : Bool), s.inputs = .env (.pwrgood k v) :: rest →
    step s = .next { s with inputs := rest, io := s.io.set k { s.io.get k with pwrgood := v } }) ∧
  (∀ (s : State) (rest : List Input) (k : Chan) (v : Bool), s.inputs = .env (.rpol k v) :: rest →
    step s = .next { s with inputs := rest, io := s.io.set k { s.io.get k with rpol := v } }) ∧
  (∀ (s : State) (rest : List Input) (d : Nat), s.inputs = .env (.advance d) :: rest →
    step s = .next { s with inputs := rest, env := { s.env with now := s.env.now + d } }) ∧
  (∀ (s : State) (rest : List Input) (k : Chan) (v : Bool), s.inputs = .env (.outEn k v) :: rest →
    step s = .next { s with inputs := rest, env := { s.env with
      ch := s.env.ch.set k { s.env.ch.get k with outEn := v } } }) ∧
  (∀ (s : State) (rest : List Input) (k : Chan) (v : Bool) (r : Rat), s.inputs = .env (.load k v r) :: rest →
    step s = .next { s with inputs := rest, env := { s.env with
      ch := s.env.ch.set k { s.env.ch.get k with loadEn := v, loadR := r } } }) ∧
  (∀ (s : State) (rest : List Input) (k : Chan) (v : Bool) (r : Rat), s.inputs = .env (.rprog k v r) :: rest →
    step s = .next { s with inputs := rest, env := { s.env with
      ch := s.env.ch.set k { s.env.ch.get k with rprog := v, vProgExt := r } } }) ∧
  (∀ (s : State) (rest : List Input) (k : Chan) (l : List (List HandlerOp)), s.inputs = .handler k l :: rest →
    step s = .next { s with inputs := rest, scripts := s.scripts.set k l })

/-! ### The arbiter -/

/-- R71: the nine lines in the order of the source, and a `CS` on any other line refused. -/
def Obligations.NineLinesNameTheNineChips : Prop :=
  Chip.ofLine 0 = some .eeprom ∧ Chip.ofLine 1 = some .rtc ∧ Chip.ofLine 2 = some .bp ∧
  Chip.ofLine 3 = some (.ioexp .one) ∧ Chip.ofLine 4 = some (.ioexp .two) ∧ Chip.ofLine 5 = some (.adc .one) ∧
  Chip.ofLine 6 = some (.adc .two) ∧ Chip.ofLine 7 = some (.dac .one) ∧ Chip.ofLine 8 = some (.dac .two) ∧
  ∀ (s : State) (line : BitVec 4) (level : Level), 9 ≤ line.toNat → exec (.cs line level) s = .refused .noSuchLine

/-- R132 and R138: the active level on a line selects its chip, whatever was selected before, and runs its `select()`,
which writes the protocol cursor and nothing else. -/
def Obligations.ActiveLevelSelectsTheChip : Prop :=
  ∀ (s : State) (line : BitVec 4) (c : Chip) (level : Level), Chip.ofLine line = some c →
    level = s.cfg.csActive.get c →
    exec (.cs line level) s = .next
      (match c with
        | .eeprom => { s with sel := some c, ee := { s.ee with ps := .idle, index := 0 } }
        | .rtc => { s with sel := some c, rtc := { s.rtc with ps := .idle } }
        | .bp => { s with sel := some c, bp := { s.bp with ps := .high } }
        | .ioexp k => { s with sel := some c, io := s.io.set k { s.io.get k with ps := .idle } }
        | .adc k => { s with sel := some c, adc := s.adc.set k { s.adc.get k with ps := .idle } }
        | .dac k => { s with sel := some c, dac := s.dac.set k { s.dac.get k with ps := .idle } })

/-- R133: the other level clears the selection if the line's chip is the selected one, and does nothing else; the chip
itself gets no call. -/
def Obligations.OtherLevelDeselectsTheChip : Prop :=
  ∀ (s : State) (line : BitVec 4) (c : Chip) (level : Level), Chip.ofLine line = some c →
    level ≠ s.cfg.csActive.get c →
    exec (.cs line level) s = .next { s with sel := if s.sel = some c then none else s.sel }

/-- R135: with no chip selected an exchange returns 0 and changes no chip. -/
def Obligations.UnselectedExchangeReturnsZero : Prop :=
  ∀ (s : State) (b : Byte), s.sel = none →
    exec (.xfer b) s = .next { s with trace := .ret 0x00#8 :: s.trace }

/-- R280 for the operations: `CS` with a line in range, `XFER` and `TICK` have a next state in every state, and `CS` with
any other line is refused (R71). The eighteen command constructors have one too: where a chip of the protocol is
listening by R101 and their own rules, elsewhere by the model's reading of them (log entry 5). -/
def Obligations.OperationsAreTotal : Prop :=
  (∀ (i : Instr) (s : State), i.wf = true → ∃ t, exec i s = .next t) ∧
  (∀ (i : Instr) (s : State), i.wf = false → exec i s = .refused .noSuchLine)

/-- The newest output of an exchange is the byte it returns, and the trace only grows (R134). Outputs come before it in a
commit alone (R251, R285), and with no handler at work none of them is a byte. Configuration and pending inputs stay. -/
def Obligations.ExchangeReturnsItsByteLast : Prop :=
  ∀ (s t : State) (b : Byte), exec (.xfer b) s = .next t →
    (∃ (r : Byte) (nested : List Output), t.trace = .ret r :: (nested ++ s.trace) ∧
      ((∀ k, s.sel = some (.dac k) → (s.dac.get k).ps ≠ .lsb) → nested = []) ∧
      (s.handlersEmpty → ∀ c : Byte, .ret c ∉ nested)) ∧
    t.cfg = s.cfg ∧ t.inputs = s.inputs

/-- The byte goes to the selected chip alone: no other chip's state changes, but for the two mode flags of the paired
expander in an ADC exchange (R20, R134). The DAC's commit, which crosses to the paired ADC, has its own statement. -/
def Obligations.ExchangeTouchesOnlyTheSelectedChip : Prop :=
  ∀ (s t : State) (b : Byte) (c : Chip), s.sel = some c → (∀ k, c ≠ .dac k) → exec (.xfer b) s = .next t →
    t.sel = s.sel ∧ t.cfg = s.cfg ∧ t.dac = s.dac ∧ t.env = s.env ∧ t.inputs = s.inputs ∧ t.scripts = s.scripts ∧
    (∃ r : Byte, t.trace = .ret r :: s.trace) ∧
    (c ≠ .eeprom → t.ee = s.ee) ∧ (c ≠ .rtc → t.rtc = s.rtc) ∧ (c ≠ .bp → t.bp = s.bp) ∧
    (∀ k, c ≠ .adc k → t.adc.get k = s.adc.get k) ∧
    (∀ k, c ≠ .ioexp k → c ≠ .adc k → t.io.get k = s.io.get k) ∧
    (∀ k, c = .adc k → ∃ cv cc, t.io.get k = { s.io.get k with cv := cv, cc := cc })

/-! ### EEPROM -/

/-- R152, R156, R158: the three commands of a selected EEPROM in `Idle`, and the status byte for ever after RDSR. -/
def Obligations.EepromCommandsTakeEffect : Prop :=
  (∀ s : State, s.cfg.Wf → s.sel = some .eeprom → s.ee.ps = .idle →
    RunsAs .eeRead s.cfg.eeCmdRead s
      { s with ee := { s.ee with ps := .readAddrHigh }, trace := .ret 0x00#8 :: s.trace } ∧
    RunsAs .eeWrite s.cfg.eeCmdWrite s
      { s with ee := { s.ee with ps := .writeAddrHigh }, trace := .ret 0x00#8 :: s.trace } ∧
    RunsAs .eeRdsr s.cfg.eeCmdRdsr s
      { s with ee := { s.ee with ps := .readStatus }, trace := .ret 0x00#8 :: s.trace }) ∧
  (∀ (s : State) (b : Byte), s.sel = some .eeprom → s.ee.ps = .readStatus →
    exec (.xfer b) s = .next { s with trace := .ret s.cfg.eeStatusValue :: s.trace })

/-- R153, R154: the address travels high byte first; the high byte clears the low half, the low byte resets the cursor. -/
def Obligations.EepromAddressIsAssembledBigEndian : Prop :=
  ∀ (s : State) (b : Byte), s.sel = some .eeprom →
    (∀ p q, (p, q) ∈ [(EePs.readAddrHigh, EePs.readAddrLow), (.writeAddrHigh, .writeAddrLow)] → s.ee.ps = p →
      ∃ a : Word, a.toNat = b.toNat * 256 ∧
        exec (.xfer b) s = .next
          { s with ee := { s.ee with ps := q, address := a }, trace := .ret 0x00#8 :: s.trace }) ∧
    (∀ p q, (p, q) ∈ [(EePs.readAddrLow, EePs.read), (.writeAddrLow, .write)] → s.ee.ps = p →
      ∃ a : Word, a.toNat = s.ee.address.toNat / 256 * 256 + b.toNat ∧
        exec (.xfer b) s = .next
          { s with ee := { s.ee with ps := q, address := a, index := 0 }, trace := .ret 0x00#8 :: s.trace })

/-- R155 with R74, R160: a read data byte returns the cell at `address + index` (not reduced mod 65536), or 0x00 from an
unbacked store, and only the cursor moves, mod 64. -/
def Obligations.EepromReadByteReturnsTheCell : Prop :=
  ∀ (s : State) (b : Byte), s.sel = some .eeprom → s.ee.ps = .read →
    ∃ j : Fin 64, j.val = (s.ee.index.val + 1) % 64 ∧
      exec (.xfer b) s = .next
        { s with
          ee := { s.ee with index := j }
          trace := .ret (if s.cfg.eeBacked then Memory.read s.ee.store (s.ee.address.toNat + s.ee.index.val)
            else 0x00#8) :: s.trace }

/-- R157 with R75, R160: a write data byte lands in the cell at `address + index`; every other cell reads as before; an
unbacked store does not change at all; the cursor moves mod 64. -/
def Obligations.EepromWriteByteStoresOneCell : Prop :=
  ∀ (s : State) (b : Byte), s.sel = some .eeprom → s.ee.ps = .write →
    ∃ (j : Fin 64) (m : Memory), j.val = (s.ee.index.val + 1) % 64 ∧
      exec (.xfer b) s = .next
        { s with ee := { s.ee with index := j, store := m }, trace := .ret 0x00#8 :: s.trace } ∧
      (s.cfg.eeBacked = true → m.read (s.ee.address.toNat + s.ee.index.val) = b) ∧
      (∀ a : Nat, a ≠ s.ee.address.toNat + s.ee.index.val → m.read a = Memory.read s.ee.store a) ∧
      (s.cfg.eeBacked = false → m = s.ee.store)

/-- Derived from R78, R157, R161(b): however many data bytes a WRITE frame carries, the address stays, the cursor has
counted them mod 64, and no cell outside the 64 that start at the address has changed. -/
def Obligations.EepromFrameStaysInItsWindow : Prop :=
  ∀ (bytes : List Byte) (s : State), s.sel = some .eeprom → s.ee.ps = .write →
    ∃ t : State, bytes.foldl (fun u b => xfer b u) s = t ∧ t.sel = some .eeprom ∧ t.ee.ps = .write ∧
      t.ee.address = s.ee.address ∧ t.ee.index.val = (s.ee.index.val + bytes.length) % 64 ∧
      ∀ a : Nat, (a < s.ee.address.toNat ∨ s.ee.address.toNat + 63 < a) →
        Memory.read t.ee.store a = Memory.read s.ee.store a

/-- R161(a), the source's own property: at most 64 bytes written by one frame are what a read frame at the same address
then returns, byte for byte. The frames are those of R115, waiting at the pins of any state. -/
def Obligations.EepromReadsBackWhatAFrameWrote : Prop :=
  ∀ (s : State) (a : Word) (bytes : List Byte), s.cfg.Wf → s.cfg.eeBacked = true → bytes.length ≤ 64 →
    s.inputs = eeWr s.cfg a bytes ++ eeRd s.cfg a bytes.length →
    ∃ t : State, Host.Core.run Sys2Proof.core s.inputs.length s = .next t ∧ t.inputs = [] ∧
      t.trace = (bytes.map Output.ret).reverse ++ List.replicate (bytes.length + 6) (Output.ret 0x00#8) ++ s.trace

/-- Derived from the store's canonical form: stores that read alike everywhere are equal, so a claim about what is
stored is a claim about reads. -/
def Obligations.StoresThatReadAlikeAreEqual : Prop :=
  ∀ m n : Memory, m.wf → n.wf → (∀ a : Nat, m.read a = n.read a) → m = n

/-! ### RTC -/

/-- R177 and R178: the control exchange, command and two data bytes each way. -/
def Obligations.RtcControlRegistersExchange : Prop :=
  (∀ s : State, s.cfg.Wf → s.sel = some .rtc → s.rtc.ps = .idle →
    RunsAs .rtcRdCtrl s.cfg.rtcCmdRdCtrl s
      { s with rtc := { s.rtc with ps := .rdCtrl1 }, trace := .ret 0x00#8 :: s.trace } ∧
    RunsAs .rtcWrCtrl s.cfg.rtcCmdWrCtrl s
      { s with rtc := { s.rtc with ps := .wrCtrl1 }, trace := .ret 0x00#8 :: s.trace }) ∧
  (∀ (s : State) (b : Byte), s.sel = some .rtc →
    (s.rtc.ps = .rdCtrl1 → exec (.xfer b) s = .next
      { s with rtc := { s.rtc with ps := .rdCtrl2 }, trace := .ret s.rtc.ctrl1 :: s.trace }) ∧
    (s.rtc.ps = .rdCtrl2 → exec (.xfer b) s = .next
      { s with rtc := { s.rtc with ps := .idle }, trace := .ret s.rtc.ctrl2 :: s.trace }) ∧
    (s.rtc.ps = .wrCtrl1 → exec (.xfer b) s = .next
      { s with rtc := { s.rtc with ps := .wrCtrl2, ctrl1 := b }, trace := .ret 0x00#8 :: s.trace }) ∧
    (s.rtc.ps = .wrCtrl2 → exec (.xfer b) s = .next
      { s with rtc := { s.rtc with ps := .idle, ctrl2 := b }, trace := .ret 0x00#8 :: s.trace }))

/-- R179 and R180: the time-read command, and the seven bytes of the chain, each derived from the present time at its
own exchange; a year outside 2000..2099 returns some byte, and nothing is claimed of which. -/
def Obligations.RtcReadChainReturnsThePresentTime : Prop :=
  (∀ s : State, s.cfg.Wf → s.sel = some .rtc → s.rtc.ps = .idle →
    RunsAs .rtcRdTime s.cfg.rtcCmdRdTime s
      { s with rtc := { s.rtc with ps := .rdSeconds }, trace := .ret 0x00#8 :: s.trace }) ∧
  (∀ (s : State) (b : Byte) (T : Civil), s.sel = some .rtc → T = breakTime (s.rtc.offset + s.env.now) →
    (∀ p v q, (p, v, q) ∈
        [(RtcPs.rdSeconds, T.second, RtcPs.rdMinutes), (.rdMinutes, T.minute, .rdHours), (.rdHours, T.hour, .rdDays),
          (.rdDays, T.day, .rdWeekdays), (.rdWeekdays, T.weekday, .rdMonths), (.rdMonths, T.month, .rdYears)] →
      s.rtc.ps = p →
      exec (.xfer b) s = .next { s with rtc := { s.rtc with ps := q }, trace := .ret (toBcd v) :: s.trace }) ∧
    (s.rtc.ps = .rdYears → 2000 ≤ T.year → T.year ≤ 2099 →
      exec (.xfer b) s = .next
        { s with rtc := { s.rtc with ps := .idle }, trace := .ret (toBcd (T.year - 2000)) :: s.trace }) ∧
    (s.rtc.ps = .rdYears → (T.year < 2000 ∨ 2099 < T.year) →
      ∃ r : Byte, exec (.xfer b) s = .next
        { s with rtc := { s.rtc with ps := .idle }, trace := .ret r :: s.trace, draws := s.draws + 1 }))

/-- R181, R182 and R183: the time-write command, and each byte of the chain: a BCD value that gives a valid record moves
the offset so that this record is the present time; the weekday byte moves the chain only. -/
def Obligations.RtcWriteChainSetsOneFieldAtATime : Prop :=
  (∀ s : State, s.cfg.Wf → s.sel = some .rtc → s.rtc.ps = .idle →
    RunsAs .rtcWrTime s.cfg.rtcCmdWrTime s
      { s with rtc := { s.rtc with ps := .wrSeconds }, trace := .ret 0x00#8 :: s.trace }) ∧
  (∀ (s : State) (b : Byte) (T : Civil), s.sel = some .rtc → T = breakTime (s.rtc.offset + s.env.now) →
    bcdOk b = true →
    ∀ p T' q, (p, T', q) ∈
        [(RtcPs.wrSeconds, { T with second := fromBcd b }, RtcPs.wrMinutes),
          (.wrMinutes, { T with minute := fromBcd b }, .wrHours), (.wrHours, { T with hour := fromBcd b }, .wrDays),
          (.wrDays, { T with day := fromBcd b }, .wrWeekdays), (.wrMonths, { T with month := fromBcd b }, .wrYears),
          (.wrYears, { T with year := 2000 + fromBcd b }, .idle)] →
      s.rtc.ps = p → T'.valid = true →
      exec (.xfer b) s = .next
        { s with
          rtc := { s.rtc with ps := q, offset := makeTime T' - s.env.now }
          trace := .ret 0x00#8 :: s.trace }) ∧
  (∀ (s : State) (b : Byte), s.sel = some .rtc → s.rtc.ps = .wrWeekdays →
    exec (.xfer b) s = .next { s with rtc := { s.rtc with ps := .wrMonths }, trace := .ret 0x00#8 :: s.trace })

/-- From R184: a byte that is not BCD, or a value that makes the record invalid, leaves some offset, nothing being
claimed of which; the chain advances as for a valid byte and nothing stops. -/
def Obligations.RtcInvalidWriteLeavesSomeOffset : Prop :=
  ∀ (s : State) (b : Byte) (T : Civil), s.sel = some .rtc → T = breakTime (s.rtc.offset + s.env.now) →
    ∀ p T' q, (p, T', q) ∈
        [(RtcPs.wrSeconds, { T with second := fromBcd b }, RtcPs.wrMinutes),
          (.wrMinutes, { T with minute := fromBcd b }, .wrHours), (.wrHours, { T with hour := fromBcd b }, .wrDays),
          (.wrDays, { T with day := fromBcd b }, .wrWeekdays), (.wrMonths, { T with month := fromBcd b }, .wrYears),
          (.wrYears, { T with year := 2000 + fromBcd b }, .idle)] →
      s.rtc.ps = p → (bcdOk b = false ∨ T'.valid = false) →
      ∃ x : Int, exec (.xfer b) s = .next
        { s with
          rtc := { s.rtc with ps := q, offset := x }
          trace := .ret 0x00#8 :: s.trace
          draws := s.draws + 1 }

/-- R171 and R172: the two BCD conversions are inverse to each other on 0..99 and on the bytes of two decimal digits. -/
def Obligations.BcdConversionsAreInverse : Prop :=
  (∀ v : Int, 0 ≤ v → v ≤ 99 →
    bcdOk (toBcd v) = true ∧ fromBcd (toBcd v) = v ∧ ((toBcd v).toNat : Int) = v / 10 * 16 + v % 10) ∧
  (∀ b : Byte, bcdOk b = true ↔ b.toNat / 16 ≤ 9 ∧ b.toNat % 16 ≤ 9) ∧
  (∀ b : Byte, bcdOk b = true →
    fromBcd b = (b.toNat / 16 : Nat) * 10 + (b.toNat % 16 : Nat) ∧ toBcd (fromBcd b) = b)

/-- From R174, every instant breaks into a valid record, and by R175 `make_time` of a valid record is the one instant that
breaks into it, in its first six fields. -/
def Obligations.CalendarBreaksAndMakesTheSameInstants : Prop :=
  (∀ t : Int, (breakTime t).valid = true) ∧
  (∀ (t : Int) (r : Civil), r.valid = true →
    ((breakTime t = { r with weekday := (breakTime t).weekday }) ↔ t = makeTime r))

/-- R186: after a valid second is written, at the same host time, the seconds read back as written and the six other
fields as before; and after a valid write of any writable field, the six fields are those of the substituted record. -/
def Obligations.RtcFieldReadsBackAsWritten : Prop :=
  (∀ (s : State) (b : Byte), s.sel = some .rtc → s.rtc.ps = .wrSeconds → bcdOk b = true → fromBcd b ≤ 59 →
    ∃ t : State, exec (.xfer b) s = .next t ∧ t.env = s.env ∧
      breakTime (t.rtc.offset + t.env.now) =
        { breakTime (s.rtc.offset + s.env.now) with second := fromBcd b } ∧
      toBcd (breakTime (t.rtc.offset + t.env.now)).second = b) ∧
  (∀ (s : State) (b : Byte) (T : Civil), s.sel = some .rtc → T = breakTime (s.rtc.offset + s.env.now) →
    bcdOk b = true →
    ∀ p T', (p, T') ∈
        [(RtcPs.wrSeconds, { T with second := fromBcd b }), (.wrMinutes, { T with minute := fromBcd b }),
          (.wrHours, { T with hour := fromBcd b }), (.wrDays, { T with day := fromBcd b }),
          (.wrMonths, { T with month := fromBcd b }), (.wrYears, { T with year := 2000 + fromBcd b })] →
      s.rtc.ps = p → T'.valid = true →
      ∃ t : State, exec (.xfer b) s = .next t ∧ t.env = s.env ∧
        breakTime (t.rtc.offset + t.env.now) =
          { T' with weekday := (breakTime (t.rtc.offset + t.env.now)).weekday })

/-! ### Backplane -/

/-- R201, R202 and R203: the high byte fills the shift register, the low byte is ORed in and committed at once, further
bytes are ignored. -/
def Obligations.BackplaneCommitsOnTheSecondByte : Prop :=
  ∀ (s : State) (b : Byte), s.sel = some .bp →
    (s.bp.ps = .high → ∃ v : Word, v.toNat = b.toNat * 256 ∧
      RunsAs (.bpFrame b) b s { s with bp := { s.bp with ps := .low, shift := v }, trace := .ret 0x00#8 :: s.trace }) ∧
    (s.bp.ps = .low → ∃ v : Word, v = s.bp.shift ||| b.setWidth 16 ∧
      exec (.xfer b) s = .next
        { s with bp := { ps := .done, shift := v, display := v }, trace := .ret 0x00#8 :: s.trace }) ∧
    (s.bp.ps = .done → exec (.xfer b) s = .next { s with trace := .ret 0x00#8 :: s.trace })

/-- Derived from R76, R201, R202: two bytes to a freshly selected backplane display `hi * 256 + lo`, whatever was shifted
in before. -/
def Obligations.BackplaneDisplaysItsTwoBytes : Prop :=
  ∀ (s : State) (hi lo : Byte), s.sel = some .bp → s.bp.ps = .high →
    ∃ t u : State, exec (.xfer hi) s = .next t ∧ t.bp.display = s.bp.display ∧ exec (.xfer lo) t = .next u ∧
      u.bp.display.toNat = hi.toNat * 256 + lo.toNat ∧ u.bp.shift = u.bp.display

/-! ### IO expanders -/

/-- R212 and R215: the two commands and their index bytes. -/
def Obligations.IoExpanderCommandsTakeEffect : Prop :=
  (∀ (s : State) (k : Chan), s.cfg.Wf → s.sel = some (.ioexp k) → (s.io.get k).ps = .idle →
    RunsAs .ioxRead s.cfg.ioxCmdRead s
      { s with io := s.io.set k { s.io.get k with ps := .rdIndex }, trace := .ret 0x00#8 :: s.trace } ∧
    RunsAs .ioxWrite s.cfg.ioxCmdWrite s
      { s with io := s.io.set k { s.io.get k with ps := .wrIndex }, trace := .ret 0x00#8 :: s.trace }) ∧
  (∀ (s : State) (k : Chan) (b : Byte), s.sel = some (.ioexp k) →
    ((s.io.get k).ps = .rdIndex → exec (.xfer b) s = .next
      { s with io := s.io.set k { s.io.get k with ps := .rdData, index := b }, trace := .ret 0x00#8 :: s.trace }) ∧
    ((s.io.get k).ps = .wrIndex → exec (.xfer b) s = .next
      { s with io := s.io.set k { s.io.get k with ps := .wrData, index := b }, trace := .ret 0x00#8 :: s.trace }))

/-- R213 and R217 (reads): a read data byte returns the stored register, the overlaid one at the GPIO index of the
layout, 0x00 beyond the array, and changes nothing; `overlay` has its own statement. -/
def Obligations.IoExpanderReadReturnsTheRegister : Prop :=
  ∀ (s : State) (k : Chan) (b v : Byte), s.sel = some (.ioexp k) → (s.io.get k).ps = .rdData →
    (s.io.get k).regs.length = s.cfg.ioxNregs →
    ((s.cfg.ioxNregs ≤ (s.io.get k).index.toNat ∧ v = 0x00#8) ∨
      (∃ h : (s.io.get k).index.toNat < (s.io.get k).regs.length,
        ((s.io.get k).index = s.cfg.gpioIndex ∧
            v = overlay s.cfg k (s.io.get k) ((s.io.get k).regs[(s.io.get k).index.toNat]'h)) ∨
          ((s.io.get k).index ≠ s.cfg.gpioIndex ∧ v = (s.io.get k).regs[(s.io.get k).index.toNat]'h))) →
    exec (.xfer b) s = .next { s with trace := .ret v :: s.trace }

/-- R214: in the overlaid byte each of the four positions shows its flag, reverse polarity only on a capable channel, and
every other bit is the stored one. -/
def Obligations.OverlayShowsTheFourFlags : Prop :=
  ∀ (cfg : Cfg) (k : Chan) (x : IoExp) (v : Byte), cfg.Wf →
    (overlay cfg k x v).getLsbD cfg.ioxBitPwrgood.val = x.pwrgood ∧
    (overlay cfg k x v).getLsbD cfg.ioxBitRpol.val =
      (if cfg.rpolCapable.get k then x.rpol else v.getLsbD cfg.ioxBitRpol.val) ∧
    (overlay cfg k x v).getLsbD cfg.ioxBitCv.val = x.cv ∧
    (overlay cfg k x v).getLsbD cfg.ioxBitCc.val = x.cc ∧
    ∀ p : Fin 8, p ∉ [cfg.ioxBitPwrgood, cfg.ioxBitRpol, cfg.ioxBitCv, cfg.ioxBitCc] →
      (overlay cfg k x v).getLsbD p.val = v.getLsbD p.val

/-- R216 and R217 (writes): a write data byte goes to the stored register at the index, to none beyond the array; index,
protocol state and the transient flags stay. -/
def Obligations.IoExpanderWriteStoresTheRegister : Prop :=
  ∀ (s : State) (k : Chan) (b : Byte), s.sel = some (.ioexp k) → (s.io.get k).ps = .wrData →
    exec (.xfer b) s = .next
      { s with
        io := s.io.set k { s.io.get k with
          regs := if (s.io.get k).index.toNat < s.cfg.ioxNregs
            then (s.io.get k).regs.set (s.io.get k).index.toNat b else (s.io.get k).regs }
        trace := .ret 0x00#8 :: s.trace }

/-- R220, both properties: a byte written to a register by one frame stays in the array bit for bit through a read frame
of the same register, and that read returns it unless the register is the overlaid one. -/
def Obligations.IoExpanderKeepsWhatIsWritten : Prop :=
  ∀ (s : State) (k : Chan) (i v : Byte), s.cfg.Wf → (s.io.get k).regs.length = s.cfg.ioxNregs →
    i.toNat < s.cfg.ioxNregs → s.inputs = ioxWr s.cfg k i v ++ ioxRd s.cfg k i →
    ∃ t : State, Host.Core.run Sys2Proof.core s.inputs.length s = .next t ∧
      (t.io.get k).regs[i.toNat]? = some v ∧
      (i ≠ s.cfg.gpioIndex → t.trace = .ret v :: (List.replicate 5 (.ret 0x00#8) ++ s.trace))

/-! ### ADCs -/

/-- R232, R233, R234, R236, R238, R240: the six commands of a selected ADC in `Idle`. -/
def Obligations.AdcCommandsTakeEffect : Prop :=
  ∀ (s : State) (k : Chan), s.cfg.Wf → s.sel = some (.adc k) → (s.adc.get k).ps = .idle →
    RunsAs .adcReset s.cfg.adcCmdReset s { s with trace := .ret 0x00#8 :: s.trace } ∧
    RunsAs .adcStart s.cfg.adcCmdStart s
      { s with adc := s.adc.set k { s.adc.get k with start := true }, trace := .ret 0x00#8 :: s.trace } ∧
    RunsAs .adcRreg s.cfg.adcCmdRreg s
      { s with
        adc := s.adc.set k { s.adc.get k with ps := .regRead, index := s.cfg.adcBurstStart }
        trace := .ret 0x00#8 :: s.trace } ∧
    RunsAs .adcWreg s.cfg.adcCmdWreg s
      { s with
        adc := s.adc.set k { s.adc.get k with ps := .regWrite, index := s.cfg.adcBurstStart }
        trace := .ret 0x00#8 :: s.trace } ∧
    RunsAs .adcWmode s.cfg.adcCmdWmode s
      { s with adc := s.adc.set k { s.adc.get k with ps := .modeWrite }, trace := .ret 0x00#8 :: s.trace } ∧
    RunsAs .adcRdata s.cfg.adcCmdRdata s
      { s with adc := s.adc.set k { s.adc.get k with ps := .dataMsb }, trace := .ret 0x00#8 :: s.trace }

/-- R235, R237 and R239: the register bursts, whose cursor counts mod 256 and whose accesses beyond the array read 0x00
and are dropped, and the mode byte. -/
def Obligations.AdcRegisterBytesMoveTheCursor : Prop :=
  ∀ (s : State) (k : Chan) (b : Byte), s.cfg.Wf → s.sel = some (.adc k) →
    (s.adc.get k).regs.length = s.cfg.adcNregs →
    ((s.adc.get k).ps = .regRead → ∃ j : Byte, j.toNat = ((s.adc.get k).index.toNat + 1) % 256 ∧
      exec (.xfer b) s = .next
        { s with
          adc := s.adc.set k { s.adc.get k with index := j }
          trace := .ret ((s.adc.get k).regs[(s.adc.get k).index.toNat]?.getD 0x00#8) :: s.trace }) ∧
    ((s.adc.get k).ps = .regWrite → ∃ j : Byte, j.toNat = ((s.adc.get k).index.toNat + 1) % 256 ∧
      exec (.xfer b) s = .next
        { s with
          adc := s.adc.set k { s.adc.get k with
            index := j
            regs := if (s.adc.get k).index.toNat < s.cfg.adcNregs
              then (s.adc.get k).regs.set (s.adc.get k).index.toNat b else (s.adc.get k).regs }
          trace := .ret 0x00#8 :: s.trace }) ∧
    ((s.adc.get k).ps = .modeWrite → ∃ regs : List Byte, regs[0]? = some b ∧
      regs.length = (s.adc.get k).regs.length ∧ (∀ n, regs[n + 1]? = (s.adc.get k).regs[n + 1]?) ∧
      exec (.xfer b) s = .next
        { s with adc := s.adc.set k { s.adc.get k with ps := .idle, regs := regs }, trace := .ret 0x00#8 :: s.trace })

/-- R241, R242 and R243: each result byte is of the quantity the mode register selects when it is read; a measured one is
computed by the electrical model then, and an unknown mode value reads 0. -/
def Obligations.AdcResultBytesFollowTheModeRegister : Prop :=
  ∀ (s u : State) (k : Chan) (b m : Byte) (q : Word), s.cfg.Wf → s.sel = some (.adc k) →
    (s.adc.get k).regs[0]? = some m →
    ((m = s.cfg.adcModeUMon ∧ u = updateValues k s ∧ q = (u.adc.get k).uMon) ∨
      (m = s.cfg.adcModeIMon ∧ u = updateValues k s ∧ q = (u.adc.get k).iMon) ∨
      (m = s.cfg.adcModeUSet ∧ u = s ∧ q = (s.adc.get k).uSet) ∨
      (m = s.cfg.adcModeISet ∧ u = s ∧ q = (s.adc.get k).iSet) ∨
      (m ∉ [s.cfg.adcModeUMon, s.cfg.adcModeIMon, s.cfg.adcModeUSet, s.cfg.adcModeISet] ∧ u = s ∧ q = 0x0000#16)) →
    ((s.adc.get k).ps = .dataMsb → ∃ r : Byte, r.toNat = q.toNat / 256 ∧
      exec (.xfer b) s = .next
        { u with adc := u.adc.set k { u.adc.get k with ps := .dataLsb }, trace := .ret r :: s.trace }) ∧
    ((s.adc.get k).ps = .dataLsb → ∃ r : Byte, r.toNat = q.toNat % 256 ∧
      exec (.xfer b) s = .next
        { u with adc := u.adc.set k { u.adc.get k with ps := .idle }, trace := .ret r :: s.trace })

/-- R254 and R259: the electrical model with a load, for every calibration record: constant voltage when current times
resistance exceeds the commanded voltage, else constant current; at zero resistance the constant-voltage current is
some code, and nothing is claimed of which. -/
def Obligations.LoadedChannelClampsVoltageOrCurrent : Prop :=
  ∀ (s : State) (k : Chan) (U I R : Rat), (s.env.ch.get k).loadEn = true →
    U = (if (s.env.ch.get k).rprog then progToVolts (s.cfg.cal.get k) (s.env.ch.get k).vProgExt
      else codeToVolts s.cfg (s.cfg.cal.get k) (s.adc.get k).uSet) →
    I = codeToAmps s.cfg (s.cfg.cal.get k) (s.adc.get k).iSet → R = (s.env.ch.get k).loadR →
    (I * R > U → R ≠ 0 → updateValues k s =
      { s with
        io := s.io.set k { s.io.get k with cv := true, cc := false }
        adc := s.adc.set k { s.adc.get k with
          uMon := voltsToCode s.cfg (s.cfg.cal.get k) U
          iMon := ampsToCode s.cfg (s.cfg.cal.get k) (U / R) } }) ∧
    (I * R > U → R = 0 → ∃ x : Word, updateValues k s =
      { s with
        io := s.io.set k { s.io.get k with cv := true, cc := false }
        adc := s.adc.set k { s.adc.get k with uMon := voltsToCode s.cfg (s.cfg.cal.get k) U, iMon := x }
        draws := s.draws + 1 }) ∧
    (I * R ≤ U → updateValues k s =
      { s with
        io := s.io.set k { s.io.get k with cv := false, cc := true }
        adc := s.adc.set k { s.adc.get k with
          uMon := voltsToCode s.cfg (s.cfg.cal.get k) (I * R)
          iMon := ampsToCode s.cfg (s.cfg.cal.get k) I } })

/-- R255 and R256: the model with no load, output enabled and disabled. -/
def Obligations.UnloadedChannelShowsItsSetPoint : Prop :=
  ∀ (s : State) (k : Chan), (s.env.ch.get k).loadEn = false →
    ((s.env.ch.get k).outEn = true → updateValues k s =
      { s with
        io := s.io.set k { s.io.get k with
          cv := decide (0 < (s.adc.get k).uSet.toNat ∧ 0 < (s.adc.get k).iSet.toNat)
          cc := false }
        adc := s.adc.set k { s.adc.get k with uMon := (s.adc.get k).uSet, iMon := 0x0000#16 } }) ∧
    ((s.env.ch.get k).outEn = false → updateValues k s =
      { s with
        io := s.io.set k { s.io.get k with cv := false, cc := false }
        adc := s.adc.set k { s.adc.get k with uMon := 0x0000#16, iMon := 0x0000#16 } })

/-- R258: the ten conversions of the two calibration records the spec gives, the default one over its ranges at the
default code range and `Cal_T1`. -/
def Obligations.CalibrationFormulas : Prop :=
  (∀ c : Word, codeToVolts defaultCfg defaultCal c = (c.toNat : Rat) * 40 / 32767 ∧
    codeToAmps defaultCfg defaultCal c = (c.toNat : Rat) * 5 / 32767 ∧
    codeToVolts defaultCfg calT1 c = (c.toNat : Rat) / 1000 ∧ codeToAmps defaultCfg calT1 c = (c.toNat : Rat) / 1000) ∧
  (∀ x : Rat,
    ((voltsToCode defaultCfg defaultCal x).toNat : Int) = max 0 (min 65535 (x * 32767 / 40).floor) ∧
    ((ampsToCode defaultCfg defaultCal x).toNat : Int) = max 0 (min 65535 (x * 32767 / 5).floor) ∧
    ((voltsToCode defaultCfg calT1 x).toNat : Int) = max 0 (min 65535 (x * 1000).floor) ∧
    ((ampsToCode defaultCfg calT1 x).toNat : Int) = max 0 (min 65535 (x * 1000).floor) ∧
    progToVolts defaultCal x = x * 16 ∧ progToVolts calT1 x = x * 16)

/-- Derived from R254 and R258, at the default calibration: with a load and without remote programming, neither measured
code exceeds its set-point, the regulated one equals it, and exactly one mode flag is true. -/
def Obligations.LoadNeverExceedsTheSetPoints : Prop :=
  ∀ (s : State) (k : Chan), s.cfg.adcMin = 0 → s.cfg.adcMax = 32767 → s.cfg.cal.get k = defaultCal →
    (s.env.ch.get k).loadEn = true → (s.env.ch.get k).rprog = false →
    (s.adc.get k).uSet.toNat ≤ 32767 → (s.adc.get k).iSet.toNat ≤ 32767 →
    ∃ t : State, updateValues k s = t ∧
      (t.adc.get k).uMon.toNat ≤ (s.adc.get k).uSet.toNat ∧ (t.adc.get k).iMon.toNat ≤ (s.adc.get k).iSet.toNat ∧
      ((t.io.get k).cv = true → (t.adc.get k).uMon = (s.adc.get k).uSet) ∧
      ((t.io.get k).cc = true → (t.adc.get k).iMon = (s.adc.get k).iSet) ∧
      (t.io.get k).cv = !(t.io.get k).cc

/-- R252: the remap of a DAC code is the floored linear one, stays in the ADC's range, is monotone, and takes the ends of
one range to the ends of the other. -/
def Obligations.DacCodesRemapIntoTheAdcRange : Prop :=
  ∀ cfg : Cfg, cfg.Wf →
    (∀ c : Word, ((dacToAdc cfg c).toNat : Int) =
      max (cfg.adcMin : Int) (min (cfg.adcMax : Int)
        (⌊(cfg.adcMin : Rat) + ((c.toNat : Rat) - cfg.dacMin) * ((cfg.adcMax : Rat) - cfg.adcMin) /
          ((cfg.dacMax : Rat) - cfg.dacMin)⌋))) ∧
    (∀ c d : Word, c.toNat ≤ d.toNat → (dacToAdc cfg c).toNat ≤ (dacToAdc cfg d).toNat) ∧
    (∀ c : Word, c.toNat = cfg.dacMin → (dacToAdc cfg c).toNat = cfg.adcMin) ∧
    (∀ c : Word, c.toNat = cfg.dacMax → (dacToAdc cfg c).toNat = cfg.adcMax)

/-! ### DACs -/

/-- R271, R276 and R272: the two buffer selections and the high code byte. -/
def Obligations.DacCommandsTakeEffect : Prop :=
  (∀ (s : State) (k : Chan), s.cfg.Wf → s.sel = some (.dac k) → (s.dac.get k).ps = .idle →
    RunsAs .dacBufA s.cfg.dacCmdBufA s
      { s with dac := s.dac.set k { s.dac.get k with ps := .msb, buf := .a }, trace := .ret 0x00#8 :: s.trace } ∧
    RunsAs .dacBufB s.cfg.dacCmdBufB s
      { s with dac := s.dac.set k { s.dac.get k with ps := .msb, buf := .b }, trace := .ret 0x00#8 :: s.trace }) ∧
  (∀ (s : State) (k : Chan) (b : Byte), s.sel = some (.dac k) → (s.dac.get k).ps = .msb →
    exec (.xfer b) s = .next
      { s with dac := s.dac.set k { s.dac.get k with ps := .lsb, msb := b }, trace := .ret 0x00#8 :: s.trace })

/-- R273 with R251: the low code byte returns the DAC to `Idle`, holds the remapped code as the buffer's set-point, runs
the electrical model and then one tick of the paired ADC, all inside the exchange, which returns 0x00. -/
def Obligations.DacCommitRunsTheModelThenTicks : Prop :=
  ∀ (s t : State) (k : Chan) (b : Byte) (code : Word), s.sel = some (.dac k) → (s.dac.get k).ps = .lsb →
    code.toNat = (s.dac.get k).msb.toNat * 256 + b.toNat →
    exec (.tick k)
      (updateValues k
        { s with
          dac := s.dac.set k { s.dac.get k with ps := .idle }
          adc := s.adc.set k
            (match (s.dac.get k).buf with
              | .a => { s.adc.get k with uSet := dacToAdc s.cfg code }
              | .b => { s.adc.get k with iSet := dacToAdc s.cfg code }) }) = .next t →
    exec (.xfer b) s = .next { t with trace := .ret 0x00#8 :: t.trace }

/-! ### Ticks, DRDY and handlers -/

/-- R250 and R283 where no handler is registered: a tick below the bound that finds a start pending clears it and puts
out the event; every other tick, at the bound or with nothing pending, leaves the state exactly as it was. -/
def Obligations.TickDeliversAPendingStartOnce : Prop :=
  ∀ (s : State) (k : Chan), s.scripts.get k = [] →
    exec (.tick k) s = .next
      (if (s.adc.get k).depth.val < 4 ∧ (s.adc.get k).start = true
        then { s with adc := s.adc.set k { s.adc.get k with start := false }, trace := .drdy k :: s.trace }
        else s)

/-- From R285, R288 and R289, for a handler in the form the model chose (scripts, log entry 3): a delivery counts the
activation, clears the pending bit, puts out the event, then runs the handler's operations one after the other by the
ordinary rules, nested ticks and commits included, counts the activation off again and restores nothing else. -/
def Obligations.HandlerRunsByTheOrdinaryRules : Prop :=
  ∀ (s t : State) (k : Chan) (ops : List HandlerOp) (later : List (List HandlerOp)),
    s.scripts.get k = ops :: later → (s.adc.get k).depth.val < 4 → (s.adc.get k).start = true →
    t = ops.foldl
      (fun u o =>
        match o with
        | .cs c level => csWrite c level u
        | .xfer b => xfer b u
        | .env e => applyEnv e u)
      { s with
        adc := s.adc.set k { s.adc.get k with start := false, depth := (s.adc.get k).depth + 1 }
        scripts := s.scripts.set k later
        trace := .drdy k :: s.trace } →
    exec (.tick k) s = .next { t with adc := t.adc.set k { t.adc.get k with depth := (t.adc.get k).depth - 1 } }

/-- R283: at depth 4 a tick is dropped whole, whatever handler is registered: no event, and the start stays pending. -/
def Obligations.TickAtTheBoundIsDropped : Prop :=
  ∀ (s : State) (k : Chan), (s.adc.get k).depth = 4 → exec (.tick k) s = .next s

/-- R40: every operation leaves both depth counters as it found them, whatever handlers nest inside it. -/
def Obligations.DepthIsRestoredByEveryOperation : Prop :=
  ∀ (i : Instr) (s t : State) (k : Chan), exec i s = .next t → (t.adc.get k).depth = (s.adc.get k).depth

/-- Derived from R250, R289: room for more nesting than the two counters allow is never used, so the bound the model's
recursion runs under is no restriction of its own. -/
def Obligations.NestingNeverOutgrowsTheCounters : Prop :=
  ∀ (n : Nat) (k : Chan) (s : State), 8 ≤ n → adcTick n k s = tick k s

/-- R286: whatever operation runs, with whatever handlers, a pending start is still pending afterwards unless its
`DRDY` went out; and the trace only grows. -/
def Obligations.PendingStartIsClearedOnlyByItsDelivery : Prop :=
  ∀ (i : Instr) (s t : State) (k : Chan), exec i s = .next t →
    ∃ out : List Output, t.trace = out ++ s.trace ∧
      ((s.adc.get k).start = true → (t.adc.get k).start = true ∨ .drdy k ∈ out)

/-! ### The whole machine -/

/-- R57: the reset state at the default parameters, field by field. -/
def Obligations.ResetValuesAreThoseOfTheTable : Prop :=
  State.reset.sel = none ∧
  State.reset.ee = { ps := .idle, address := 0, index := 0, store := [] } ∧
  State.reset.rtc = { ps := .idle, ctrl1 := 0, ctrl2 := 0, offset := 0 } ∧
  State.reset.bp = { ps := .done, shift := 0, display := 0 } ∧
  (∀ k, State.reset.io.get k =
    { ps := .idle, index := 0, regs := List.replicate 22 0, pwrgood := true, rpol := false, cv := false, cc := false }) ∧
  (∀ k, State.reset.adc.get k =
    { ps := .idle, index := 0, regs := List.replicate 4 0, uSet := 0, iSet := 0, uMon := 0, iMon := 0, depth := 0,
      start := false }) ∧
  (∀ k, State.reset.dac.get k = { ps := .idle, buf := .a, msb := 0 })

/-- From R58, R300 and R302: a new construction loads exactly the two non-volatile values and keeps the configuration. That
the environment's inputs do not tell two restarted states apart is the model's choice (log entry 24). -/
def Obligations.RestartCarriesOnlyTheNonVolatileState : Prop :=
  ∀ s t : State, s.cfg = t.cfg → s.ee.store = t.ee.store → s.rtc.offset = t.rtc.offset →
    s.restart = t.restart ∧ s.restart.ee.store = s.ee.store ∧ s.restart.rtc.offset = s.rtc.offset ∧
    s.restart.sel = none ∧ (∀ k, (s.restart.adc.get k).start = false ∧ (s.restart.adc.get k).depth = 0)

/-- The invariant holds at reset. -/
def Obligations.ResetMeetsTheInvariant : Prop := State.reset.Inv

/-- The invariant is kept by every step: parameters legal, the store canonical and inside `EE_SPAN`, register arrays of
their fixed size, set-points in the ADC's range, at most one mode flag per channel, the backplane's shift register
clean while the low byte is expected, no tick in progress between steps. -/
def Obligations.EveryStepKeepsTheInvariant : Prop :=
  ∀ s t : State, s.Inv → step s = .next t → t.Inv

/-- R294 and R52: no step changes the configuration, and time never decreases, handlers included. -/
def Obligations.ConfigurationIsFixedAndTimeIsMonotone : Prop :=
  ∀ s t : State, step s = .next t → t.cfg = s.cfg ∧ s.env.now ≤ t.env.now

/-- Derived from R21, R28, R36, R39, R58, R138, R161(d): with no handler at work, the EEPROM store, the RTC's two control
registers and its offset, the display, the register arrays and the set-points each change only in an exchange, and only
where the byte is data for it: its own chip selected and in the state that takes it, for a set-point the paired DAC
awaiting its low code byte. So selecting, ticking and command bytes change none. -/
def Obligations.StoredContentsChangeOnlyByTheirOwnBytes : Prop :=
  ∀ (i : Instr) (s t : State), s.handlersEmpty → exec i s = .next t →
    (t.ee.store ≠ s.ee.store → i.isExchange = true ∧ s.sel = some .eeprom ∧ s.ee.ps = .write) ∧
    (t.rtc.ctrl1 ≠ s.rtc.ctrl1 → i.isExchange = true ∧ s.sel = some .rtc ∧ s.rtc.ps = .wrCtrl1) ∧
    (t.rtc.ctrl2 ≠ s.rtc.ctrl2 → i.isExchange = true ∧ s.sel = some .rtc ∧ s.rtc.ps = .wrCtrl2) ∧
    (t.rtc.offset ≠ s.rtc.offset → i.isExchange = true ∧ s.sel = some .rtc ∧
      s.rtc.ps ∈ [.wrSeconds, .wrMinutes, .wrHours, .wrDays, .wrMonths, .wrYears]) ∧
    (t.bp.display ≠ s.bp.display → i.isExchange = true ∧ s.sel = some .bp ∧ s.bp.ps = .low) ∧
    (∀ k, (t.io.get k).regs ≠ (s.io.get k).regs →
      i.isExchange = true ∧ s.sel = some (.ioexp k) ∧ (s.io.get k).ps = .wrData) ∧
    (∀ k, (t.adc.get k).regs ≠ (s.adc.get k).regs →
      i.isExchange = true ∧ s.sel = some (.adc k) ∧ ((s.adc.get k).ps = .regWrite ∨ (s.adc.get k).ps = .modeWrite)) ∧
    (∀ k, ((t.adc.get k).uSet ≠ (s.adc.get k).uSet ∨ (t.adc.get k).iSet ≠ (s.adc.get k).iSet) →
      i.isExchange = true ∧ s.sel = some (.dac k) ∧ (s.dac.get k).ps = .lsb)

/-- R220: with no handler at work, the mode flags of a channel change only in an exchange, and only in the one that gives
its DAC the low code byte or takes a result byte of its ADC in a measured mode; no operation changes `pwrgood` or
`rpol`. -/
def Obligations.ModeFlagsMoveOnlyWithTheModel : Prop :=
  ∀ (i : Instr) (s t : State) (k : Chan), s.handlersEmpty → exec i s = .next t →
    (t.io.get k).pwrgood = (s.io.get k).pwrgood ∧ (t.io.get k).rpol = (s.io.get k).rpol ∧
    (((t.io.get k).cv ≠ (s.io.get k).cv ∨ (t.io.get k).cc ≠ (s.io.get k).cc) →
      i.isExchange = true ∧
      ((s.sel = some (.dac k) ∧ (s.dac.get k).ps = .lsb) ∨
        (s.sel = some (.adc k) ∧ ((s.adc.get k).ps = .dataMsb ∨ (s.adc.get k).ps = .dataLsb) ∧
          ((s.adc.get k).mode = s.cfg.adcModeUMon ∨ (s.adc.get k).mode = s.cfg.adcModeIMon))))
end

