-- ==== Sys2Proof/Laws/State.lean ====
section
/-! SUPPORT. What each writer of the state leaves in each field: one lemma per field per writer, so that no later proof
unfolds a record update; and the laws of `Pair`. -/

namespace Sys2Proof

@[simp] theorem Pair.get_one {α : Type} (p : Pair α) : p.get .one = p.one := rfl
@[simp] theorem Pair.get_two {α : Type} (p : Pair α) : p.get .two = p.two := rfl

@[simp] theorem Pair.get_set_same {α : Type} (p : Pair α) (k : Chan) (v : α) : (p.set k v).get k = v := by
  cases k <;> rfl

theorem Pair.get_set_other {α : Type} (p : Pair α) {j k : Chan} (h : j ≠ k) (v : α) : (p.set k v).get j = p.get j := by
  cases j <;> cases k <;> first | rfl | exact absurd rfl h

theorem Pair.get_set {α : Type} (p : Pair α) (j k : Chan) (v : α) :
    (p.set k v).get j = if j = k then v else p.get j := by
  cases j <;> cases k <;> rfl

@[simp] theorem Pair.set_set {α : Type} (p : Pair α) (k : Chan) (v w : α) : (p.set k v).set k w = p.set k w := by
  cases k <;> rfl

@[simp] theorem Pair.set_get {α : Type} (p : Pair α) (k : Chan) : p.set k (p.get k) = p := by
  cases k <;> rfl

namespace Machine

/-! ### `setSel` -/

@[simp] theorem State.setSel_cfg (s : State) (c : Option Chip) : (s.setSel c).cfg = s.cfg := rfl
@[simp] theorem State.setSel_sel (s : State) (c : Option Chip) : (s.setSel c).sel = c := rfl
@[simp] theorem State.setSel_ee (s : State) (c : Option Chip) : (s.setSel c).ee = s.ee := rfl
@[simp] theorem State.setSel_rtc (s : State) (c : Option Chip) : (s.setSel c).rtc = s.rtc := rfl
@[simp] theorem State.setSel_bp (s : State) (c : Option Chip) : (s.setSel c).bp = s.bp := rfl
@[simp] theorem State.setSel_io (s : State) (c : Option Chip) : (s.setSel c).io = s.io := rfl
@[simp] theorem State.setSel_adc (s : State) (c : Option Chip) : (s.setSel c).adc = s.adc := rfl
@[simp] theorem State.setSel_dac (s : State) (c : Option Chip) : (s.setSel c).dac = s.dac := rfl
@[simp] theorem State.setSel_env (s : State) (c : Option Chip) : (s.setSel c).env = s.env := rfl
@[simp] theorem State.setSel_inputs (s : State) (c : Option Chip) : (s.setSel c).inputs = s.inputs := rfl
@[simp] theorem State.setSel_scripts (s : State) (c : Option Chip) : (s.setSel c).scripts = s.scripts := rfl
@[simp] theorem State.setSel_trace (s : State) (c : Option Chip) : (s.setSel c).trace = s.trace := rfl
@[simp] theorem State.setSel_draws (s : State) (c : Option Chip) : (s.setSel c).draws = s.draws := rfl

/-! ### `setEe` -/

@[simp] theorem State.setEe_cfg (s : State) (e : Eeprom) : (s.setEe e).cfg = s.cfg := rfl
@[simp] theorem State.setEe_sel (s : State) (e : Eeprom) : (s.setEe e).sel = s.sel := rfl
@[simp] theorem State.setEe_ee (s : State) (e : Eeprom) : (s.setEe e).ee = e := rfl
@[simp] theorem State.setEe_rtc (s : State) (e : Eeprom) : (s.setEe e).rtc = s.rtc := rfl
@[simp] theorem State.setEe_bp (s : State) (e : Eeprom) : (s.setEe e).bp = s.bp := rfl
@[simp] theorem State.setEe_io (s : State) (e : Eeprom) : (s.setEe e).io = s.io := rfl
@[simp] theorem State.setEe_adc (s : State) (e : Eeprom) : (s.setEe e).adc = s.adc := rfl
@[simp] theorem State.setEe_dac (s : State) (e : Eeprom) : (s.setEe e).dac = s.dac := rfl
@[simp] theorem State.setEe_env (s : State) (e : Eeprom) : (s.setEe e).env = s.env := rfl
@[simp] theorem State.setEe_inputs (s : State) (e : Eeprom) : (s.setEe e).inputs = s.inputs := rfl
@[simp] theorem State.setEe_scripts (s : State) (e : Eeprom) : (s.setEe e).scripts = s.scripts := rfl
@[simp] theorem State.setEe_trace (s : State) (e : Eeprom) : (s.setEe e).trace = s.trace := rfl
@[simp] theorem State.setEe_draws (s : State) (e : Eeprom) : (s.setEe e).draws = s.draws := rfl

/-! ### `setRtc` -/

@[simp] theorem State.setRtc_cfg (s : State) (r : Rtc) : (s.setRtc r).cfg = s.cfg := rfl
@[simp] theorem State.setRtc_sel (s : State) (r : Rtc) : (s.setRtc r).sel = s.sel := rfl
@[simp] theorem State.setRtc_ee (s : State) (r : Rtc) : (s.setRtc r).ee = s.ee := rfl
@[simp] theorem State.setRtc_rtc (s : State) (r : Rtc) : (s.setRtc r).rtc = r := rfl
@[simp] theorem State.setRtc_bp (s : State) (r : Rtc) : (s.setRtc r).bp = s.bp := rfl
@[simp] theorem State.setRtc_io (s : State) (r : Rtc) : (s.setRtc r).io = s.io := rfl
@[simp] theorem State.setRtc_adc (s : State) (r : Rtc) : (s.setRtc r).adc = s.adc := rfl
@[simp] theorem State.setRtc_dac (s : State) (r : Rtc) : (s.setRtc r).dac = s.dac := rfl
@[simp] theorem State.setRtc_env (s : State) (r : Rtc) : (s.setRtc r).env = s.env := rfl
@[simp] theorem State.setRtc_inputs (s : State) (r : Rtc) : (s.setRtc r).inputs = s.inputs := rfl
@[simp] theorem State.setRtc_scripts (s : State) (r : Rtc) : (s.setRtc r).scripts = s.scripts := rfl
@[simp] theorem State.setRtc_trace (s : State) (r : Rtc) : (s.setRtc r).trace = s.trace := rfl
@[simp] theorem State.setRtc_draws (s : State) (r : Rtc) : (s.setRtc r).draws = s.draws := rfl

/-! ### `setBp` -/

@[simp] theorem State.setBp_cfg (s : State) (b : Backplane) : (s.setBp b).cfg = s.cfg := rfl
@[simp] theorem State.setBp_sel (s : State) (b : Backplane) : (s.setBp b).sel = s.sel := rfl
@[simp] theorem State.setBp_ee (s : State) (b : Backplane) : (s.setBp b).ee = s.ee := rfl
@[simp] theorem State.setBp_rtc (s : State) (b : Backplane) : (s.setBp b).rtc = s.rtc := rfl
@[simp] theorem State.setBp_bp (s : State) (b : Backplane) : (s.setBp b).bp = b := rfl
@[simp] theorem State.setBp_io (s : State) (b : Backplane) : (s.setBp b).io = s.io := rfl
@[simp] theorem State.setBp_adc (s : State) (b : Backplane) : (s.setBp b).adc = s.adc := rfl
@[simp] theorem State.setBp_dac (s : State) (b : Backplane) : (s.setBp b).dac = s.dac := rfl
@[simp] theorem State.setBp_env (s : State) (b : Backplane) : (s.setBp b).env = s.env := rfl
@[simp] theorem State.setBp_inputs (s : State) (b : Backplane) : (s.setBp b).inputs = s.inputs := rfl
@[simp] theorem State.setBp_scripts (s : State) (b : Backplane) : (s.setBp b).scripts = s.scripts := rfl
@[simp] theorem State.setBp_trace (s : State) (b : Backplane) : (s.setBp b).trace = s.trace := rfl
@[simp] theorem State.setBp_draws (s : State) (b : Backplane) : (s.setBp b).draws = s.draws := rfl

/-! ### `setIo` -/

@[simp] theorem State.setIo_cfg (s : State) (k : Chan) (x : IoExp) : (s.setIo k x).cfg = s.cfg := rfl
@[simp] theorem State.setIo_sel (s : State) (k : Chan) (x : IoExp) : (s.setIo k x).sel = s.sel := rfl
@[simp] theorem State.setIo_ee (s : State) (k : Chan) (x : IoExp) : (s.setIo k x).ee = s.ee := rfl
@[simp] theorem State.setIo_rtc (s : State) (k : Chan) (x : IoExp) : (s.setIo k x).rtc = s.rtc := rfl
@[simp] theorem State.setIo_bp (s : State) (k : Chan) (x : IoExp) : (s.setIo k x).bp = s.bp := rfl
@[simp] theorem State.setIo_io (s : State) (k : Chan) (x : IoExp) : (s.setIo k x).io = s.io.set k x := rfl
@[simp] theorem State.setIo_adc (s : State) (k : Chan) (x : IoExp) : (s.setIo k x).adc = s.adc := rfl
@[simp] theorem State.setIo_dac (s : State) (k : Chan) (x : IoExp) : (s.setIo k x).dac = s.dac := rfl
@[simp] theorem State.setIo_env (s : State) (k : Chan) (x : IoExp) : (s.setIo k x).env = s.env := rfl
@[simp] theorem State.setIo_inputs (s : State) (k : Chan) (x : IoExp) : (s.setIo k x).inputs = s.inputs := rfl
@[simp] theorem State.setIo_scripts (s : State) (k : Chan) (x : IoExp) : (s.setIo k x).scripts = s.scripts := rfl
@[simp] theorem State.setIo_trace (s : State) (k : Chan) (x : IoExp) : (s.setIo k x).trace = s.trace := rfl
@[simp] theorem State.setIo_draws (s : State) (k : Chan) (x : IoExp) : (s.setIo k x).draws = s.draws := rfl

/-! ### `setAdc` -/

@[simp] theorem State.setAdc_cfg (s : State) (k : Chan) (x : Adc) : (s.setAdc k x).cfg = s.cfg := rfl
@[simp] theorem State.setAdc_sel (s : State) (k : Chan) (x : Adc) : (s.setAdc k x).sel = s.sel := rfl
@[simp] theorem State.setAdc_ee (s : State) (k : Chan) (x : Adc) : (s.setAdc k x).ee = s.ee := rfl
@[simp] theorem State.setAdc_rtc (s : State) (k : Chan) (x : Adc) : (s.setAdc k x).rtc = s.rtc := rfl
@[simp] theorem State.setAdc_bp (s : State) (k : Chan) (x : Adc) : (s.setAdc k x).bp = s.bp := rfl
@[simp] theorem State.setAdc_io (s : State) (k : Chan) (x : Adc) : (s.setAdc k x).io = s.io := rfl
@[simp] theorem State.setAdc_adc (s : State) (k : Chan) (x : Adc) : (s.setAdc k x).adc = s.adc.set k x := rfl
@[simp] theorem State.setAdc_dac (s : State) (k : Chan) (x : Adc) : (s.setAdc k x).dac = s.dac := rfl
@[simp] theorem State.setAdc_env (s : State) (k : Chan) (x : Adc) : (s.setAdc k x).env = s.env := rfl
@[simp] theorem State.setAdc_inputs (s : State) (k : Chan) (x : Adc) : (s.setAdc k x).inputs = s.inputs := rfl
@[simp] theorem State.setAdc_scripts (s : State) (k : Chan) (x : Adc) : (s.setAdc k x).scripts = s.scripts := rfl
@[simp] theorem State.setAdc_trace (s : State) (k : Chan) (x : Adc) : (s.setAdc k x).trace = s.trace := rfl
@[simp] theorem State.setAdc_draws (s : State) (k : Chan) (x : Adc) : (s.setAdc k x).draws = s.draws := rfl

/-! ### `setDac` -/

@[simp] theorem State.setDac_cfg (s : State) (k : Chan) (x : Dac) : (s.setDac k x).cfg = s.cfg := rfl
@[simp] theorem State.setDac_sel (s : State) (k : Chan) (x : Dac) : (s.setDac k x).sel = s.sel := rfl
@[simp] theorem State.setDac_ee (s : State) (k : Chan) (x : Dac) : (s.setDac k x).ee = s.ee := rfl
@[simp] theorem State.setDac_rtc (s : State) (k : Chan) (x : Dac) : (s.setDac k x).rtc = s.rtc := rfl
@[simp] theorem State.setDac_bp (s : State) (k : Chan) (x : Dac) : (s.setDac k x).bp = s.bp := rfl
@[simp] theorem State.setDac_io (s : State) (k : Chan) (x : Dac) : (s.setDac k x).io = s.io := rfl
@[simp] theorem State.setDac_adc (s : State) (k : Chan) (x : Dac) : (s.setDac k x).adc = s.adc := rfl
@[simp] theorem State.setDac_dac (s : State) (k : Chan) (x : Dac) : (s.setDac k x).dac = s.dac.set k x := rfl
@[simp] theorem State.setDac_env (s : State) (k : Chan) (x : Dac) : (s.setDac k x).env = s.env := rfl
@[simp] theorem State.setDac_inputs (s : State) (k : Chan) (x : Dac) : (s.setDac k x).inputs = s.inputs := rfl
@[simp] theorem State.setDac_scripts (s : State) (k : Chan) (x : Dac) : (s.setDac k x).scripts = s.scripts := rfl
@[simp] theorem State.setDac_trace (s : State) (k : Chan) (x : Dac) : (s.setDac k x).trace = s.trace := rfl
@[simp] theorem State.setDac_draws (s : State) (k : Chan) (x : Dac) : (s.setDac k x).draws = s.draws := rfl

/-! ### `setEnv` -/

@[simp] theorem State.setEnv_cfg (s : State) (e : Env) : (s.setEnv e).cfg = s.cfg := rfl
@[simp] theorem State.setEnv_sel (s : State) (e : Env) : (s.setEnv e).sel = s.sel := rfl
@[simp] theorem State.setEnv_ee (s : State) (e : Env) : (s.setEnv e).ee = s.ee := rfl
@[simp] theorem State.setEnv_rtc (s : State) (e : Env) : (s.setEnv e).rtc = s.rtc := rfl
@[simp] theorem State.setEnv_bp (s : State) (e : Env) : (s.setEnv e).bp = s.bp := rfl
@[simp] theorem State.setEnv_io (s : State) (e : Env) : (s.setEnv e).io = s.io := rfl
@[simp] theorem State.setEnv_adc (s : State) (e : Env) : (s.setEnv e).adc = s.adc := rfl
@[simp] theorem State.setEnv_dac (s : State) (e : Env) : (s.setEnv e).dac = s.dac := rfl
@[simp] theorem State.setEnv_env (s : State) (e : Env) : (s.setEnv e).env = e := rfl
@[simp] theorem State.setEnv_inputs (s : State) (e : Env) : (s.setEnv e).inputs = s.inputs := rfl
@[simp] theorem State.setEnv_scripts (s : State) (e : Env) : (s.setEnv e).scripts = s.scripts := rfl
@[simp] theorem State.setEnv_trace (s : State) (e : Env) : (s.setEnv e).trace = s.trace := rfl
@[simp] theorem State.setEnv_draws (s : State) (e : Env) : (s.setEnv e).draws = s.draws := rfl

/-! ### `setInputs` -/

@[simp] theorem State.setInputs_cfg (s : State) (l : List Input) : (s.setInputs l).cfg = s.cfg := rfl
@[simp] theorem State.setInputs_sel (s : State) (l : List Input) : (s.setInputs l).sel = s.sel := rfl
@[simp] theorem State.setInputs_ee (s : State) (l : List Input) : (s.setInputs l).ee = s.ee := rfl
@[simp] theorem State.setInputs_rtc (s : State) (l : List Input) : (s.setInputs l).rtc = s.rtc := rfl
@[simp] theorem State.setInputs_bp (s : State) (l : List Input) : (s.setInputs l).bp = s.bp := rfl
@[simp] theorem State.setInputs_io (s : State) (l : List Input) : (s.setInputs l).io = s.io := rfl
@[simp] theorem State.setInputs_adc (s : State) (l : List Input) : (s.setInputs l).adc = s.adc := rfl
@[simp] theorem State.setInputs_dac (s : State) (l : List Input) : (s.setInputs l).dac = s.dac := rfl
@[simp] theorem State.setInputs_env (s : State) (l : List Input) : (s.setInputs l).env = s.env := rfl
@[simp] theorem State.setInputs_inputs (s : State) (l : List Input) : (s.setInputs l).inputs = l := rfl
@[simp] theorem State.setInputs_scripts (s : State) (l : List Input) : (s.setInputs l).scripts = s.scripts := rfl
@[simp] theorem State.setInputs_trace (s : State) (l : List Input) : (s.setInputs l).trace = s.trace := rfl
@[simp] theorem State.setInputs_draws (s : State) (l : List Input) : (s.setInputs l).draws = s.draws := rfl

/-! ### `setScripts` -/

@[simp] theorem State.setScripts_cfg (s : State) (k : Chan) (l : List (List HandlerOp)) : (s.setScripts k l).cfg = s.cfg := rfl
@[simp] theorem State.setScripts_sel (s : State) (k : Chan) (l : List (List HandlerOp)) : (s.setScripts k l).sel = s.sel := rfl
@[simp] theorem State.setScripts_ee (s : State) (k : Chan) (l : List (List HandlerOp)) : (s.setScripts k l).ee = s.ee := rfl
@[simp] theorem State.setScripts_rtc (s : State) (k : Chan) (l : List (List HandlerOp)) : (s.setScripts k l).rtc = s.rtc := rfl
@[simp] theorem State.setScripts_bp (s : State) (k : Chan) (l : List (List HandlerOp)) : (s.setScripts k l).bp = s.bp := rfl
@[simp] theorem State.setScripts_io (s : State) (k : Chan) (l : List (List HandlerOp)) : (s.setScripts k l).io = s.io := rfl
@[simp] theorem State.setScripts_adc (s : State) (k : Chan) (l : List (List HandlerOp)) : (s.setScripts k l).adc = s.adc := rfl
@[simp] theorem State.setScripts_dac (s : State) (k : Chan) (l : List (List HandlerOp)) : (s.setScripts k l).dac = s.dac := rfl
@[simp] theorem State.setScripts_env (s : State) (k : Chan) (l : List (List HandlerOp)) : (s.setScripts k l).env = s.env := rfl
@[simp] theorem State.setScripts_inputs (s : State) (k : Chan) (l : List (List HandlerOp)) : (s.setScripts k l).inputs = s.inputs := rfl
@[simp] theorem State.setScripts_scripts (s : State) (k : Chan) (l : List (List HandlerOp)) : (s.setScripts k l).scripts = s.scripts.set k l := rfl
@[simp] theorem State.setScripts_trace (s : State) (k : Chan) (l : List (List HandlerOp)) : (s.setScripts k l).trace = s.trace := rfl
@[simp] theorem State.setScripts_draws (s : State) (k : Chan) (l : List (List HandlerOp)) : (s.setScripts k l).draws = s.draws := rfl

/-! ### `emit` -/

@[simp] theorem State.emit_cfg (s : State) (o : Output) : (s.emit o).cfg = s.cfg := rfl
@[simp] theorem State.emit_sel (s : State) (o : Output) : (s.emit o).sel = s.sel := rfl
@[simp] theorem State.emit_ee (s : State) (o : Output) : (s.emit o).ee = s.ee := rfl
@[simp] theorem State.emit_rtc (s : State) (o : Output) : (s.emit o).rtc = s.rtc := rfl
@[simp] theorem State.emit_bp (s : State) (o : Output) : (s.emit o).bp = s.bp := rfl
@[simp] theorem State.emit_io (s : State) (o : Output) : (s.emit o).io = s.io := rfl
@[simp] theorem State.emit_adc (s : State) (o : Output) : (s.emit o).adc = s.adc := rfl
@[simp] theorem State.emit_dac (s : State) (o : Output) : (s.emit o).dac = s.dac := rfl
@[simp] theorem State.emit_env (s : State) (o : Output) : (s.emit o).env = s.env := rfl
@[simp] theorem State.emit_inputs (s : State) (o : Output) : (s.emit o).inputs = s.inputs := rfl
@[simp] theorem State.emit_scripts (s : State) (o : Output) : (s.emit o).scripts = s.scripts := rfl
@[simp] theorem State.emit_trace (s : State) (o : Output) : (s.emit o).trace = o :: s.trace := rfl
@[simp] theorem State.emit_draws (s : State) (o : Output) : (s.emit o).draws = s.draws := rfl

/-! ### `drawn` -/

@[simp] theorem State.drawn_cfg (s : State) : (s.drawn).cfg = s.cfg := rfl
@[simp] theorem State.drawn_sel (s : State) : (s.drawn).sel = s.sel := rfl
@[simp] theorem State.drawn_ee (s : State) : (s.drawn).ee = s.ee := rfl
@[simp] theorem State.drawn_rtc (s : State) : (s.drawn).rtc = s.rtc := rfl
@[simp] theorem State.drawn_bp (s : State) : (s.drawn).bp = s.bp := rfl
@[simp] theorem State.drawn_io (s : State) : (s.drawn).io = s.io := rfl
@[simp] theorem State.drawn_adc (s : State) : (s.drawn).adc = s.adc := rfl
@[simp] theorem State.drawn_dac (s : State) : (s.drawn).dac = s.dac := rfl
@[simp] theorem State.drawn_env (s : State) : (s.drawn).env = s.env := rfl
@[simp] theorem State.drawn_inputs (s : State) : (s.drawn).inputs = s.inputs := rfl
@[simp] theorem State.drawn_scripts (s : State) : (s.drawn).scripts = s.scripts := rfl
@[simp] theorem State.drawn_trace (s : State) : (s.drawn).trace = s.trace := rfl
@[simp] theorem State.drawn_draws (s : State) : (s.drawn).draws = s.draws + 1 := rfl

end Machine

end Sys2Proof
end

