-- ==== Sys2Proof/Laws/Calendar.lean ====
section
/-! SUPPORT. The arithmetic behind the calendar (R174): a day of the era as century, four-year cycle, year and day, which
is what the closed formulas of `civil_from_days` compute. -/

namespace Sys2Proof.Machine

theorem dayOfEra_range (z : Int) : 0 ≤ dayOfEra z ∧ dayOfEra z ≤ 146096 := by
  unfold dayOfEra
  omega

/-- Every day of the era is day `j` of year `k` of four-year cycle `q` of century `g`. The long years (`j = 365`) are
the fourth of a cycle, and the last cycle of a century has one only in the fourth century. -/
theorem dayOfEra_parts {d : Int} (h0 : 0 ≤ d) (h1 : d ≤ 146096) :
    ∃ g q k j : Int, 0 ≤ g ∧ g ≤ 3 ∧ 0 ≤ q ∧ q ≤ 24 ∧ 0 ≤ k ∧ k ≤ 3 ∧ 0 ≤ j ∧ j ≤ 365 ∧
      (j = 365 → k = 3 ∧ (q = 24 → g = 3)) ∧ d = 36524 * g + 1461 * q + 365 * k + j := by
  by_cases h4 : d = 146096
  · exact ⟨3, 24, 3, 365, by omega⟩
  · refine ⟨d / 36524, d % 36524 / 1461, if d % 36524 % 1461 = 1460 then 3 else d % 36524 % 1461 / 365,
      if d % 36524 % 1461 = 1460 then 365 else d % 36524 % 1461 % 365, ?_⟩
    split <;> omega

/-- What `yearOfEra` and `dayOfYear` answer on those parts. -/
theorem yearOfEra_parts {g q k j : Int} (hg0 : 0 ≤ g) (hg3 : g ≤ 3) (hq0 : 0 ≤ q) (hq : q ≤ 24) (hk0 : 0 ≤ k)
    (hk3 : k ≤ 3) (hj0 : 0 ≤ j) (hj : j ≤ 365) (hl : j = 365 → k = 3 ∧ (q = 24 → g = 3)) :
    yearOfEra (36524 * g + 1461 * q + 365 * k + j) = 100 * g + 4 * q + k ∧
      dayOfYear (36524 * g + 1461 * q + 365 * k + j) = j := by
  generalize hd : 36524 * g + 1461 * q + 365 * k + j = d
  have hy : yearOfEra d = 100 * g + 4 * q + k := by
    unfold yearOfEra
    have e1 : d / 36524 = g + (if d = 146096 then 1 else 0) := by split <;> omega
    have e2 : d / 146096 = if d = 146096 then 1 else 0 := by split <;> omega
    obtain ⟨e, he, hb⟩ :
        ∃ e : Int, (e = 0 ∨ (e = 1 ∧ 1460 ≤ 24 * g + q + 365 * k + j)) ∧ d / 1460 = 25 * g + q + e := by
      refine ⟨d / 1460 - 25 * g - q, ?_, by omega⟩
      omega
    rw [e1, e2, hb]
    split <;> omega
  refine ⟨hy, ?_⟩
  have f1 : (100 * g + 4 * q + k) / 4 = 25 * g + q := by omega
  have f2 : (100 * g + 4 * q + k) / 100 = g := by omega
  unfold dayOfYear
  rw [hy, f1, f2]
  omega

/-- A setter either moves the offset to the substituted record or draws one (R182, R184). -/
theorem setField_cases (f : Field) (b : Byte) (s : State) :
    (fieldWriteOk f b s = true ∧
        setField f b s = s.setRtc { s.rtc with offset := makeTime (substituted f b s) - s.env.now }) ∨
      (fieldWriteOk f b s = false ∧ setField f b s = (s.setRtc { s.rtc with offset := s.drawOffset }).drawn) := by
  unfold setField
  cases h : fieldWriteOk f b s
  · exact .inr ⟨rfl, rfl⟩
  · exact .inl ⟨rfl, rfl⟩

end Sys2Proof.Machine
end

