-- ==== Sys2Proof/Laws/Electrical.lean ====
section
/-! SUPPORT. What a run of the electrical model can do: it writes the two measured codes of its ADC and the two mode
flags of the paired expander, perhaps takes one draw, and nothing else (R253). -/

namespace Sys2Proof.Machine

@[simp] theorem publishMode_eq (k : Chan) (cv cc : Bool) (s : State) :
    publishMode k cv cc s = s.setIo k { s.io.get k with cv := cv, cc := cc } := rfl

@[simp] theorem setMeasured_eq (k : Chan) (u i : Word) (s : State) :
    setMeasured k u i s = s.setAdc k { s.adc.get k with uMon := u, iMon := i } := rfl

/-- The whole footprint of `updateValues(k)`. Never both flags are set. -/
theorem updateValues_shape (k : Chan) (s : State) :
    ∃ cv cc u i d, ¬(cv = true ∧ cc = true) ∧
      updateValues k s =
        { s with
            io := s.io.set k { s.io.get k with cv := cv, cc := cc }
            adc := s.adc.set k { s.adc.get k with uMon := u, iMon := i }
            draws := d } := by
  unfold updateValues
  split
  · unfold branchA
    split
    · unfold branchCv
      simp only
      split
      · exact ⟨true, false, _, _, _, by simp, rfl⟩
      · exact ⟨true, false, _, _, s.draws, by simp, rfl⟩
    · exact ⟨false, true, _, _, s.draws, by simp, rfl⟩
  · split
    · exact ⟨_, false, _, _, s.draws, by simp, rfl⟩
    · exact ⟨false, false, _, _, s.draws, by simp, rfl⟩

/-- `clamp` answers a value of its range. -/
theorem clamp_mem {x lo hi : Int} (h : lo ≤ hi) : lo ≤ clamp x lo hi ∧ clamp x lo hi ≤ hi := by
  unfold clamp
  split <;> (try split) <;> omega

theorem clamp_mono {x y lo hi : Int} (h : x ≤ y) (hb : lo ≤ hi) : clamp x lo hi ≤ clamp y lo hi := by
  unfold clamp
  split <;> split <;> (try split) <;> (try split) <;> omega

/-- A remapped code, as an integer (R252). -/
theorem dacToAdc_toNat {cfg : Cfg} (h : cfg.Wf) (code : Word) :
    ((dacToAdc cfg code).toNat : Int) = clamp
      ((cfg.adcMin : Int) +
        ((code.toNat : Int) - cfg.dacMin) * ((cfg.adcMax : Int) - cfg.adcMin) / ((cfg.dacMax : Int) - cfg.dacMin))
      cfg.adcMin cfg.adcMax := by
  obtain ⟨-, -, -, -, -, -, -, -, -, -, hlt, hmax, -⟩ := h
  unfold dacToAdc
  generalize hc : clamp _ _ _ = c
  have hb : (cfg.adcMin : Int) ≤ c ∧ c ≤ (cfg.adcMax : Int) := hc ▸ clamp_mem (by omega)
  rw [BitVec.toNat_ofInt]
  omega

/-- The remap stays in the ADC's range (R252). -/
theorem dacToAdc_range {cfg : Cfg} (h : cfg.Wf) (code : Word) :
    cfg.adcMin ≤ (dacToAdc cfg code).toNat ∧ (dacToAdc cfg code).toNat ≤ cfg.adcMax := by
  have hn := dacToAdc_toNat h code
  have hlt : cfg.adcMin < cfg.adcMax := h.2.2.2.2.2.2.2.2.2.2.1
  have := clamp_mem (x := (cfg.adcMin : Int) +
        ((code.toNat : Int) - cfg.dacMin) * ((cfg.adcMax : Int) - cfg.adcMin) / ((cfg.dacMax : Int) - cfg.dacMin))
      (lo := cfg.adcMin) (hi := cfg.adcMax) (by omega)
  omega

end Sys2Proof.Machine
end

