-- ==== Sys2Proof/Laws/Memory.lean ====
section
/-! SUPPORT. The laws of the EEPROM store: a read after a write to the same cell gives the byte written, a write leaves
every other cell alone, and every write keeps the canonical form. -/

namespace Sys2Proof.Machine

theorem Memory.mem_insert {m : Memory} {a : Nat} {v : Byte} {c : Host.Cell} :
    c ∈ m.insert a v ↔ c = (a, v) ∨ c ∈ m := by
  induction m with
  | nil => simp [Memory.insert]
  | cons d m ih =>
    rw [Memory.insert]
    split
    · simp
    · simp only [List.mem_cons, ih]
      tauto

theorem Memory.read_insert_same (m : Memory) (a : Nat) (v : Byte) (h : ∀ c ∈ m, c.1 ≠ a) :
    (m.insert a v).read a = v := by
  induction m with
  | nil => simp [Memory.insert, Memory.read]
  | cons d m ih =>
    have hd : d.1 ≠ a := h d (by simp)
    rw [Memory.insert]
    split
    · simp [Memory.read]
    · simp [Memory.read, hd, ih (fun c hc => h c (by simp [hc]))]

theorem Memory.read_insert_other (m : Memory) {a b : Nat} (v : Byte) (h : b ≠ a) :
    (m.insert a v).read b = m.read b := by
  induction m with
  | nil => simp [Memory.insert, Memory.read, Ne.symm h]
  | cons d m ih =>
    rw [Memory.insert]
    split
    · simp [Memory.read, Ne.symm h]
    · simp only [Memory.read, ih]

theorem Memory.read_erase_same (m : Memory) (a : Nat) : (m.erase a).read a = unlistedByte := by
  induction m with
  | nil => rfl
  | cons d m ih =>
    unfold Memory.erase at ih ⊢
    by_cases hd : d.1 = a
    · simpa [hd] using ih
    · simpa [hd, Memory.read] using ih

theorem Memory.read_erase_other (m : Memory) {a b : Nat} (h : b ≠ a) : (m.erase a).read b = m.read b := by
  induction m with
  | nil => rfl
  | cons d m ih =>
    unfold Memory.erase at ih ⊢
    by_cases hd : d.1 = a
    · have : d.1 ≠ b := fun e => h (e.symm.trans hd)
      simpa [hd, Memory.read, Ne.symm h] using ih
    · by_cases hb : d.1 = b
      · simp [Memory.read, hb, h]
      · simpa [hd, hb, Memory.read] using ih

theorem Memory.erase_ne (m : Memory) (a : Nat) : ∀ c ∈ m.erase a, c.1 ≠ a := by
  intro c hc
  simpa using (List.mem_filter.1 hc).2

/-- A read after a write to the same cell. -/
theorem Memory.read_write_same (m : Memory) (a : Nat) (v : Byte) : (m.write a v).read a = v := by
  unfold Memory.write
  split
  · next h => rw [Memory.read_erase_same, h]
  · exact Memory.read_insert_same _ _ _ (Memory.erase_ne m a)

/-- A write leaves every other cell alone. -/
theorem Memory.read_write_other (m : Memory) {a b : Nat} (v : Byte) (h : b ≠ a) : (m.write a v).read b = m.read b := by
  unfold Memory.write
  split
  · exact Memory.read_erase_other m h
  · rw [Memory.read_insert_other _ _ h, Memory.read_erase_other m h]

theorem Memory.wf_erase {m : Memory} (h : m.wf) (a : Nat) : (m.erase a).wf :=
  ⟨h.1.filter _, fun c hc => h.2 c (List.mem_filter.1 hc).1⟩

theorem Memory.pairwise_insert {m : Memory} (h : m.Pairwise (fun c d => c.1 < d.1)) {a : Nat} (v : Byte)
    (ha : ∀ c ∈ m, c.1 ≠ a) : (m.insert a v).Pairwise (fun c d => c.1 < d.1) := by
  induction m with
  | nil => simp [Memory.insert]
  | cons d m ih =>
    rw [List.pairwise_cons] at h
    rw [Memory.insert]
    split
    · next hlt =>
      refine List.pairwise_cons.2 ⟨fun c hc => ?_, List.pairwise_cons.2 h⟩
      rcases List.mem_cons.1 hc with rfl | hc
      · exact hlt
      · exact lt_trans hlt (h.1 c hc)
    · next hge =>
      refine List.pairwise_cons.2 ⟨fun c hc => ?_, ih h.2 (fun c hc => ha c (by simp [hc]))⟩
      rcases Memory.mem_insert.1 hc with rfl | hc
      · have := ha d (by simp)
        show d.1 < a
        omega
      · exact h.1 c hc

/-- Every write inside the store keeps the canonical form. -/
theorem Memory.wf_write {m : Memory} (h : m.wf) {a : Nat} (ha : a < Config.eeSpan) (v : Byte) : (m.write a v).wf := by
  unfold Memory.write
  split
  · exact Memory.wf_erase h a
  · next hv =>
    have he := Memory.wf_erase h a
    refine ⟨Memory.pairwise_insert he.1 v (Memory.erase_ne m a), fun c hc => ?_⟩
    rcases Memory.mem_insert.1 hc with rfl | hc
    · exact ⟨ha, hv⟩
    · exact he.2 c hc

/-- A listed cell is what its address reads as. -/
theorem Memory.read_of_mem {m : Memory} (h : m.Pairwise (fun c d => c.1 < d.1)) {c : Host.Cell} (hc : c ∈ m) :
    m.read c.1 = c.2 := by
  induction m with
  | nil => simp at hc
  | cons d m ih =>
    rw [List.pairwise_cons] at h
    rcases List.mem_cons.1 hc with rfl | hc
    · simp [Memory.read]
    · have : d.1 ≠ c.1 := (h.1 c hc).ne
      simp [Memory.read, this, ih h.2 hc]

/-- All a store access by `MemWrite` can do: nothing when the store is unbacked, else one cell (R75, R160). -/
theorem memWrite_wf (c : Cfg) {m : Memory} (h : m.wf) (addr : Fin Config.eeSpan) (v : Byte) :
    Memory.wf (memWrite c m addr v) := by
  unfold memWrite
  split
  · exact Memory.wf_write h addr.isLt v
  · exact h

theorem memRead_memWrite_same {c : Cfg} (hb : c.eeBacked = true) (m : Memory) (addr : Fin Config.eeSpan) (v : Byte) :
    memRead c (memWrite c m addr v) addr = v := by
  simp [memRead, memWrite, hb, Memory.read_write_same]

theorem memRead_memWrite_other (c : Cfg) (m : Memory) {a b : Fin Config.eeSpan} (v : Byte) (h : b ≠ a) :
    memRead c (memWrite c m a v) b = memRead c m b := by
  unfold memRead memWrite
  split
  · exact Memory.read_write_other m v (fun e => h (Fin.ext e))
  · rfl

@[simp] theorem cellOf_val (address : Word) (index : Fin 64) :
    (cellOf address index).val = address.toNat + index.val := rfl

end Sys2Proof.Machine
end

