-- ==== Sys2Proof/Laws/Operands.lean ====
section
/-! SUPPORT. Operand assembly as arithmetic: `{hi, lo} = hi * 256 + lo` and its inverses (R11, R109), BCD (R171, R172),
and register arrays. -/

namespace Sys2Proof.Machine

theorem word_toNat (h l : Byte) : (word h l).toNat = h.toNat * 256 + l.toNat := by
  have hl := l.isLt
  unfold word
  rw [show (BitVec.toNat (h ++ l : BitVec 16)) = h.toNat <<< 8 ||| l.toNat from BitVec.toNat_append h l,
    ← Nat.shiftLeft_add_eq_or_of_lt hl, Nat.shiftLeft_eq]

theorem hi8_toNat (w : Word) : (hi8 w).toNat = w.toNat / 256 := by
  have := w.isLt
  unfold hi8
  rw [BitVec.extractLsb'_toNat, Nat.shiftRight_eq_div_pow]
  omega

theorem lo8_toNat (w : Word) : (lo8 w).toNat = w.toNat % 256 := by
  unfold lo8
  rw [BitVec.extractLsb'_toNat, Nat.shiftRight_zero]

@[simp] theorem hi8_word (h l : Byte) : hi8 (word h l) = h := by
  apply BitVec.eq_of_toNat_eq
  have := l.isLt
  rw [hi8_toNat, word_toNat]
  omega

@[simp] theorem lo8_word (h l : Byte) : lo8 (word h l) = l := by
  apply BitVec.eq_of_toNat_eq
  have := l.isLt
  rw [lo8_toNat, word_toNat]
  omega

theorem word_hi8_lo8 (w : Word) : word (hi8 w) (lo8 w) = w := by
  apply BitVec.eq_of_toNat_eq
  rw [word_toNat, hi8_toNat, lo8_toNat]
  omega

/-- The two digits of a BCD byte. -/
theorem fromBcd_nat (b : Byte) : fromBcd b = ((b.toNat / 16 * 10 + b.toNat % 16 : Nat) : Int) := by
  have := b.isLt
  unfold fromBcd
  rw [BitVec.extractLsb'_toNat, BitVec.extractLsb'_toNat, Nat.shiftRight_eq_div_pow, Nat.shiftRight_zero]
  omega

theorem bcdOk_iff (b : Byte) : bcdOk b = true ↔ b.toNat / 16 ≤ 9 ∧ b.toNat % 16 ≤ 9 := by
  have := b.isLt
  unfold bcdOk
  rw [BitVec.extractLsb'_toNat, BitVec.extractLsb'_toNat, Nat.shiftRight_eq_div_pow, Nat.shiftRight_zero]
  simp only [Bool.and_eq_true, decide_eq_true_eq]
  omega

/-- A BCD byte is the encoding of its own value (R171, R172). -/
theorem toBcd_fromBcd {b : Byte} (h : bcdOk b = true) : toBcd (fromBcd b) = b := by
  rw [bcdOk_iff] at h
  have := b.isLt
  apply BitVec.eq_of_toNat_eq
  unfold toBcd
  rw [fromBcd_nat, BitVec.toNat_ofNat]
  omega

@[simp] theorem regWrite_length (n : Nat) (regs : List Byte) (i v : Byte) :
    (regWrite n regs i v).length = regs.length := by
  unfold regWrite
  split <;> simp

/-- A register that exists reads back what was written to it. -/
theorem regRead_regWrite_same {n : Nat} {regs : List Byte} (hl : regs.length = n) {i : Byte} (hi : i.toNat < n) (v : Byte) :
    regRead n (regWrite n regs i v) i = v := by
  simp [regRead, regWrite, hi, hl]

/-- A write leaves every other register alone. -/
theorem regRead_regWrite_other (n : Nat) (regs : List Byte) {i j : Byte} (h : j ≠ i) (v : Byte) :
    regRead n (regWrite n regs i v) j = regRead n regs j := by
  have hn : i.toNat ≠ j.toNat := fun e => h (BitVec.eq_of_toNat_eq e.symm)
  unfold regRead regWrite
  split
  · split
    · simp [List.getElem?_set_ne hn]
    · rfl
  · rfl

end Sys2Proof.Machine
end

