-- ==== Sys2Proof/Laws/Chips.lean ====
section
/-! SUPPORT. What one byte can do to each chip: the footprint of each transfer function, said once. -/

namespace Sys2Proof.Machine

/-- A byte to the EEPROM changes the EEPROM only; the store changes only in `Write`, by one `MemWrite` (R151, R161). -/
theorem eeTransfer_shape (b : Byte) (s : State) :
    ∃ e, (eeTransfer b s).1 = s.setEe e ∧
      (e.store = s.ee.store ∨
        s.ee.ps = .write ∧ e.store = memWrite s.cfg s.ee.store (cellOf s.ee.address s.ee.index) b) := by
  unfold eeTransfer
  split
  · unfold eeCommand
    split
    · exact ⟨_, rfl, .inl rfl⟩
    · exact ⟨_, rfl, .inl rfl⟩
    · exact ⟨_, rfl, .inl rfl⟩
    · exact ⟨s.ee, rfl, .inl rfl⟩
  · exact ⟨_, rfl, .inl rfl⟩
  · exact ⟨_, rfl, .inl rfl⟩
  · exact ⟨_, rfl, .inl rfl⟩
  · exact ⟨_, rfl, .inl rfl⟩
  · exact ⟨_, rfl, .inl rfl⟩
  · next h => exact ⟨_, rfl, .inr ⟨h, rfl⟩⟩
  · exact ⟨s.ee, rfl, .inl rfl⟩

/-- The seven states in which a byte is a time field to write. -/
def RtcPs.writesTime : RtcPs → Bool
  | .wrSeconds | .wrMinutes | .wrHours | .wrDays | .wrMonths | .wrYears => true
  | _ => false

/-- All a setter can do: the offset and perhaps one draw (R182, R184). -/
theorem setField_shape (f : Field) (b : Byte) (s : State) :
    ∃ x d, setField f b s = { s with rtc := { s.rtc with offset := x }, draws := d } := by
  unfold setField
  split
  · exact ⟨_, s.draws, rfl⟩
  · exact ⟨_, _, rfl⟩

theorem rtcReadField_shape (f : Field) (n : RtcPs) (s : State) :
    ∃ d, (rtcReadField f n s).1 = { s with rtc := { s.rtc with ps := n }, draws := d } := by
  unfold rtcReadField
  cases f <;> simp only
  all_goals first
    | exact ⟨s.draws, rfl⟩
    | (split
       · exact ⟨s.draws, rfl⟩
       · exact ⟨_, rfl⟩)

theorem rtcWriteField_shape (f : Field) (b : Byte) (n : RtcPs) (s : State) :
    ∃ x d, (rtcWriteField f b n s).1 = { s with rtc := { s.rtc with ps := n, offset := x }, draws := d } := by
  obtain ⟨x, d, h⟩ := setField_shape f b s
  refine ⟨x, d, ?_⟩
  unfold rtcWriteField
  rw [h]
  rfl

/-- A byte to the RTC changes the RTC only, perhaps taking a draw; each control register changes only on its own written
byte, the offset only on a written time field (R176 to R184). -/
theorem rtcTransfer_shape (b : Byte) (s : State) :
    ∃ r d, (rtcTransfer b s).1 = { s with rtc := r, draws := d } ∧
      (r.ctrl1 = s.rtc.ctrl1 ∨ s.rtc.ps = .wrCtrl1) ∧ (r.ctrl2 = s.rtc.ctrl2 ∨ s.rtc.ps = .wrCtrl2) ∧
      (r.offset = s.rtc.offset ∨ s.rtc.ps.writesTime = true) := by
  have read : ∀ f n, ∃ r d, (rtcReadField f n s).1 = { s with rtc := r, draws := d } ∧
      r.ctrl1 = s.rtc.ctrl1 ∧ r.ctrl2 = s.rtc.ctrl2 ∧ r.offset = s.rtc.offset := by
    intro f n
    obtain ⟨d, h⟩ := rtcReadField_shape f n s
    exact ⟨_, d, h, rfl, rfl, rfl⟩
  have written : ∀ f n, ∃ r d, (rtcWriteField f b n s).1 = { s with rtc := r, draws := d } ∧
      r.ctrl1 = s.rtc.ctrl1 ∧ r.ctrl2 = s.rtc.ctrl2 := by
    intro f n
    obtain ⟨x, d, h⟩ := rtcWriteField_shape f b n s
    exact ⟨_, d, h, rfl, rfl⟩
  cases hp : s.rtc.ps <;> simp only [rtcTransfer, hp]
  case idle =>
    unfold rtcCommand
    split
    · exact ⟨_, s.draws, rfl, .inl rfl, .inl rfl, .inl rfl⟩
    · exact ⟨_, s.draws, rfl, .inl rfl, .inl rfl, .inl rfl⟩
    · exact ⟨_, s.draws, rfl, .inl rfl, .inl rfl, .inl rfl⟩
    · exact ⟨_, s.draws, rfl, .inl rfl, .inl rfl, .inl rfl⟩
    · exact ⟨s.rtc, s.draws, rfl, .inl rfl, .inl rfl, .inl rfl⟩
  case wrCtrl1 => exact ⟨_, s.draws, rfl, .inr trivial, .inl rfl, .inl rfl⟩
  case wrCtrl2 => exact ⟨_, s.draws, rfl, .inl rfl, .inr trivial, .inl rfl⟩
  case rdCtrl1 | rdCtrl2 | wrWeekdays => exact ⟨_, s.draws, rfl, .inl rfl, .inl rfl, .inl rfl⟩
  case wrSeconds | wrMinutes | wrHours | wrDays | wrMonths | wrYears =>
    obtain ⟨r, d, h, h1, h2⟩ := written _ _
    exact ⟨r, d, h, .inl h1, .inl h2, .inr rfl⟩
  all_goals
    obtain ⟨r, d, h, h1, h2, h3⟩ := read _ _
    exact ⟨r, d, h, .inl h1, .inl h2, .inl h3⟩

/-- A byte to the backplane changes the backplane only, and what is displayed only on the low byte (R201 to R203). -/
theorem bpTransfer_shape (b : Byte) (s : State) :
    ∃ x : Backplane, (bpTransfer b s).1 = s.setBp x ∧ (x = s.bp ∨ x.ps = .done ∨ lo8 x.shift = 0x00#8) ∧
      (x.display = s.bp.display ∨ s.bp.ps = .low) := by
  unfold bpTransfer
  split
  · exact ⟨_, rfl, .inr (.inr (lo8_word _ _)), .inl rfl⟩
  · next h => exact ⟨_, rfl, .inr (.inl rfl), .inr h⟩
  · exact ⟨s.bp, rfl, .inl rfl, .inl rfl⟩

/-- A byte to an IO expander changes that expander only, and never a transient flag (R211 to R219, R35). -/
theorem ioxTransfer_shape (k : Chan) (b : Byte) (s : State) :
    ∃ ps i regs, (ioxTransfer k b s).1 = s.setIo k { s.io.get k with ps := ps, index := i, regs := regs } ∧
      regs.length = (s.io.get k).regs.length ∧ (regs = (s.io.get k).regs ∨ (s.io.get k).ps = .wrData) := by
  have same : s = s.setIo k (s.io.get k) := by simp [State.setIo]
  unfold ioxTransfer
  split
  · unfold ioxCommand
    split
    · exact ⟨_, _, _, rfl, rfl, .inl rfl⟩
    · exact ⟨_, _, _, rfl, rfl, .inl rfl⟩
    · exact ⟨_, _, _, same, rfl, .inl rfl⟩
  · exact ⟨_, _, _, rfl, rfl, .inl rfl⟩
  · exact ⟨_, _, _, rfl, rfl, .inl rfl⟩
  · exact ⟨_, _, _, same, rfl, .inl rfl⟩
  · next h => exact ⟨_, _, _, rfl, by simp, .inr h⟩

/-- The mode register selects a measured quantity (R241). -/
def Adc.measures (cfg : Cfg) (x : Adc) : Bool :=
  decide (x.mode = cfg.adcModeUMon) || decide (x.mode = cfg.adcModeIMon)

/-- A result computation runs the model for a measured quantity, and changes nothing otherwise (R241). -/
theorem adcResult_state (k : Chan) (s : State) :
    (adcResult k s).1 = if (s.adc.get k).measures s.cfg then updateValues k s else s := by
  unfold adcResult Adc.measures
  by_cases h1 : (s.adc.get k).mode = s.cfg.adcModeUMon
  · simp [h1]
  · by_cases h2 : (s.adc.get k).mode = s.cfg.adcModeIMon
    · simp only [h2, if_true, decide_true, Bool.or_true]
      split <;> rfl
    · simp only [h1, h2, if_false, decide_false, Bool.or_self, Bool.false_eq_true]
      split
      · rfl
      · split <;> rfl

/-- All a byte to an ADC can do: that ADC, whose set-points and depth stay, whose registers change only on a register or
mode byte, and whose pending bit is not cleared; and, in a result read of a measured quantity, what the electrical model
does (R231 to R244). -/
theorem adcTransfer_shape (k : Chan) (b : Byte) (s : State) :
    ∃ t ps i regs st,
      (adcTransfer k b s).1 = t.setAdc k { t.adc.get k with ps := ps, index := i, regs := regs, start := st } ∧
      regs.length = (s.adc.get k).regs.length ∧
      (regs = (s.adc.get k).regs ∨ (s.adc.get k).ps = .regWrite ∨ (s.adc.get k).ps = .modeWrite) ∧
      ((s.adc.get k).start = true → st = true) ∧
      (t = s ∨ t = updateValues k s ∧ (s.adc.get k).measures s.cfg = true ∧
        ((s.adc.get k).ps = .dataMsb ∨ (s.adc.get k).ps = .dataLsb)) := by
  have same : s = s.setAdc k (s.adc.get k) := by simp [State.setAdc]
  have result : ∀ p, (s.adc.get k).ps = .dataMsb ∨ (s.adc.get k).ps = .dataLsb →
      ∃ t ps i regs st, setAdcPs k p (adcResult k s).1 =
          t.setAdc k { t.adc.get k with ps := ps, index := i, regs := regs, start := st } ∧
        regs.length = (s.adc.get k).regs.length ∧
        (regs = (s.adc.get k).regs ∨ (s.adc.get k).ps = .regWrite ∨ (s.adc.get k).ps = .modeWrite) ∧
        ((s.adc.get k).start = true → st = true) ∧
        (t = s ∨ t = updateValues k s ∧ (s.adc.get k).measures s.cfg = true ∧
          ((s.adc.get k).ps = .dataMsb ∨ (s.adc.get k).ps = .dataLsb)) := by
    intro p hp
    rw [adcResult_state]
    split
    · next hm =>
      obtain ⟨cv, cc, u, i, d, -, h⟩ := updateValues_shape k s
      refine ⟨updateValues k s, p, _, _, _, rfl, ?_, .inl ?_, ?_, .inr ⟨rfl, hm, hp⟩⟩ <;> (rw [h]; simp)
    · exact ⟨s, p, _, _, _, rfl, rfl, .inl rfl, id, .inl rfl⟩
  unfold adcTransfer
  split
  · unfold adcCommand
    split
    · exact ⟨s, _, _, _, _, same, rfl, .inl rfl, id, .inl rfl⟩
    · exact ⟨s, _, _, _, _, rfl, rfl, .inl rfl, fun _ => rfl, .inl rfl⟩
    · exact ⟨s, _, _, _, _, rfl, rfl, .inl rfl, id, .inl rfl⟩
    · exact ⟨s, _, _, _, _, rfl, rfl, .inl rfl, id, .inl rfl⟩
    · exact ⟨s, _, _, _, _, rfl, rfl, .inl rfl, id, .inl rfl⟩
    · exact ⟨s, _, _, _, _, rfl, rfl, .inl rfl, id, .inl rfl⟩
    · exact ⟨s, _, _, _, _, same, rfl, .inl rfl, id, .inl rfl⟩
  · exact ⟨s, _, _, _, _, rfl, rfl, .inl rfl, id, .inl rfl⟩
  · next hp => exact ⟨s, _, _, _, _, rfl, by simp, .inr (.inl hp), id, .inl rfl⟩
  · next hp => exact ⟨s, _, _, _, _, rfl, by simp, .inr (.inr hp), id, .inl rfl⟩
  · next hp => exact result .dataLsb (.inl hp)
  · next hp => exact result .idle (.inr hp)

/-- All a byte to a DAC can do short of a commit is to the DAC itself; in `Lsb` it is the commit (R271 to R274). -/
theorem dacTransfer_shape (tick : Chan → State → State) (k : Chan) (b : Byte) (s : State) :
    (∃ x, (dacTransferWith tick k b s).1 = s.setDac k x) ∨
      (s.dac.get k).ps = .lsb ∧
        (dacTransferWith tick k b s).1 =
          setDacValueWith tick k (s.dac.get k).buf (word (s.dac.get k).msb b)
            (s.setDac k { s.dac.get k with ps := .idle }) := by
  have same : s = s.setDac k (s.dac.get k) := by simp [State.setDac]
  cases hp : (s.dac.get k).ps <;> simp only [dacTransferWith, hp]
  case idle =>
    unfold dacCommand
    split
    · exact .inl ⟨_, rfl⟩
    · exact .inl ⟨_, rfl⟩
    · exact .inl ⟨_, same⟩
  case msb => exact .inl ⟨_, rfl⟩
  case lsb => exact .inr ⟨trivial, rfl⟩

end Sys2Proof.Machine
end

