-- ==== Sys2Proof/Laws/Decode.lean ====
section
/-! SUPPORT. Reading what the encoders write, one lemma per stimulus format (R113), and the command tables (R110). -/

namespace Sys2Proof

theorem decodeStimulus_csWord :
    ∀ (line : BitVec 4) (v : Bool), line.toNat < 9 →
      decodeStimulus (csWord line (Level.ofBit v)) = .ok (.cs line (Level.ofBit v)) := by
  decide

theorem decodeStimulus_xferWord : ∀ b : Byte, decodeStimulus (xferWord b) = .ok (.xfer b) := by
  decide +kernel

theorem decodeStimulus_tickWord (k : Chan) : decodeStimulus (tickWord k) = .ok (.tick k) := by
  cases k <;> decide

/-- Line numbers and chips correspond (R71). -/
theorem Chip.ofLine_line (c : Chip) : Chip.ofLine c.line = some c := by
  cases c with
  | ioexp k => cases k <;> rfl
  | adc k => cases k <;> rfl
  | dac k => cases k <;> rfl
  | _ => rfl

theorem Chip.ofLine_isSome : ∀ line : BitVec 4, (Chip.ofLine line).isSome = decide (line.toNat < 9) := by
  decide

theorem Chip.line_of_ofLine : ∀ (line : BitVec 4) (c : Chip), Chip.ofLine line = some c → c.line = line := by
  intro line c h
  have h9 : ∀ l : BitVec 4, (Chip.ofLine l).map Chip.line = if l.toNat < 9 then some l else none := by decide
  have := h9 line
  rw [h] at this
  split at this
  · simpa using this
  · simp at this

/-- A word that reads as an exchange is the exchange's word. -/
theorem decodeOnBus_xferWord (c : Cfg) (kind : Option ChipKind) (b : Byte) :
    decodeOnBus c kind (xferWord b) = .ok ((kind.bind (fun k => decodeCommand c k b)).getD (.xfer b)) := by
  simp [decodeOnBus, decodeStimulus_xferWord]

/-- What a chip's command table can answer: one of its own rows. -/
theorem decodeCommand_mem {c : Cfg} {kind : ChipKind} {b : Byte} {i : Instr} (hk : kind ≠ .bp)
    (h : decodeCommand c kind b = some i) : (b, i) ∈ commandTable c kind := by
  have hf : ((commandTable c kind).find? (fun row => row.1 = b)).map Prod.snd = some i := by
    cases kind <;> first | exact absurd rfl hk | exact h
  obtain ⟨row, hrow, rfl⟩ := Option.map_eq_some_iff.1 hf
  have hb := List.find?_some hrow
  simp only [decide_eq_true_eq] at hb
  subst hb
  exact List.mem_of_find?_eq_some hrow

end Sys2Proof
end

