-- ==== Sys2Proof/Laws/Ops.lean ====
section
/-! SUPPORT. What the arbiter's shared operations can do: selection, de-selection, a tick, a handler's operation. -/

namespace Sys2Proof.Machine

/-- `select()` of one chip, by chip: only protocol cursors are written (R138). -/
theorem selectChip_frame (c : Chip) (s : State) :
    (selectChip c s).cfg = s.cfg ∧ (selectChip c s).sel = s.sel ∧ (selectChip c s).ee.address = s.ee.address ∧
      (selectChip c s).ee.store = s.ee.store ∧ (selectChip c s).rtc.ctrl1 = s.rtc.ctrl1 ∧
      (selectChip c s).rtc.ctrl2 = s.rtc.ctrl2 ∧ (selectChip c s).rtc.offset = s.rtc.offset ∧
      (selectChip c s).bp.shift = s.bp.shift ∧ (selectChip c s).bp.display = s.bp.display ∧
      (∀ k, ∃ p, (selectChip c s).io.get k = { s.io.get k with ps := p }) ∧
      (∀ k, ∃ p, (selectChip c s).adc.get k = { s.adc.get k with ps := p }) ∧
      (∀ k, ∃ p, (selectChip c s).dac.get k = { s.dac.get k with ps := p }) ∧
      (selectChip c s).env = s.env ∧ (selectChip c s).inputs = s.inputs ∧ (selectChip c s).scripts = s.scripts ∧
      (selectChip c s).trace = s.trace ∧ (selectChip c s).draws = s.draws := by
  cases c <;> refine ⟨rfl, rfl, rfl, rfl, rfl, rfl, rfl, rfl, rfl, ?_, ?_, ?_, rfl, rfl, rfl, rfl, rfl⟩
  all_goals
    intro j
    first
      | exact ⟨_, rfl⟩
      | (simp only [selectChip, State.setIo_io, State.setAdc_adc, State.setDac_dac, Pair.get_set]
         split
         · next h => subst h; exact ⟨_, rfl⟩
         · exact ⟨_, rfl⟩)

/-- All a `CS` can do (R130 to R133). -/
theorem csWrite_cases (c : Chip) (level : Level) (s : State) :
    (level = s.cfg.csActive.get c ∧ csWrite c level s = selectChip c (s.setSel (some c))) ∨
      (level ≠ s.cfg.csActive.get c ∧ s.sel = some c ∧ csWrite c level s = s.setSel none) ∨
      (level ≠ s.cfg.csActive.get c ∧ s.sel ≠ some c ∧ csWrite c level s = s) := by
  unfold csWrite asserted
  by_cases h : level = s.cfg.csActive.get c
  · exact .inl ⟨h, by simp [h]⟩
  · by_cases hs : s.sel = some c
    · exact .inr (.inl ⟨h, hs, by simp [h, hs]⟩)
    · exact .inr (.inr ⟨h, hs, by simp [h, hs]⟩)

/-- Counting an activation on and off again leaves the counter as it was. -/
theorem depth_add_sub : ∀ d : Fin 5, d + 1 - 1 = d := by decide

theorem leaveTick_enterTick (k : Chan) (s : State) : leaveTick k (enterTick k s) = s := by
  have h : ({ s.adc.get k with depth := (s.adc.get k).depth + 1 - 1 } : Adc) = s.adc.get k := by
    rw [depth_add_sub]
  unfold leaveTick enterTick
  simp only [State.setAdc, Pair.get_set_same, Pair.set_set, h, Pair.set_get]

/-- All a tick can do: be dropped, find nothing pending and leave the state as it was, or deliver (R250, R283). -/
theorem tickWith_cases (run : HandlerOp → State → State) (k : Chan) (s : State) :
    ((s.adc.get k).depth = 4 ∧ tickWith run k s = s) ∨
      ((s.adc.get k).depth.val < 4 ∧ (s.adc.get k).start = false ∧ tickWith run k s = s) ∨
      ((s.adc.get k).depth.val < 4 ∧ (s.adc.get k).start = true ∧
        tickWith run k s = leaveTick k (runHandler run k (takePending k (enterTick k s)))) := by
  have hs : ((enterTick k s).adc.get k).start = (s.adc.get k).start := by simp [enterTick]
  unfold tickWith
  by_cases hd : (s.adc.get k).depth.val < Config.adcDepthMax
  · simp only [hd, if_true, hs]
    cases hst : (s.adc.get k).start
    · exact .inr (.inl ⟨hd, rfl, by simp [leaveTick_enterTick]⟩)
    · exact .inr (.inr ⟨hd, rfl, rfl⟩)
  · refine .inl ⟨?_, by simp [hd]⟩
    have := (s.adc.get k).depth.isLt
    unfold Config.adcDepthMax at hd
    apply Fin.ext
    show (s.adc.get k).depth.val = 4
    omega

/-- A handler run is nothing, or its next script in order (R285). -/
theorem runHandler_cases (run : HandlerOp → State → State) (k : Chan) (s : State) :
    (s.scripts.get k = [] ∧ runHandler run k s = s) ∨
      ∃ ops later, s.scripts.get k = ops :: later ∧
        runHandler run k s = ops.foldl (fun t o => run o t) (s.setScripts k later) := by
  unfold runHandler
  cases h : s.scripts.get k with
  | nil => exact .inl ⟨rfl, rfl⟩
  | cons ops later => exact .inr ⟨ops, later, rfl, rfl⟩

/-- The environment changes an input and nothing else (R53 to R55); time does not decrease (R52). -/
theorem applyEnv_shape (e : EnvOp) (s : State) :
    ∃ x y env, applyEnv e s = { s with io := ⟨x, y⟩, env := env } ∧ s.env.now ≤ env.now ∧
      (∃ p r, x = { s.io.one with pwrgood := p, rpol := r }) ∧ (∃ p r, y = { s.io.two with pwrgood := p, rpol := r }) := by
  cases e with
  | pwrgood k v => cases k <;> exact ⟨_, _, _, rfl, le_refl _, ⟨_, _, rfl⟩, ⟨_, _, rfl⟩⟩
  | rpol k v => cases k <;> exact ⟨_, _, _, rfl, le_refl _, ⟨_, _, rfl⟩, ⟨_, _, rfl⟩⟩
  | advance d => exact ⟨_, _, _, rfl, by simp, ⟨_, _, rfl⟩, ⟨_, _, rfl⟩⟩
  | outEn k v => cases k <;> exact ⟨_, _, _, rfl, le_refl _, ⟨_, _, rfl⟩, ⟨_, _, rfl⟩⟩
  | load k en ohms => cases k <;> exact ⟨_, _, _, rfl, le_refl _, ⟨_, _, rfl⟩, ⟨_, _, rfl⟩⟩
  | rprog k en volts => cases k <;> exact ⟨_, _, _, rfl, le_refl _, ⟨_, _, rfl⟩, ⟨_, _, rfl⟩⟩

/-- An exchange, by what is selected (R134). -/
theorem transferWith_none {tick : Chan → State → State} {s : State} (h : s.sel = none) (b : Byte) :
    transferWith tick b s = (s, 0x00#8) := by
  simp [transferWith, h]

theorem transferWith_some {tick : Chan → State → State} {s : State} {c : Chip} (h : s.sel = some c) (b : Byte) :
    transferWith tick b s = chipTransferWith tick c b s := by
  simp [transferWith, h]

/-- Who is listening, said of the selected chip (R101). -/
theorem listening_eq_some {s : State} {kind : ChipKind} :
    s.listening = some kind ↔ ∃ c, s.sel = some c ∧ s.awaitsCommand c = true ∧ c.kind = kind := by
  unfold State.listening
  cases h : s.sel with
  | none => simp
  | some c =>
    by_cases ha : s.awaitsCommand c = true
    · simp [ha]
    · simp [ha]

end Sys2Proof.Machine
end

