-- ==== Sys2Proof/Laws/PerInstr.lean ====
section
/-! SUPPORT. Facts about every instruction as syntax, one lemma per constructor.

`Carrier`: the stimulus word an instruction travels in reads as the operation on the pins that carries it: itself for
`CS`, `XFER` and `TICK`, the exchange of its byte for a command (R101, R113). -/

namespace Sys2Proof.Laws.Carrier

/-- The operation on the pins that carries an instruction. -/
def carrier (c : Cfg) (i : Instr) : Instr :=
  match encode c i with
  | .stimulus _ => i
  | .command _ b => .xfer b

/-- The family's statement. -/
def Statement (i : Instr) : Prop :=
  ∀ c : Cfg, i.wf = true → decodeStimulus (encodeWord c i) = .ok (carrier c i)

theorem cs (line : BitVec 4) (level : Level) : Statement (.cs line level) := by
  intro c h
  have hl : line.toNat < 9 := by simpa [Instr.wf] using h
  cases level
  · exact decodeStimulus_csWord line false hl
  · exact decodeStimulus_csWord line true hl

theorem xfer (b : Byte) : Statement (.xfer b) := fun _ _ => decodeStimulus_xferWord b
theorem tick (k : Chan) : Statement (.tick k) := fun _ _ => decodeStimulus_tickWord k
theorem eeRead : Statement .eeRead := fun c _ => decodeStimulus_xferWord c.eeCmdRead
theorem eeWrite : Statement .eeWrite := fun c _ => decodeStimulus_xferWord c.eeCmdWrite
theorem eeRdsr : Statement .eeRdsr := fun c _ => decodeStimulus_xferWord c.eeCmdRdsr
theorem rtcRdCtrl : Statement .rtcRdCtrl := fun c _ => decodeStimulus_xferWord c.rtcCmdRdCtrl
theorem rtcWrCtrl : Statement .rtcWrCtrl := fun c _ => decodeStimulus_xferWord c.rtcCmdWrCtrl
theorem rtcRdTime : Statement .rtcRdTime := fun c _ => decodeStimulus_xferWord c.rtcCmdRdTime
theorem rtcWrTime : Statement .rtcWrTime := fun c _ => decodeStimulus_xferWord c.rtcCmdWrTime
theorem bpFrame (b : Byte) : Statement (.bpFrame b) := fun _ _ => decodeStimulus_xferWord b
theorem ioxRead : Statement .ioxRead := fun c _ => decodeStimulus_xferWord c.ioxCmdRead
theorem ioxWrite : Statement .ioxWrite := fun c _ => decodeStimulus_xferWord c.ioxCmdWrite
theorem adcReset : Statement .adcReset := fun c _ => decodeStimulus_xferWord c.adcCmdReset
theorem adcStart : Statement .adcStart := fun c _ => decodeStimulus_xferWord c.adcCmdStart
theorem adcRdata : Statement .adcRdata := fun c _ => decodeStimulus_xferWord c.adcCmdRdata
theorem adcRreg : Statement .adcRreg := fun c _ => decodeStimulus_xferWord c.adcCmdRreg
theorem adcWreg : Statement .adcWreg := fun c _ => decodeStimulus_xferWord c.adcCmdWreg
theorem adcWmode : Statement .adcWmode := fun c _ => decodeStimulus_xferWord c.adcCmdWmode
theorem dacBufA : Statement .dacBufA := fun c _ => decodeStimulus_xferWord c.dacCmdBufA
theorem dacBufB : Statement .dacBufB := fun c _ => decodeStimulus_xferWord c.dacCmdBufB

end Sys2Proof.Laws.Carrier
end

