-- ==== Sys2Proof/Tests/Slice0.lean ====
section
/-! SUPPORT. Small checks of the model, and for every obligation with hypotheses a concrete state that meets them. The
expected results are the examples of the rules named, 95_test_vectors.md, or hand calculation from the rules. -/

namespace Sys2Proof.Tests

open Sys2Proof.Machine

/-- From reset, chip `c` just selected. -/
def on (c : Chip) : State := select c State.reset

/-- The outcome is a next state with property `p`. -/
def gives (o : Host.Outcome State Fault Refusal) (p : State → Bool) : Bool :=
  match o with
  | .next t => p t
  | .fault _ => false
  | .refused _ => false

/-- EEPROM selected, in state `p`, at address `a` and index `j`. -/
def eeAt (p : EePs) (a : Word) (j : Fin 64) : State :=
  let s := on .eeprom
  { s with ee := { s.ee with ps := p, address := a, index := j } }

/-- RTC selected, in state `p`, with the present time `t`. -/
def rtcAt (p : RtcPs) (t : Int) : State :=
  let s := on .rtc
  { s with rtc := { s.rtc with ps := p, offset := t } }

/-- Backplane selected, in state `p`, with `v` shifted in. -/
def bpAt (p : BpPs) (v : Word) : State :=
  let s := on .bp
  { s with bp := { s.bp with ps := p, shift := v } }

/-- IO expander 1 selected, in state `p`, at index `i`, holding `v` in every register. -/
def ioAt (p : IoPs) (i v : Byte) : State :=
  let s := on (.ioexp .one)
  { s with io := s.io.set .one { s.io.one with ps := p, index := i, regs := List.replicate 22 v } }

/-- ADC 1 selected, in state `p`, with cursor `i`, mode `m`, `u_set = 0x1234` and `i_set = 100`. -/
def adcAt (p : AdcPs) (i m : Byte) : State :=
  let s := on (.adc .one)
  let x : Adc := { s.adc.one with ps := p, index := i, uSet := 0x1234#16, iSet := 100#16 }
  { s with adc := s.adc.set .one { x with regs := [m, 0x04#8, 0x10#8, 0x00#8] } }

/-- DAC 1 selected, in state `p`, buffer `which`, high byte 0x80. -/
def dacAt (p : DacPs) (which : Buf) : State :=
  let s := on (.dac .one)
  { s with dac := s.dac.set .one { ps := p, buf := which, msb := 0x80#8 } }

/-- A start pending in ADC 1, with `d` activations in progress and the handler script `l`. -/
def pending (d : Fin 5) (l : List (List HandlerOp)) : State :=
  let s := State.reset
  { s with adc := s.adc.set .one { s.adc.one with start := true, depth := d }, scripts := ⟨l, []⟩ }

/-- Channel 1 with these inputs, converter codes `u` and `i`, and calibration `c`. -/
def channel (c : Cal) (e : ChanEnv) (u i : Word) : State :=
  let s := State.reset
  { s with
    cfg := { s.cfg with cal := ⟨c, c⟩ }
    env := { s.env with ch := s.env.ch.set .one e }
    adc := s.adc.set .one { s.adc.one with uSet := u, iSet := i } }

/-- A load of `r` ohms. -/
def load (r : Rat) : ChanEnv := { outEn := true, loadEn := true, loadR := r, rprog := false, vProgExt := 0 }

/-! ### Well-formedness -/

theorem test_wf_refuses_line_9 : (Instr.cs 9 .low).wf = false := by decide
theorem test_wf_refuses_line_15 : (Instr.cs 15 .high).wf = false := by decide
theorem test_wf_accepts_line_8 : (Instr.cs 8 .high).wf = true := by decide
theorem test_wf_cfg_refuses_equal_commands : ¬ Cfg.Wf { defaultCfg with eeCmdRead := 0x02#8 } := by decide
theorem test_wf_cfg_refuses_equal_positions : ¬ Cfg.Wf { defaultCfg with ioxBitCc := 2 } := by decide
theorem test_wf_cfg_refuses_empty_span : ¬ Cfg.Wf { defaultCfg with dacMax := 0 } := by decide

/-! ### Decoding: words written out bit by bit (R113, R110) -/

theorem test_decode_cs : decodeStimulus 0b0001_0001_0000_0001#16 = .ok (.cs 1 .high) := by decide
theorem test_decode_cs_line_9 : decodeStimulus 0b0001_1001_0000_0000#16 = .error .noSuchLine := by decide
theorem test_decode_cs_fixed : decodeStimulus 0b0001_0000_1000_0000#16 = .error .fixedBitSet := by decide
theorem test_decode_xfer : decodeStimulus 0b0010_0000_1010_0101#16 = .ok (.xfer 0xA5#8) := by decide
theorem test_decode_tick : decodeStimulus 0b0011_0001_0000_0000#16 = .ok (.tick .two) := by decide
theorem test_decode_tick_fixed : decodeStimulus 0b0011_0010_0000_0000#16 = .error .fixedBitSet := by decide
theorem test_decode_eeprom : [0b0000_0011#8, 0b0000_0010#8, 0b0000_0101#8].map (decodeCommand defaultCfg .eeprom) =
    [some .eeRead, some .eeWrite, some .eeRdsr] := by decide
theorem test_decode_rtc :
    [0b1001_0000#8, 0b0001_0000#8, 0b1001_0010#8, 0b0001_0010#8].map (decodeCommand defaultCfg .rtc) =
    [some .rtcRdCtrl, some .rtcWrCtrl, some .rtcRdTime, some .rtcWrTime] := by decide
theorem test_decode_bp : decodeCommand defaultCfg .bp 0b1111_1111#8 = some (.bpFrame 0xFF#8) := by decide
theorem test_decode_ioexp : [0b0100_0001#8, 0b0100_0000#8].map (decodeCommand defaultCfg .ioexp) =
    [some .ioxRead, some .ioxWrite] := by decide
theorem test_decode_adc :
    [0b0000_0110#8, 0b0000_1000#8, 0b0001_0000#8, 0b0010_0110#8, 0b0100_0110#8, 0b0100_0000#8].map
      (decodeCommand defaultCfg .adc) =
    [some .adcReset, some .adcStart, some .adcRdata, some .adcRreg, some .adcWreg, some .adcWmode] := by decide
theorem test_decode_dac : [0b0001_0000#8, 0b0010_0100#8].map (decodeCommand defaultCfg .dac) =
    [some .dacBufA, some .dacBufB] := by decide
theorem test_decode_reads_all_eight_bits : decodeCommand defaultCfg .eeprom 0b1000_0011#8 = none := by decide
theorem test_table_word : decodeTableWord 16 0x1801 = some (.cs 8 .high) ∧ decodeTableWord 8 0x26 = some .adcRreg ∧
    decodeTableWord 8 0x00 = some (.bpFrame 0x00#8) ∧ decodeTableWord 16 0xFFFF = none := by decide
theorem test_fetch_word : gives (step (State.reset.withFetchWord 8 0x26))
    (fun t => decide (t.adc.one.ps = .regRead)) = true := by decide
theorem test_fetch_word_cs : gives (step (State.reset.withFetchWord 16 0x1000))
    (fun t => decide (t.sel = some .eeprom)) = true := by decide

/-! ### One step of each instruction -/

theorem test_cs_rtc_is_active_high : gives (exec (.cs 1 .low) State.reset) (fun t => decide (t.sel = none)) = true ∧
    gives (exec (.cs 1 .high) State.reset) (fun t => decide (t.sel = some .rtc)) = true := by decide
theorem test_cs_other_line_keeps_selection :
    gives (exec (.cs 0 .high) (on .rtc)) (fun t => decide (t.sel = some .rtc)) = true := by decide
/-- R157's corner: the 64th index wraps. -/
theorem test_xfer_eeprom_write_wraps : gives (exec (.xfer 0x5A#8) (eeAt .write 0xFFFF#16 63))
    (fun t => decide (t.ee.index = 0 ∧ t.ee.store = [(65598, 0x5A#8)] ∧ t.ee.address = 0xFFFF#16)) = true := by
  decide
/-- R252: code 0x8000 is remapped to 16383. -/
theorem test_xfer_dac_commit : gives (exec (.xfer 0x00#8) (dacAt .lsb .a))
    (fun t => decide (t.adc.one.uSet = 16383#16 ∧ t.dac.one.ps = .idle)) = true := by decide
theorem test_tick_delivers_once : gives (exec (.tick .one) (pending 0 []))
    (fun t => decide (t.trace = [.drdy .one] ∧ t.adc.one.start = false ∧ t.adc.one.depth = 0)) = true := by decide
/-- A handler that starts again and commits delivers in the nested tick (R289). -/
theorem test_tick_nests : gives
    (exec (.tick .one) (pending 0
      [[.cs (.adc .one) .low, .xfer 0x08#8, .cs (.dac .one) .low, .xfer 0x10#8, .xfer 0x80#8, .xfer 0x00#8], []]))
    (fun t => decide ((t.trace.filter (fun o => o = .drdy .one)).length = 2 ∧ t.adc.one.depth = 0)) = true := by
  decide
theorem test_eeRead : gives (exec .eeRead (on .eeprom)) (fun t => decide (t.ee.ps = .readAddrHigh)) = true := by
  decide
theorem test_eeWrite : gives (exec .eeWrite (on .eeprom)) (fun t => decide (t.ee.ps = .writeAddrHigh)) = true := by
  decide
theorem test_eeRdsr : gives (exec .eeRdsr (on .eeprom)) (fun t => decide (t.ee.ps = .readStatus)) = true := by
  decide
theorem test_rtcRdCtrl : gives (exec .rtcRdCtrl (on .rtc)) (fun t => decide (t.rtc.ps = .rdCtrl1)) = true := by
  decide
theorem test_rtcWrCtrl : gives (exec .rtcWrCtrl (on .rtc)) (fun t => decide (t.rtc.ps = .wrCtrl1)) = true := by
  decide
theorem test_rtcRdTime : gives (exec .rtcRdTime (on .rtc)) (fun t => decide (t.rtc.ps = .rdSeconds)) = true := by
  decide
/-- R180's example, its hour byte. -/
theorem test_rtcRdTime_hour : gives (exec (.xfer 0x00#8) (rtcAt .rdHours 1000000000))
    (fun t => decide (t.trace = [.ret 0x01#8])) = true := by decide
theorem test_rtcWrTime : gives (exec .rtcWrTime (on .rtc)) (fun t => decide (t.rtc.ps = .wrSeconds)) = true := by
  decide
/-- R182's example, at `env.now = 0`. -/
theorem test_rtcWrTime_second : gives (exec (.xfer 0x05#8) (rtcAt .wrSeconds 1000000000))
    (fun t => decide (t.rtc.offset = 999999965)) = true := by decide
theorem test_bpFrame : gives (exec (.bpFrame 0x12#8) (bpAt .high 0xFFFF#16))
    (fun t => decide (t.bp.shift = 0x1200#16 ∧ t.bp.display = 0x0000#16)) = true := by decide
theorem test_bpFrame_commit : gives (exec (.xfer 0x34#8) (bpAt .low 0x1200#16))
    (fun t => decide (t.bp.display = 0x1234#16)) = true := by decide
theorem test_ioxRead : gives (exec .ioxRead (on (.ioexp .two))) (fun t => decide (t.io.two.ps = .rdIndex)) = true := by
  decide
/-- R214's example: stored 0xFF, power good, the three other flags false. -/
theorem test_ioxRead_overlay : gives (exec (.xfer 0x00#8) (ioAt .rdData 0x12#8 0xFF#8))
    (fun t => decide (t.trace = [.ret 0xF1#8])) = true := by decide
theorem test_ioxWrite : gives (exec .ioxWrite (on (.ioexp .one))) (fun t => decide (t.io.one.ps = .wrIndex)) = true := by
  decide
theorem test_ioxWrite_beyond : gives (exec (.xfer 0x81#8) (ioAt .wrData 22#8 0x00#8))
    (fun t => decide (t.io.one.regs = List.replicate 22 0x00#8)) = true := by decide
theorem test_adcReset : gives (exec .adcReset (adcAt .idle 0#8 0x81#8))
    (fun t => decide (t.adc.one = (adcAt .idle 0#8 0x81#8).adc.one)) = true := by decide
theorem test_adcStart : gives (exec .adcStart (on (.adc .two)))
    (fun t => decide (t.adc.two.start = true ∧ t.adc.one.start = false)) = true := by decide
theorem test_adcRdata : gives (exec .adcRdata (on (.adc .one))) (fun t => decide (t.adc.one.ps = .dataMsb)) = true := by
  decide
/-- R243's example. -/
theorem test_adcRdata_low : gives (exec (.xfer 0x00#8) (adcAt .dataLsb 0#8 0xA1#8))
    (fun t => decide (t.trace = [.ret 0x34#8] ∧ t.adc.one.ps = .idle)) = true := by decide
theorem test_adcRreg : gives (exec .adcRreg (on (.adc .one)))
    (fun t => decide (t.adc.one.ps = .regRead ∧ t.adc.one.index = 0x01#8)) = true := by decide
theorem test_adcRreg_beyond : gives (exec (.xfer 0x00#8) (adcAt .regRead 0xFF#8 0x81#8))
    (fun t => decide (t.trace = [.ret 0x00#8] ∧ t.adc.one.index = 0x00#8)) = true := by decide
theorem test_adcWreg : gives (exec .adcWreg (on (.adc .one)))
    (fun t => decide (t.adc.one.ps = .regWrite ∧ t.adc.one.index = 0x01#8)) = true := by decide
theorem test_adcWreg_last : gives (exec (.xfer 0x77#8) (adcAt .regWrite 3#8 0x81#8))
    (fun t => decide (t.adc.one.regs = [0x81#8, 0x04#8, 0x10#8, 0x77#8])) = true := by decide
theorem test_adcWmode : gives (exec .adcWmode (on (.adc .one))) (fun t => decide (t.adc.one.ps = .modeWrite)) = true := by
  decide
theorem test_adcWmode_byte : gives (exec (.xfer 0xB1#8) (adcAt .modeWrite 0#8 0x81#8))
    (fun t => decide (t.adc.one.regs.head? = some 0xB1#8 ∧ t.adc.one.ps = .idle)) = true := by decide
theorem test_dacBufA : gives (exec .dacBufA (on (.dac .one)))
    (fun t => decide (t.dac.one.ps = .msb ∧ t.dac.one.buf = .a)) = true := by decide
theorem test_dacBufB : gives (exec .dacBufB (on (.dac .two)))
    (fun t => decide (t.dac.two.ps = .msb ∧ t.dac.two.buf = .b)) = true := by decide
/-- R254's examples under `Cal_T1`: 10 V, 2 A, 10 ohms is CV with 1 A; 2 ohms is CC with 4 V. -/
theorem test_model_cv : (fun t : State => decide (t.io.one.cv = true ∧ t.io.one.cc = false ∧
    t.adc.one.uMon = 10000#16 ∧ t.adc.one.iMon = 1000#16))
    (updateValues .one (channel calT1 (load 10) 10000#16 2000#16)) = true := by decide +kernel
theorem test_model_cc : (fun t : State => decide (t.io.one.cv = false ∧ t.io.one.cc = true ∧
    t.adc.one.uMon = 4000#16 ∧ t.adc.one.iMon = 2000#16))
    (updateValues .one (channel calT1 (load 2) 10000#16 2000#16)) = true := by decide +kernel
/-- R174's example. -/
theorem test_calendar : breakTime 1000000000 =
    { year := 2001, month := 9, day := 9, hour := 1, minute := 46, second := 40, weekday := 0 } := by decide

/-! ### Concrete states and operands that meet the hypotheses of each obligation, one per clause -/

/-- A word at the pins of the reset state. -/
def atPins (i : Input) : State := { State.reset with inputs := [i] }

theorem witness_StimulusWordsReadExactly : (atPins (.word 0x4000#16)).inputs = [.word 0x4000#16] ∧
    decodeStimulus 0x4000#16 = .error .unknownKind ∧ decodeStimulus 0x1900#16 = .error .noSuchLine ∧
    decodeStimulus 0x1801#16 = .ok (.cs 8 .high) ∧ decodeStimulus 0x20FF#16 = .ok (.xfer 0xFF#8) ∧
    decodeStimulus 0x3100#16 = .ok (.tick .two) := by decide
theorem witness_EncodedInstructionDecodesBack : defaultCfg.Wf ∧ (Instr.cs 8 .high).wf = true ∧
    Instr.dacBufB.wf = true := by decide
theorem witness_InstructionWordIsReadBackOnTheBus : defaultCfg.Wf ∧ (Instr.bpFrame 0xFF#8).wf = true ∧
    (Instr.tick .two).wf = true := by decide
theorem witness_CommandByteIsItsExchange : State.reset.cfg.Wf ∧
    encode State.reset.cfg .adcRdata = .command .adc 0x10#8 ∧
    encode State.reset.cfg (.bpFrame 0x00#8) = .command .bp 0x00#8 := by decide
theorem witness_UnknownCommandByteChangesNothing : (on .eeprom).listening = some .eeprom ∧
    decodeCommand (on .eeprom).cfg .eeprom 0x06#8 = none ∧ (on (.dac .two)).listening = some .dac ∧
    decodeCommand (on (.dac .two)).cfg .dac 0x11#8 = none := by decide
theorem witness_StepRunsTheDecodedInstruction : (atPins (.word 0x1000#16)).inputs = [.word 0x1000#16] ∧
    decodeOnBus defaultCfg (atPins (.word 0x1000#16)).listening 0x1000#16 = .ok (.cs 0 .low) := by decide
theorem witness_StepTakesInputsOfTheEnvironment : State.reset.inputs = [] ∧
    (atPins (.env (.pwrgood .two false))).inputs = [.env (.pwrgood .two false)] ∧
    (atPins (.env (.rpol .one true))).inputs = [.env (.rpol .one true)] ∧
    (atPins (.env (.advance 0))).inputs = [.env (.advance 0)] ∧
    (atPins (.env (.outEn .one true))).inputs = [.env (.outEn .one true)] ∧
    (atPins (.env (.load .one true 10))).inputs = [.env (.load .one true 10)] ∧
    (atPins (.env (.rprog .one true 1))).inputs = [.env (.rprog .one true 1)] ∧
    (atPins (.handler .one [[.xfer 0x08#8]])).inputs = [.handler .one [[.xfer 0x08#8]]] := by decide
theorem witness_NineLinesNameTheNineChips : 9 ≤ (9 : BitVec 4).toNat ∧ 9 ≤ (15 : BitVec 4).toNat := by decide
theorem witness_ActiveLevelSelectsTheChip : Chip.ofLine 1 = some .rtc ∧ .high = State.reset.cfg.csActive.get .rtc ∧
    Chip.ofLine 8 = some (.dac .two) ∧ .low = State.reset.cfg.csActive.get (.dac .two) ∧
    Chip.ofLine 0 = some .eeprom ∧ Chip.ofLine 2 = some .bp ∧ Chip.ofLine 3 = some (.ioexp .one) ∧
    Chip.ofLine 6 = some (.adc .two) := by decide
theorem witness_OtherLevelDeselectsTheChip : Chip.ofLine 1 = some .rtc ∧ (on .rtc).sel = some .rtc ∧
    Level.low ≠ (on .rtc).cfg.csActive.get .rtc := by decide
theorem witness_UnselectedExchangeReturnsZero : State.reset.sel = none := by decide
theorem witness_OperationsAreTotal : (Instr.cs 8 .low).wf = true ∧ (Instr.cs 9 .low).wf = false := by decide
theorem witness_ExchangeReturnsItsByteLast : (dacAt .lsb .a).handlersEmpty ∧
    exec (.xfer 0xFF#8) (dacAt .lsb .a) = .next (xfer 0xFF#8 (dacAt .lsb .a)) ∧
    (∀ k, State.reset.sel = some (.dac k) → (State.reset.dac.get k).ps ≠ .lsb) ∧
    exec (.xfer 0xFF#8) State.reset = .next (xfer 0xFF#8 State.reset) := ⟨by decide, rfl, nofun, rfl⟩
theorem witness_ExchangeTouchesOnlyTheSelectedChip : (adcAt .dataMsb 0#8 0x81#8).sel = some (.adc .one) ∧
    (∀ k, Chip.adc .one ≠ .dac k) ∧
    exec (.xfer 0x00#8) (adcAt .dataMsb 0#8 0x81#8) = .next (xfer 0x00#8 (adcAt .dataMsb 0#8 0x81#8)) :=
  ⟨by decide, nofun, rfl⟩
theorem witness_EepromCommandsTakeEffect : (on .eeprom).cfg.Wf ∧ (on .eeprom).sel = some .eeprom ∧
    (on .eeprom).ee.ps = .idle ∧ (eeAt .readStatus 0#16 0).sel = some .eeprom ∧
    (eeAt .readStatus 0#16 0).ee.ps = .readStatus := by decide
theorem witness_EepromAddressIsAssembledBigEndian : (eeAt .readAddrHigh 0#16 0).sel = some .eeprom ∧
    (eeAt .readAddrHigh 0#16 0).ee.ps = .readAddrHigh ∧ (eeAt .writeAddrHigh 0#16 0).ee.ps = .writeAddrHigh ∧
    (eeAt .readAddrLow 0xFF00#16 63).ee.ps = .readAddrLow ∧
    (eeAt .writeAddrLow 0xFF00#16 63).ee.ps = .writeAddrLow := by decide
theorem witness_EepromReadByteReturnsTheCell : (eeAt .read 0xFFFF#16 63).sel = some .eeprom ∧
    (eeAt .read 0xFFFF#16 63).ee.ps = .read := by decide
theorem witness_EepromWriteByteStoresOneCell : (eeAt .write 0xFFFF#16 63).sel = some .eeprom ∧
    (eeAt .write 0xFFFF#16 63).ee.ps = .write ∧ (eeAt .write 0xFFFF#16 63).cfg.eeBacked = true ∧
    ({ eeAt .write 0#16 0 with cfg := { defaultCfg with eeBacked := false } } : State).cfg.eeBacked = false := by decide
theorem witness_EepromFrameStaysInItsWindow : (eeAt .write 0x0030#16 0).sel = some .eeprom ∧
    (eeAt .write 0x0030#16 0).ee.ps = .write ∧ 0x002F < (eeAt .write 0x0030#16 0).ee.address.toNat ∧
    (eeAt .write 0x0030#16 0).ee.address.toNat + 63 < 0x0070 := by decide
theorem witness_EepromReadsBackWhatAFrameWrote : State.reset.cfg.Wf ∧ State.reset.cfg.eeBacked = true ∧
    (List.replicate 64 0xAB#8).length ≤ 64 ∧
    ({ State.reset with inputs := eeWr defaultCfg 0xFFFF#16 [0xAB#8] ++ eeRd defaultCfg 0xFFFF#16 1 } : State).inputs =
      eeWr defaultCfg 0xFFFF#16 [0xAB#8] ++ eeRd defaultCfg 0xFFFF#16 1 := by decide
theorem witness_StoresThatReadAlikeAreEqual : Memory.wf [(0, 0x01#8), (65598, 0xFF#8)] := by decide
theorem witness_RtcControlRegistersExchange : (on .rtc).cfg.Wf ∧ (on .rtc).sel = some .rtc ∧
    (on .rtc).rtc.ps = .idle ∧ (rtcAt .rdCtrl1 0).rtc.ps = .rdCtrl1 ∧ (rtcAt .rdCtrl2 0).rtc.ps = .rdCtrl2 ∧
    (rtcAt .wrCtrl1 0).rtc.ps = .wrCtrl1 ∧ (rtcAt .wrCtrl2 0).rtc.ps = .wrCtrl2 ∧
    (rtcAt .wrCtrl2 0).sel = some .rtc := by decide
/-- 4102444799 is the last second of 2099, and the next one is the first of 2100. -/
theorem witness_RtcReadChainReturnsThePresentTime : (on .rtc).cfg.Wf ∧ (rtcAt .rdYears 4102444799).sel = some .rtc ∧
    (rtcAt .rdYears 4102444799).rtc.ps = .rdYears ∧ (breakTime (4102444799 + 0)).year = 2099 ∧
    (breakTime (4102444800 + 0)).year = 2100 ∧ (breakTime (946684800 + 0)).year = 2000 ∧
    (breakTime (946684799 + 0)).year = 1999 ∧ (rtcAt .rdSeconds 0).rtc.ps = .rdSeconds := by decide
theorem witness_RtcWriteChainSetsOneFieldAtATime : (on .rtc).cfg.Wf ∧ (rtcAt .wrSeconds 0).sel = some .rtc ∧
    bcdOk 0x59#8 = true ∧ (rtcAt .wrSeconds 0).rtc.ps = .wrSeconds ∧
    Civil.valid { breakTime (0 + 0) with second := fromBcd 0x59#8 } = true ∧
    Civil.valid { breakTime (0 + 0) with minute := fromBcd 0x59#8 } = true ∧
    Civil.valid { breakTime (0 + 0) with hour := fromBcd 0x23#8 } = true ∧
    Civil.valid { breakTime (0 + 0) with day := fromBcd 0x31#8 } = true ∧
    Civil.valid { breakTime (0 + 0) with month := fromBcd 0x12#8 } = true ∧
    Civil.valid { breakTime (0 + 0) with year := 2000 + fromBcd 0x99#8 } = true ∧
    (rtcAt .wrWeekdays 0).rtc.ps = .wrWeekdays := by decide
theorem witness_RtcInvalidWriteLeavesSomeOffset : (rtcAt .wrSeconds 0).sel = some .rtc ∧
    (rtcAt .wrSeconds 0).rtc.ps = .wrSeconds ∧ bcdOk 0x5A#8 = false ∧
    Civil.valid { breakTime (0 + 0) with second := fromBcd 0x60#8 } = false ∧
    Civil.valid { breakTime (0 + 0) with month := fromBcd 0x13#8 } = false ∧
    Civil.valid { breakTime (0 + 0) with day := fromBcd 0x32#8 } = false := by decide
theorem witness_BcdConversionsAreInverse : (0 : Int) ≤ 99 ∧ bcdOk 0x99#8 = true := by decide
theorem witness_CalendarBreaksAndMakesTheSameInstants :
    Civil.valid { year := 2000, month := 2, day := 29, hour := 23, minute := 59, second := 59, weekday := 0 } = true := by
  decide
theorem witness_RtcFieldReadsBackAsWritten : (rtcAt .wrSeconds 0).sel = some .rtc ∧
    (rtcAt .wrSeconds 0).rtc.ps = .wrSeconds ∧ bcdOk 0x59#8 = true ∧ fromBcd 0x59#8 ≤ 59 ∧
    (rtcAt .wrYears 0).rtc.ps = .wrYears ∧
    Civil.valid { breakTime (0 + 0) with year := 2000 + fromBcd 0x99#8 } = true := by decide
theorem witness_BackplaneCommitsOnTheSecondByte : (bpAt .high 0#16).sel = some .bp ∧ (bpAt .high 0#16).bp.ps = .high ∧
    (bpAt .low 0x1200#16).bp.ps = .low ∧ (bpAt .done 0#16).bp.ps = .done := by decide
theorem witness_BackplaneDisplaysItsTwoBytes : (bpAt .high 0xFFFF#16).sel = some .bp ∧
    (bpAt .high 0xFFFF#16).bp.ps = .high := by decide
theorem witness_IoExpanderCommandsTakeEffect : (on (.ioexp .two)).cfg.Wf ∧
    (on (.ioexp .two)).sel = some (.ioexp .two) ∧ ((on (.ioexp .two)).io.get .two).ps = .idle ∧
    (ioAt .rdIndex 0#8 0#8).sel = some (.ioexp .one) ∧ ((ioAt .rdIndex 0#8 0#8).io.get .one).ps = .rdIndex ∧
    ((ioAt .wrIndex 0#8 0#8).io.get .one).ps = .wrIndex := by decide
/-- Index 21 is the last register, 22 the first that is none, 0x12 the overlaid one. -/
theorem witness_IoExpanderReadReturnsTheRegister : (ioAt .rdData 21#8 7#8).sel = some (.ioexp .one) ∧
    ((ioAt .rdData 21#8 7#8).io.get .one).ps = .rdData ∧
    ((ioAt .rdData 21#8 7#8).io.get .one).regs.length = (ioAt .rdData 21#8 7#8).cfg.ioxNregs ∧
    ((ioAt .rdData 21#8 7#8).io.get .one).regs[21]? = some 7#8 ∧ (21#8 : Byte) ≠ defaultCfg.gpioIndex ∧
    (0x12#8 : Byte) = defaultCfg.gpioIndex ∧ ((ioAt .rdData 0x12#8 7#8).io.get .one).regs[0x12]? = some 7#8 ∧
    defaultCfg.ioxNregs ≤ ((ioAt .rdData 22#8 7#8).io.get .one).index.toNat := by decide
theorem witness_OverlayShowsTheFourFlags : defaultCfg.Wf ∧
    (4 : Fin 8) ∉ [defaultCfg.ioxBitPwrgood, defaultCfg.ioxBitRpol, defaultCfg.ioxBitCv, defaultCfg.ioxBitCc] := by
  decide
theorem witness_IoExpanderWriteStoresTheRegister : (ioAt .wrData 22#8 0#8).sel = some (.ioexp .one) ∧
    ((ioAt .wrData 22#8 0#8).io.get .one).ps = .wrData := by decide
theorem witness_IoExpanderKeepsWhatIsWritten : State.reset.cfg.Wf ∧
    (State.reset.io.get .one).regs.length = State.reset.cfg.ioxNregs ∧ (21#8 : Byte).toNat < State.reset.cfg.ioxNregs ∧
    (21#8 : Byte) ≠ State.reset.cfg.gpioIndex ∧
    ({ State.reset with inputs := ioxWr defaultCfg .one 21#8 0xFF#8 ++ ioxRd defaultCfg .one 21#8 } : State).inputs =
      ioxWr defaultCfg .one 21#8 0xFF#8 ++ ioxRd defaultCfg .one 21#8 := by decide
theorem witness_AdcCommandsTakeEffect : (on (.adc .two)).cfg.Wf ∧ (on (.adc .two)).sel = some (.adc .two) ∧
    ((on (.adc .two)).adc.get .two).ps = .idle := by decide
theorem witness_AdcRegisterBytesMoveTheCursor : (adcAt .regRead 255#8 0#8).cfg.Wf ∧
    (adcAt .regRead 255#8 0#8).sel = some (.adc .one) ∧
    ((adcAt .regRead 255#8 0#8).adc.get .one).regs.length = (adcAt .regRead 255#8 0#8).cfg.adcNregs ∧
    ((adcAt .regRead 255#8 0#8).adc.get .one).ps = .regRead ∧
    ((adcAt .regWrite 4#8 0#8).adc.get .one).ps = .regWrite ∧
    ((adcAt .modeWrite 0#8 0#8).adc.get .one).ps = .modeWrite := by decide
theorem witness_AdcResultBytesFollowTheModeRegister : (adcAt .dataMsb 0#8 0x81#8).cfg.Wf ∧
    (adcAt .dataMsb 0#8 0x81#8).sel = some (.adc .one) ∧
    ((adcAt .dataMsb 0#8 0x81#8).adc.get .one).regs[0]? = some defaultCfg.adcModeUMon ∧
    ((adcAt .dataMsb 0#8 0x81#8).adc.get .one).ps = .dataMsb ∧
    ((adcAt .dataLsb 0#8 0xB1#8).adc.get .one).ps = .dataLsb ∧
    ((adcAt .dataLsb 0#8 0xB1#8).adc.get .one).regs[0]? = some defaultCfg.adcModeIMon ∧
    ((adcAt .dataLsb 0#8 0xA1#8).adc.get .one).regs[0]? = some defaultCfg.adcModeUSet ∧
    ((adcAt .dataLsb 0#8 0x91#8).adc.get .one).regs[0]? = some defaultCfg.adcModeISet ∧
    (0x80#8 : Byte) ∉ [defaultCfg.adcModeUMon, defaultCfg.adcModeIMon, defaultCfg.adcModeUSet,
      defaultCfg.adcModeISet] := by decide
/-- CV, CC at equality, and CV at resistance 0, which needs a commanded voltage below 0. -/
theorem witness_LoadedChannelClampsVoltageOrCurrent :
    ((channel calT1 (load 10) 10000#16 2000#16).env.ch.get .one).loadEn = true ∧
    codeToAmps defaultCfg calT1 2000#16 * 10 > codeToVolts defaultCfg calT1 10000#16 ∧ (10 : Rat) ≠ 0 ∧
    codeToAmps defaultCfg calT1 2000#16 * 5 ≤ codeToVolts defaultCfg calT1 10000#16 ∧
    ((channel (.linear (-1) 39 0 5) (load 0) 0#16 0#16).env.ch.get .one).loadR = 0 ∧
    codeToAmps defaultCfg (.linear (-1) 39 0 5) 0#16 * 0 > codeToVolts defaultCfg (.linear (-1) 39 0 5) 0#16 := by
  decide +kernel
theorem witness_UnloadedChannelShowsItsSetPoint : (State.reset.env.ch.get .one).loadEn = false ∧
    (State.reset.env.ch.get .one).outEn = false ∧
    ((channel defaultCal { load 0 with loadEn := false } 1#16 1#16).env.ch.get .one).loadEn = false ∧
    ((channel defaultCal { load 0 with loadEn := false } 1#16 1#16).env.ch.get .one).outEn = true := by decide
theorem witness_LoadNeverExceedsTheSetPoints :
    (fun s : State => s.cfg.adcMin = 0 ∧ s.cfg.adcMax = 32767 ∧ s.cfg.cal.get .one = defaultCal ∧
      (s.env.ch.get .one).loadEn = true ∧ (s.env.ch.get .one).rprog = false ∧
      (s.adc.get .one).uSet.toNat ≤ 32767 ∧ (s.adc.get .one).iSet.toNat ≤ 32767)
      (channel defaultCal (load 10) 32767#16 32767#16) := by decide
theorem witness_DacCodesRemapIntoTheAdcRange : defaultCfg.Wf ∧ (0#16 : Word).toNat = defaultCfg.dacMin ∧
    (0xFFFF#16 : Word).toNat = defaultCfg.dacMax ∧ (2#16 : Word).toNat ≤ (3#16 : Word).toNat := by decide
theorem witness_DacCommandsTakeEffect : (on (.dac .two)).cfg.Wf ∧ (on (.dac .two)).sel = some (.dac .two) ∧
    ((on (.dac .two)).dac.get .two).ps = .idle ∧ (dacAt .msb .a).sel = some (.dac .one) ∧
    ((dacAt .msb .a).dac.get .one).ps = .msb := by decide
theorem witness_DacCommitRunsTheModelThenTicks : (dacAt .lsb .b).sel = some (.dac .one) ∧
    ((dacAt .lsb .b).dac.get .one).ps = .lsb ∧
    (0x80FF#16 : Word).toNat = ((dacAt .lsb .b).dac.get .one).msb.toNat * 256 + (0xFF#8 : Byte).toNat ∧
    ∀ s : State, exec (.tick .one) s = .next (tick .one s) := ⟨by decide, by decide, by decide, fun _ => rfl⟩
theorem witness_TickDeliversAPendingStartOnce : (pending 3 []).scripts.get .one = [] ∧
    ((pending 3 []).adc.get .one).depth.val < 4 ∧ ((pending 3 []).adc.get .one).start = true ∧
    ¬ ((pending 4 []).adc.get .one).depth.val < 4 := by decide
theorem witness_HandlerRunsByTheOrdinaryRules :
    (pending 3 [[.xfer 0x08#8]]).scripts.get .one = [.xfer 0x08#8] :: [] ∧
    ((pending 3 [[.xfer 0x08#8]]).adc.get .one).depth.val < 4 ∧
    ((pending 3 [[.xfer 0x08#8]]).adc.get .one).start = true := by decide
theorem witness_TickAtTheBoundIsDropped : ((pending 4 [[.xfer 0x08#8]]).adc.get .one).depth = 4 := by decide
theorem witness_DepthIsRestoredByEveryOperation :
    exec (.tick .one) (pending 3 [[.xfer 0x08#8]]) = .next (tick .one (pending 3 [[.xfer 0x08#8]])) := rfl
theorem witness_NestingNeverOutgrowsTheCounters : 8 ≤ 9 := by decide
theorem witness_PendingStartIsClearedOnlyByItsDelivery : ((pending 0 []).adc.get .one).start = true ∧
    exec (.tick .one) (pending 0 []) = .next (tick .one (pending 0 [])) := ⟨rfl, rfl⟩
theorem witness_RestartCarriesOnlyTheNonVolatileState : (eeAt .write 1#16 1).cfg = State.reset.cfg ∧
    (eeAt .write 1#16 1).ee.store = State.reset.ee.store ∧ (eeAt .write 1#16 1).rtc.offset = State.reset.rtc.offset := by
  decide
theorem witness_EveryStepKeepsTheInvariant : State.Inv (atPins (.word 0x1000#16)) ∧
    step (atPins (.word 0x1000#16)) = .next (select .eeprom State.reset) := ⟨by decide, rfl⟩
theorem witness_ConfigurationIsFixedAndTimeIsMonotone :
    step (atPins (.env (.advance 5))) = .next (applyEnv (.advance 5) State.reset) := rfl
theorem witness_StoredContentsChangeOnlyByTheirOwnBytes : (eeAt .write 0#16 0).handlersEmpty ∧
    exec (.xfer 0xFF#8) (eeAt .write 0#16 0) = .next (xfer 0xFF#8 (eeAt .write 0#16 0)) ∧
    (xfer 0xFF#8 (eeAt .write 0#16 0)).ee.store ≠ (eeAt .write 0#16 0).ee.store ∧
    (xfer 0xFF#8 (rtcAt .wrCtrl1 0)).rtc.ctrl1 ≠ (rtcAt .wrCtrl1 0).rtc.ctrl1 ∧
    (xfer 0xFF#8 (rtcAt .wrCtrl2 0)).rtc.ctrl2 ≠ (rtcAt .wrCtrl2 0).rtc.ctrl2 ∧
    (xfer 0x05#8 (rtcAt .wrSeconds 0)).rtc.offset ≠ (rtcAt .wrSeconds 0).rtc.offset ∧
    (xfer 0xFF#8 (bpAt .low 0#16)).bp.display ≠ (bpAt .low 0#16).bp.display ∧
    ((xfer 0xFF#8 (ioAt .wrData 0#8 0#8)).io.get .one).regs ≠ ((ioAt .wrData 0#8 0#8).io.get .one).regs ∧
    ((xfer 0xFF#8 (adcAt .regWrite 3#8 0#8)).adc.get .one).regs ≠ ((adcAt .regWrite 3#8 0#8).adc.get .one).regs ∧
    ((xfer 0#8 (dacAt .lsb .a)).adc.get .one).uSet ≠ ((dacAt .lsb .a).adc.get .one).uSet :=
  ⟨by decide, rfl, by decide, by decide, by decide, by decide, by decide, by decide, by decide, by decide⟩
/-- A result byte in a measured mode turns `cc` on. -/
theorem witness_ModeFlagsMoveOnlyWithTheModel :
    (fun s : State => s.handlersEmpty ∧ exec (.xfer 0#8) s = .next (xfer 0#8 s) ∧
      (s.io.get .one).cc = false ∧ ((xfer 0#8 s).io.get .one).cc = true)
      { adcAt .dataMsb 0#8 0x81#8 with env := (channel defaultCal (load 0) 0#16 0#16).env } :=
  ⟨by decide, rfl, by decide, by decide +kernel⟩
theorem test_exchange : (Instr.xfer 0#8).isExchange = true ∧ Instr.dacBufB.isExchange = true ∧
    (Instr.cs 0 .low).isExchange = false ∧ (Instr.tick .two).isExchange = false := by decide

end Sys2Proof.Tests
end

section
/-! PROOFS. What one operation can do, said once: `exec_cases` and `step_cases` by instruction, and `Evolves`, the
elementary changes any operation is made of, whatever handlers nest inside it. The invariants are inductions on
`Evolves`. -/

namespace Sys2Proof.Machine

/-! ### The effect of a command byte -/

/-- All a command byte does to the chip that decodes it, before the reply: its protocol cursor and the small fields that
go with it, never stored contents (R110). -/
inductive CommandEffect (s : State) : State → Prop
  | nothing : CommandEffect s s
  | ee (p : EePs) : CommandEffect s (s.setEe { s.ee with ps := p })
  | rtc (p : RtcPs) : CommandEffect s (s.setRtc { s.rtc with ps := p })
  | bp (b : Byte) : CommandEffect s (s.setBp { s.bp with shift := word b 0x00#8, ps := .low })
  | io (k : Chan) (p : IoPs) : CommandEffect s (s.setIo k { s.io.get k with ps := p })
  | adc (k : Chan) (p : AdcPs) (i : Byte) (st : Bool) (hst : (s.adc.get k).start = true → st = true) :
      CommandEffect s (s.setAdc k { s.adc.get k with ps := p, index := i, start := st })
  | dac (k : Chan) (p : DacPs) (buf : Buf) : CommandEffect s (s.setDac k { s.dac.get k with ps := p, buf := buf })

/-- All an exchange instruction can do: exchange a byte as `XFER` does, or take effect as a command and reply
(R101, R134). -/
def Exchanged (s t : State) : Prop := (∃ b, t = xfer b s) ∨ ∃ u r, CommandEffect s u ∧ t = u.emit (.ret r)

theorem CommandEffect.exchanged {s u : State} (h : CommandEffect s u) (r : Byte) : Exchanged s (u.emit (.ret r)) :=
  .inr ⟨u, r, h, rfl⟩

theorem exchanged_xfer (b : Byte) (s : State) : Exchanged s (xfer b s) := .inl ⟨b, rfl⟩

/-- All an instruction that is not refused can do: a `CS`, a `TICK` or an exchange. -/
theorem exec_cases {i : Instr} {s t : State} (h : exec i s = .next t) :
    (i.isExchange = false ∧ ∃ c level, t = csWrite c level s) ∨ (i.isExchange = false ∧ ∃ k, t = tick k s) ∨
      (i.isExchange = true ∧ Exchanged s t) := by
  cases i
  case cs line level =>
    simp only [exec, execCs] at h
    split at h
    · next c _ => cases h; exact .inl ⟨rfl, c, level, rfl⟩
    · cases h
  case tick k => cases h; exact .inr (.inl ⟨rfl, k, rfl⟩)
  case xfer b => cases h; exact .inr (.inr ⟨rfl, exchanged_xfer b s⟩)
  all_goals refine .inr (.inr ⟨rfl, ?_⟩)
  case eeRead | eeWrite | eeRdsr =>
    simp only [exec, execEeRead, execEeWrite, execEeRdsr] at h
    split at h <;> cases h
    · exact (CommandEffect.ee _).exchanged _
    · exact exchanged_xfer _ s
  case rtcRdCtrl | rtcWrCtrl | rtcRdTime | rtcWrTime =>
    simp only [exec, execRtcRdCtrl, execRtcWrCtrl, execRtcRdTime, execRtcWrTime] at h
    split at h <;> cases h
    · exact (CommandEffect.rtc _).exchanged _
    · exact exchanged_xfer _ s
  case bpFrame b =>
    simp only [exec, execBpFrame] at h
    split at h <;> cases h
    · exact (CommandEffect.bp b).exchanged _
    · exact exchanged_xfer b s
  case ioxRead | ioxWrite =>
    simp only [exec, execIoxRead, execIoxWrite] at h
    split at h <;> cases h
    · exact (CommandEffect.io _ _).exchanged _
    · exact exchanged_xfer _ s
  case adcReset =>
    simp only [exec, execAdcReset] at h
    split at h <;> cases h
    · exact CommandEffect.nothing.exchanged _
    · exact exchanged_xfer _ s
  case adcStart =>
    simp only [exec, execAdcStart] at h
    split at h <;> cases h
    · exact (CommandEffect.adc _ _ _ true fun _ => rfl).exchanged _
    · exact exchanged_xfer _ s
  case adcRdata | adcRreg | adcWreg | adcWmode =>
    simp only [exec, execAdcRdata, execAdcRreg, execAdcWreg, execAdcWmode] at h
    split at h <;> cases h
    · exact (CommandEffect.adc _ _ _ _ id).exchanged _
    · exact exchanged_xfer _ s
  case dacBufA | dacBufB =>
    simp only [exec, execDacBufA, execDacBufB] at h
    split at h <;> cases h
    · exact (CommandEffect.dac _ _ _).exchanged _
    · exact exchanged_xfer _ s

/-! ### Elementary changes -/

/-- A set-point after a change: as it was, or a remapped code (R251, R252). -/
def SetPointMove (cfg : Cfg) (old new : Word) : Prop := new = old ∨ ∃ code, new = dacToAdc cfg code

/-- A change to one component of the state, as the operations make them outside the entry and return of a tick. Each
carries what its writers never break. -/
inductive Move (s : State) : State → Prop
  | sel (c : Option Chip) : Move s (s.setSel c)
  | ee (e : Eeprom) (hstore : e.store = s.ee.store ∨ ∃ a b, e.store = memWrite s.cfg s.ee.store a b) : Move s (s.setEe e)
  | rtc (r : Rtc) : Move s (s.setRtc r)
  | bp (x : Backplane) (hinv : s.bp.Inv → x.Inv) : Move s (s.setBp x)
  | io (k : Chan) (x : IoExp) (hregs : x.regs.length = (s.io.get k).regs.length)
      (hflags : x.cv = (s.io.get k).cv ∧ x.cc = (s.io.get k).cc ∨ ¬(x.cv = true ∧ x.cc = true)) : Move s (s.setIo k x)
  | adc (k : Chan) (x : Adc) (hregs : x.regs.length = (s.adc.get k).regs.length)
      (hdepth : x.depth = (s.adc.get k).depth) (hstart : (s.adc.get k).start = true → x.start = true)
      (hu : SetPointMove s.cfg (s.adc.get k).uSet x.uSet) (hi : SetPointMove s.cfg (s.adc.get k).iSet x.iSet) :
      Move s (s.setAdc k x)
  | dac (k : Chan) (x : Dac) : Move s (s.setDac k x)
  | env (e : Env) (hnow : s.env.now ≤ e.now) : Move s (s.setEnv e)
  | scripts (k : Chan) (ops : List HandlerOp) (later : List (List HandlerOp)) (hnext : s.scripts.get k = ops :: later) :
      Move s (s.setScripts k later)
  | reply (r : Byte) : Move s (s.emit (.ret r))
  | draws (d : Nat) : Move s { s with draws := d }

/-- What an operation does, with every handler it runs: elementary changes in sequence, and activations, whose body
stands between the counting on and the counting off of R250. -/
inductive Evolves : State → State → Prop
  | refl (s : State) : Evolves s s
  | move {s t : State} (h : Move s t) : Evolves s t
  | trans {s t u : State} (hst : Evolves s t) (htu : Evolves t u) : Evolves s u
  | activation {s u : State} (k : Chan) (body : Evolves (takePending k (enterTick k s)) u) : Evolves s (leaveTick k u)

theorem CommandEffect.evolves {s u : State} (h : CommandEffect s u) : Evolves s u := by
  cases h with
  | nothing => exact .refl s
  | ee p => exact .move (.ee _ (.inl rfl))
  | rtc p => exact .move (.rtc _)
  | bp b => exact .move (.bp _ fun _ _ => lo8_word b _)
  | io k p => exact .move (.io k _ rfl (.inl ⟨rfl, rfl⟩))
  | adc k p i st hst => exact .move (.adc k _ rfl rfl hst (.inl rfl) (.inl rfl))
  | dac k p buf => exact .move (.dac k _)

theorem selectChip_evolves (c : Chip) (s : State) : Evolves s (selectChip c s) := by
  cases c with
  | eeprom => exact .move (.ee _ (.inl rfl))
  | rtc => exact .move (.rtc _)
  | bp => exact .move (.bp _ fun _ h => by cases h)
  | ioexp k => exact .move (.io k _ rfl (.inl ⟨rfl, rfl⟩))
  | adc k => exact .move (.adc k _ rfl rfl id (.inl rfl) (.inl rfl))
  | dac k => exact .move (.dac k _)

theorem csWrite_evolves (c : Chip) (level : Level) (s : State) : Evolves s (csWrite c level s) := by
  rcases csWrite_cases c level s with ⟨-, h⟩ | ⟨-, -, h⟩ | ⟨-, -, h⟩ <;> rw [h]
  · exact .trans (.move (.sel _)) (selectChip_evolves c _)
  · exact .move (.sel none)
  · exact .refl s

theorem applyEnv_evolves (e : EnvOp) (s : State) : Evolves s (applyEnv e s) := by
  cases e with
  | pwrgood k v => exact .move (.io k _ rfl (.inl ⟨rfl, rfl⟩))
  | rpol k v => exact .move (.io k _ rfl (.inl ⟨rfl, rfl⟩))
  | advance d => exact .move (.env _ (by simp))
  | outEn k v => exact .move (.env _ le_rfl)
  | load k en ohms => exact .move (.env _ le_rfl)
  | rprog k en volts => exact .move (.env _ le_rfl)

theorem updateValues_evolves (k : Chan) (s : State) : Evolves s (updateValues k s) := by
  obtain ⟨cv, cc, u, i, d, hflags, h⟩ := updateValues_shape k s
  rw [h]
  exact .trans (.move (.io k { s.io.get k with cv := cv, cc := cc } rfl (.inr hflags)))
    (.trans (.move (.adc k { s.adc.get k with uMon := u, iMon := i } rfl rfl id (.inl rfl) (.inl rfl)))
      (.move (.draws d)))

theorem setSetPoint_evolves (k : Chan) (buf : Buf) (code : Word) (s : State) :
    Evolves s (setSetPoint k buf (dacToAdc s.cfg code) s) := by
  cases buf with
  | a => exact .move (.adc k _ rfl rfl id (.inr ⟨code, rfl⟩) (.inl rfl))
  | b => exact .move (.adc k _ rfl rfl id (.inl rfl) (.inr ⟨code, rfl⟩))

/-! ### Every operation evolves -/

theorem eeTransfer_evolves (b : Byte) (s : State) : Evolves s (eeTransfer b s).1 := by
  obtain ⟨e, h, hstore⟩ := eeTransfer_shape b s
  rw [h]
  exact .move (.ee e (hstore.imp_right fun hw => ⟨_, _, hw.2⟩))

theorem rtcTransfer_evolves (b : Byte) (s : State) : Evolves s (rtcTransfer b s).1 := by
  obtain ⟨r, d, h, -⟩ := rtcTransfer_shape b s
  rw [h]
  exact .trans (.move (.rtc r)) (.move (.draws d))

theorem bpTransfer_evolves (b : Byte) (s : State) : Evolves s (bpTransfer b s).1 := by
  obtain ⟨x, h, hx, -⟩ := bpTransfer_shape b s
  rw [h]
  refine .move (.bp x fun hinv hlow => ?_)
  rcases hx with rfl | hdone | hlo
  · exact hinv hlow
  · cases hdone.symm.trans hlow
  · exact hlo

theorem ioxTransfer_evolves (k : Chan) (b : Byte) (s : State) : Evolves s (ioxTransfer k b s).1 := by
  obtain ⟨ps, i, regs, h, hlen, -⟩ := ioxTransfer_shape k b s
  rw [h]
  exact .move (.io k _ hlen (.inl ⟨rfl, rfl⟩))

theorem updateValues_adc (k : Chan) (s : State) :
    ∃ u i, (updateValues k s).adc = s.adc.set k { s.adc.get k with uMon := u, iMon := i } := by
  obtain ⟨_, _, u, i, _, -, h⟩ := updateValues_shape k s
  exact ⟨u, i, by rw [h]⟩

theorem adcTransfer_evolves (k : Chan) (b : Byte) (s : State) : Evolves s (adcTransfer k b s).1 := by
  obtain ⟨t, ps, i, regs, st, h, hlen, -, hst, ht⟩ := adcTransfer_shape k b s
  rw [h]
  rcases ht with rfl | ⟨rfl, -⟩
  · exact .move (.adc k _ hlen rfl hst (.inl rfl) (.inl rfl))
  · obtain ⟨u, i', hadc⟩ := updateValues_adc k s
    refine .trans (updateValues_evolves k s) (.move (.adc k _ ?_ rfl ?_ (.inl rfl) (.inl rfl)))
    · simpa [hadc] using hlen
    · simpa [hadc] using hst

/-- A tick as the chips' transfers are given it: whatever it does, the state evolves. -/
def TickEvolves (tick : Chan → State → State) : Prop := ∀ k s, Evolves s (tick k s)

theorem dacTransferWith_evolves {tick : Chan → State → State} (htick : TickEvolves tick) (k : Chan) (b : Byte)
    (s : State) : Evolves s (dacTransferWith tick k b s).1 := by
  rcases dacTransfer_shape tick k b s with ⟨x, h⟩ | ⟨-, h⟩ <;> rw [h]
  · exact .move (.dac k x)
  · exact .trans (.move (.dac k _))
      (.trans (setSetPoint_evolves k _ _ _) (.trans (updateValues_evolves k _) (htick k _)))

theorem xferWith_evolves {tick : Chan → State → State} (htick : TickEvolves tick) (b : Byte) (s : State) :
    Evolves s (xferWith tick b s) := by
  refine .trans ?_ (.move (.reply _))
  unfold transferWith
  split
  · exact .refl s
  · next c _ =>
    cases c with
    | eeprom => exact eeTransfer_evolves b s
    | rtc => exact rtcTransfer_evolves b s
    | bp => exact bpTransfer_evolves b s
    | ioexp k => exact ioxTransfer_evolves k b s
    | adc k => exact adcTransfer_evolves k b s
    | dac k => exact dacTransferWith_evolves htick k b s

theorem runHandlerOp_evolves {tick : Chan → State → State} (htick : TickEvolves tick) (o : HandlerOp) (s : State) :
    Evolves s (runHandlerOp tick o s) := by
  cases o with
  | cs c level => exact csWrite_evolves c level s
  | xfer b => exact xferWith_evolves htick b s
  | env e => exact applyEnv_evolves e s

theorem foldl_evolves {run : HandlerOp → State → State} (hrun : ∀ o s, Evolves s (run o s)) (ops : List HandlerOp)
    (s : State) : Evolves s (ops.foldl (fun t o => run o t) s) := by
  induction ops generalizing s with
  | nil => exact .refl s
  | cons o ops ih => exact .trans (hrun o s) (ih (run o s))

theorem tickWith_evolves {run : HandlerOp → State → State} (hrun : ∀ o s, Evolves s (run o s)) (k : Chan)
    (s : State) : Evolves s (tickWith run k s) := by
  rcases tickWith_cases run k s with ⟨-, h⟩ | ⟨-, -, h⟩ | ⟨-, -, h⟩ <;> rw [h]
  · exact .refl s
  · exact .refl s
  · refine .activation k ?_
    rcases runHandler_cases run k (takePending k (enterTick k s)) with ⟨-, hr⟩ | ⟨ops, later, hnext, hr⟩ <;> rw [hr]
    · exact .refl _
    · exact .trans (.move (.scripts k ops later hnext)) (foldl_evolves hrun ops _)

theorem adcTick_evolves (n : Nat) : TickEvolves (adcTick n) := by
  induction n with
  | zero => exact fun _ s => .refl s
  | succ n ih => exact fun k s => tickWith_evolves (runHandlerOp_evolves ih) k s

theorem Exchanged.evolves {s t : State} (h : Exchanged s t) : Evolves s t := by
  rcases h with ⟨b, rfl⟩ | ⟨u, r, hu, rfl⟩
  · exact xferWith_evolves (adcTick_evolves nestBound) b s
  · exact .trans hu.evolves (.move (.reply r))

theorem exec_evolves {i : Instr} {s t : State} (h : exec i s = .next t) : Evolves s t := by
  rcases exec_cases h with ⟨-, c, level, rfl⟩ | ⟨-, k, rfl⟩ | ⟨-, hx⟩
  · exact csWrite_evolves c level s
  · exact adcTick_evolves nestBound k s
  · exact hx.evolves

/-- All a step that is not refused can do: take what waits first and run it, or register a handler (R82, R301). -/
theorem step_cases {s t : State} (h : step s = .next t) :
    ∃ rest, Evolves (s.setInputs rest) t ∨ ∃ k l, t = (s.setInputs rest).setScripts k l := by
  unfold step fetch at h
  cases hin : s.inputs with
  | nil =>
    simp only [hin] at h
    cases h
    refine ⟨[], .inl ?_⟩
    rw [← hin]
    exact .refl s
  | cons input rest =>
    refine ⟨rest, ?_⟩
    cases input with
    | env e => simp only [hin] at h; cases h; exact .inl (applyEnv_evolves e _)
    | handler k l => simp only [hin] at h; cases h; exact .inr ⟨k, l, rfl⟩
    | word w =>
      simp only [hin] at h
      split at h
      · next hf => split at hf <;> cases hf
      · next hf => split at hf <;> cases hf
      · next hf =>
        split at hf <;> cases hf
        exact .inl (exec_evolves h)
      · cases h

end Sys2Proof.Machine
end

section
/-! PROOFS. What holds of the state at reset and at every step: the invariant, the depth counters, the configuration and
the time. -/

namespace Sys2Proof.Machine

/-! ### The depth counters -/

theorem leaveTick_depth {u : State} (k j : Chan) :
    ((leaveTick k u).adc.get j).depth = if j = k then (u.adc.get k).depth - 1 else (u.adc.get j).depth := by
  simp only [leaveTick, State.setAdc_adc, Pair.get_set]
  split <;> rfl

theorem takePending_enterTick_depth (s : State) (k j : Chan) :
    ((takePending k (enterTick k s)).adc.get j).depth =
      if j = k then (s.adc.get k).depth + 1 else (s.adc.get j).depth := by
  by_cases h : j = k <;> simp [takePending, enterTick, Pair.get_set, h]

theorem Evolves.depth {s t : State} (h : Evolves s t) (k : Chan) : (t.adc.get k).depth = (s.adc.get k).depth := by
  induction h with
  | refl => rfl
  | move h =>
    cases h with
    | adc j x _ hdepth =>
      rw [State.setAdc_adc, Pair.get_set]
      split
      · next hk => rw [hk, hdepth]
      · rfl
    | _ => rfl
  | trans _ _ ih₁ ih₂ => exact ih₂.trans ih₁
  | activation j _ ih =>
    rw [takePending_enterTick_depth] at ih
    rw [leaveTick_depth]
    split
    · next hk => subst hk; rw [ih, if_pos rfl, depth_add_sub]
    · next hk => rw [ih, if_neg hk]

/-! ### The configuration and the time -/

theorem Evolves.cfg_now {s t : State} (h : Evolves s t) : t.cfg = s.cfg ∧ s.env.now ≤ t.env.now := by
  induction h with
  | refl => exact ⟨rfl, le_rfl⟩
  | move h =>
    cases h with
    | env e hnow => exact ⟨rfl, hnow⟩
    | _ => exact ⟨rfl, le_rfl⟩
  | trans _ _ ih₁ ih₂ => exact ⟨ih₂.1.trans ih₁.1, ih₁.2.trans ih₂.2⟩
  | activation _ _ ih => exact ih

/-! ### The invariant -/

/-- Of one ADC, at any moment: `Adc.Inv` but for the depth counter, which a tick in progress moves. -/
def Adc.InvInTick (cfg : Cfg) (x : Adc) : Prop :=
  x.regs.length = cfg.adcNregs ∧ setPointOk cfg x.uSet ∧ setPointOk cfg x.iSet

/-- The part of the invariant that holds inside an operation too, while ticks are in progress. -/
structure State.InvInTick (s : State) : Prop where
  cfg : s.cfg.Wf
  image : Memory.wf s.cfg.eeImage
  store : Memory.wf s.ee.store
  bp : s.bp.Inv
  io : ∀ k, (s.io.get k).Inv s.cfg
  adc : ∀ k, (s.adc.get k).InvInTick s.cfg

/-- Between operations the invariant is that part with no tick in progress. -/
theorem State.inv_iff {s : State} : s.Inv ↔ s.InvInTick ∧ ∀ k, (s.adc.get k).depth = 0 := by
  constructor
  · rintro ⟨hcfg, himage, hstore, hbp, hio1, hio2, ⟨hr1, hu1, hi1, hd1⟩, hr2, hu2, hi2, hd2⟩
    refine ⟨⟨hcfg, himage, hstore, hbp, fun k => ?_, fun k => ?_⟩, fun k => ?_⟩ <;> cases k
    exacts [hio1, hio2, ⟨hr1, hu1, hi1⟩, ⟨hr2, hu2, hi2⟩, hd1, hd2]
  · rintro ⟨⟨hcfg, himage, hstore, hbp, hio, hadc⟩, hd⟩
    have adcInv : ∀ k, (s.adc.get k).Inv s.cfg := fun k =>
      ⟨(hadc k).1, (hadc k).2.1, (hadc k).2.2, hd k⟩
    exact ⟨hcfg, himage, hstore, hbp, hio .one, hio .two, adcInv .one, adcInv .two⟩

theorem SetPointMove.ok {cfg : Cfg} {old new : Word} (hcfg : cfg.Wf) (h : SetPointMove cfg old new)
    (hold : setPointOk cfg old) : setPointOk cfg new := by
  rcases h with rfl | ⟨code, rfl⟩
  · exact hold
  · exact .inr (dacToAdc_range hcfg code)

/-- What holds of both things of a pair still does after one is replaced by another it holds of. -/
theorem forall_get_set {α : Type} {P : α → Prop} {p : Pair α} (k : Chan) {v : α} (hv : P v)
    (hp : ∀ j, P (p.get j)) (j : Chan) : P ((p.set k v).get j) := by
  rw [Pair.get_set]
  split
  · exact hv
  · exact hp j

theorem Move.invInTick {s t : State} (h : Move s t) (hs : s.InvInTick) : t.InvInTick := by
  cases h with
  | ee e hstore =>
    refine { hs with store := ?_ }
    rcases hstore with heq | ⟨a, b, heq⟩
    · exact heq ▸ hs.store
    · exact heq ▸ memWrite_wf s.cfg hs.store a b
  | bp x hinv => exact { hs with bp := hinv hs.bp }
  | io k x hregs hflags =>
    refine { hs with io := forall_get_set k ⟨hregs.trans (hs.io k).1, ?_⟩ hs.io }
    rcases hflags with ⟨hcv, hcc⟩ | hne
    · rw [hcv, hcc]; exact (hs.io k).2
    · exact hne
  | adc k x hregs _ _ hu hi =>
    obtain ⟨hlen, huOk, hiOk⟩ := hs.adc k
    exact { hs with adc := forall_get_set k ⟨hregs.trans hlen, hu.ok hs.cfg huOk, hi.ok hs.cfg hiOk⟩ hs.adc }
  | sel | rtc | dac | env | scripts | reply | draws => exact { hs with }

/-- Counting an activation on, taking its start and counting it off touch nothing the invariant inside a tick names. -/
theorem State.InvInTick.setAdc_depth_start {s : State} (hs : s.InvInTick) (k : Chan) (d : Fin 5) (st : Bool) :
    (s.setAdc k { s.adc.get k with depth := d, start := st }).InvInTick :=
  { hs with adc := forall_get_set (P := Adc.InvInTick s.cfg) k (hs.adc k) hs.adc }

theorem Evolves.invInTick {s t : State} (h : Evolves s t) (hs : s.InvInTick) : t.InvInTick := by
  induction h with
  | refl => exact hs
  | move h => exact h.invInTick hs
  | trans _ _ ih₁ ih₂ => exact ih₂ (ih₁ hs)
  | @activation s u k _ ih =>
    have entered : (takePending k (enterTick k s)).InvInTick :=
      { (hs.setAdc_depth_start k ((s.adc.get k).depth + 1) _).setAdc_depth_start k _ false with }
    exact (ih entered).setAdc_depth_start k _ _

theorem Evolves.inv {s t : State} (h : Evolves s t) (hs : s.Inv) : t.Inv := by
  rw [State.inv_iff] at hs ⊢
  exact ⟨h.invInTick hs.1, fun k => (h.depth k).trans (hs.2 k)⟩

/-- Settles O56: what waits at the pins and the handlers are no part of the invariant, and whatever runs evolves. -/
theorem everyStepKeepsTheInvariant : Obligations.EveryStepKeepsTheInvariant := by
  intro s t hs h
  obtain ⟨rest, hev | ⟨k, l, rfl⟩⟩ := step_cases h
  · exact hev.inv hs
  · exact hs

/-- Settles O50, by induction on what the instruction does. -/
theorem depthIsRestoredByEveryOperation : Obligations.DepthIsRestoredByEveryOperation :=
  fun _ _ _ k h => (exec_evolves h).depth k

/-- Settles O57: registering a handler touches neither, and whatever else a step runs evolves. -/
theorem configurationIsFixedAndTimeIsMonotone : Obligations.ConfigurationIsFixedAndTimeIsMonotone := by
  intro s t h
  obtain ⟨rest, hev | ⟨k, l, rfl⟩⟩ := step_cases h
  · exact hev.cfg_now
  · exact ⟨rfl, le_rfl⟩

end Sys2Proof.Machine
end

section
/-! PROOFS. What an exchange, and with no handler at work any instruction, leaves as it was: the frame of each chip's
transfer, and which bytes change stored contents. -/

namespace Sys2Proof.Machine

/-! ### One exchange -/

theorem exec_xfer_selected {s t : State} {b : Byte} {c : Chip} (hsel : s.sel = some c)
    (h : exec (.xfer b) s = .next t) : t = reply (chipTransferWith tick c b s) := by
  cases h
  simp only [xfer, xferWith, transferWith_some hsel]

/-- The whole footprint of a byte to an ADC: that ADC, the two mode flags of its expander and perhaps a draw. -/
theorem adcTransfer_frame (k : Chan) (b : Byte) (s : State) :
    ∃ cv cc x d, (adcTransfer k b s).1 =
      { s with io := s.io.set k { s.io.get k with cv := cv, cc := cc }, adc := s.adc.set k x, draws := d } := by
  obtain ⟨t, ps, i, regs, st, h, -, -, -, ht⟩ := adcTransfer_shape k b s
  rw [h]
  rcases ht with rfl | ⟨rfl, -⟩
  · have hio : t.io.set k { t.io.get k with cv := (t.io.get k).cv, cc := (t.io.get k).cc } = t.io :=
      Pair.set_get t.io k
    exact ⟨_, _, _, t.draws, by rw [hio]; rfl⟩
  · obtain ⟨cv, cc, u, i', d, -, hshape⟩ := updateValues_shape k s
    rw [hshape]
    exact ⟨cv, cc, { s.adc.get k with ps := ps, index := i, regs := regs, uMon := u, iMon := i', start := st }, d,
      by simp [State.setAdc]⟩

/-- Settles O15, chip by chip, from the footprint of its transfer. -/
theorem exchangeTouchesOnlyTheSelectedChip : Obligations.ExchangeTouchesOnlyTheSelectedChip := by
  intro s t b c hsel hdac h
  obtain rfl := exec_xfer_selected hsel h
  cases c with
  | eeprom =>
    obtain ⟨e, h, -⟩ := eeTransfer_shape b s
    simp [reply, chipTransferWith, h]
  | rtc =>
    obtain ⟨r, d, h, -⟩ := rtcTransfer_shape b s
    simp [reply, chipTransferWith, h]
  | bp =>
    obtain ⟨x, h, -⟩ := bpTransfer_shape b s
    simp [reply, chipTransferWith, h]
  | ioexp k =>
    obtain ⟨ps, i, regs, h, -⟩ := ioxTransfer_shape k b s
    have other : ∀ j, k ≠ j → (s.io.set k { s.io.get k with ps := ps, index := i, regs := regs }).get j = s.io.get j :=
      fun j hj => Pair.get_set_other _ hj.symm _
    simpa [reply, chipTransferWith, h] using other
  | adc k =>
    obtain ⟨cv, cc, x, d, h⟩ := adcTransfer_frame k b s
    simp only [reply, chipTransferWith, h]
    refine ⟨rfl, rfl, rfl, rfl, rfl, rfl, ⟨_, rfl⟩, fun _ => rfl, fun _ => rfl, fun _ => rfl, ?_, ?_, ?_⟩
    · intro j hj
      have hjk : j ≠ k := fun e => hj (e ▸ rfl)
      simp [Pair.get_set_other _ hjk]
    · intro j _ hj
      have hjk : j ≠ k := fun e => hj (e ▸ rfl)
      simp [Pair.get_set_other _ hjk]
    · rintro j ⟨⟩
      exact ⟨cv, cc, by simp⟩
  | dac k => exact absurd rfl (hdac k)

/-! ### Stored contents -/

/-- Nothing stored differs: the EEPROM store, the RTC's control registers and offset, the display, the register arrays,
the set-points. -/
structure KeepsStored (s t : State) : Prop where
  store : t.ee.store = s.ee.store
  ctrl1 : t.rtc.ctrl1 = s.rtc.ctrl1
  ctrl2 : t.rtc.ctrl2 = s.rtc.ctrl2
  offset : t.rtc.offset = s.rtc.offset
  display : t.bp.display = s.bp.display
  ioRegs : ∀ k, (t.io.get k).regs = (s.io.get k).regs
  adcRegs : ∀ k, (t.adc.get k).regs = (s.adc.get k).regs
  uSet : ∀ k, (t.adc.get k).uSet = (s.adc.get k).uSet
  iSet : ∀ k, (t.adc.get k).iSet = (s.adc.get k).iSet

/-- What is stored differs, between `s` and `t`, only where a byte given in `s` would be data for it. -/
structure ChangesByOwnByte (s t : State) : Prop where
  store : t.ee.store ≠ s.ee.store → s.sel = some .eeprom ∧ s.ee.ps = .write
  ctrl1 : t.rtc.ctrl1 ≠ s.rtc.ctrl1 → s.sel = some .rtc ∧ s.rtc.ps = .wrCtrl1
  ctrl2 : t.rtc.ctrl2 ≠ s.rtc.ctrl2 → s.sel = some .rtc ∧ s.rtc.ps = .wrCtrl2
  offset : t.rtc.offset ≠ s.rtc.offset → s.sel = some .rtc ∧ s.rtc.ps.writesTime = true
  display : t.bp.display ≠ s.bp.display → s.sel = some .bp ∧ s.bp.ps = .low
  ioRegs : ∀ k, (t.io.get k).regs ≠ (s.io.get k).regs → s.sel = some (.ioexp k) ∧ (s.io.get k).ps = .wrData
  adcRegs : ∀ k, (t.adc.get k).regs ≠ (s.adc.get k).regs →
    s.sel = some (.adc k) ∧ ((s.adc.get k).ps = .regWrite ∨ (s.adc.get k).ps = .modeWrite)
  setPoints : ∀ k, ((t.adc.get k).uSet ≠ (s.adc.get k).uSet ∨ (t.adc.get k).iSet ≠ (s.adc.get k).iSet) →
    s.sel = some (.dac k) ∧ (s.dac.get k).ps = .lsb

theorem KeepsStored.refl (s : State) : KeepsStored s s := by constructor <;> intros <;> rfl

theorem KeepsStored.trans {s t u : State} (h : KeepsStored s t) (h' : KeepsStored t u) : KeepsStored s u where
  store := h'.store.trans h.store
  ctrl1 := h'.ctrl1.trans h.ctrl1
  ctrl2 := h'.ctrl2.trans h.ctrl2
  offset := h'.offset.trans h.offset
  display := h'.display.trans h.display
  ioRegs k := (h'.ioRegs k).trans (h.ioRegs k)
  adcRegs k := (h'.adcRegs k).trans (h.adcRegs k)
  uSet k := (h'.uSet k).trans (h.uSet k)
  iSet k := (h'.iSet k).trans (h.iSet k)

/-- An IO expander replaced by one with the same register array. -/
theorem KeepsStored.setIo (s : State) (k : Chan) {x : IoExp} (h : x.regs = (s.io.get k).regs) :
    KeepsStored s (s.setIo k x) where
  __ := KeepsStored.refl s
  ioRegs j := by
    rw [State.setIo_io, Pair.get_set]
    split
    · next hj => rw [hj, h]
    · rfl

/-- An ADC replaced by one with the same register array and set-points. -/
theorem KeepsStored.setAdc (s : State) (k : Chan) {x : Adc} (hregs : x.regs = (s.adc.get k).regs)
    (hu : x.uSet = (s.adc.get k).uSet) (hi : x.iSet = (s.adc.get k).iSet) : KeepsStored s (s.setAdc k x) := by
  have same : ∀ j, (j = k ∧ ((s.setAdc k x).adc.get j) = x) ∨ (s.setAdc k x).adc.get j = s.adc.get j := by
    intro j
    rw [State.setAdc_adc, Pair.get_set]
    split
    · next hj => exact .inl ⟨hj, rfl⟩
    · exact .inr rfl
  exact { KeepsStored.refl s with
    adcRegs := fun j => by rcases same j with ⟨rfl, h⟩ | h <;> rw [h]; exact hregs
    uSet := fun j => by rcases same j with ⟨rfl, h⟩ | h <;> rw [h]; exact hu
    iSet := fun j => by rcases same j with ⟨rfl, h⟩ | h <;> rw [h]; exact hi }

theorem KeepsStored.setDac (s : State) (k : Chan) (x : Dac) : KeepsStored s (s.setDac k x) := { KeepsStored.refl s with }

theorem KeepsStored.emit (s : State) (o : Output) : KeepsStored s (s.emit o) := { KeepsStored.refl s with }

theorem KeepsStored.enterTick (k : Chan) (s : State) : KeepsStored s (enterTick k s) := setAdc s k rfl rfl rfl

theorem KeepsStored.takePending (k : Chan) (s : State) : KeepsStored s (takePending k s) :=
  (setAdc s k (x := { s.adc.get k with start := false }) rfl rfl rfl).trans (emit _ _)

theorem KeepsStored.leaveTick (k : Chan) (s : State) : KeepsStored s (leaveTick k s) := setAdc s k rfl rfl rfl

theorem KeepsStored.updateValues (k : Chan) (s : State) : KeepsStored s (updateValues k s) := by
  obtain ⟨cv, cc, u, i, d, -, h⟩ := updateValues_shape k s
  rw [h]
  exact { (KeepsStored.setIo s k (x := { s.io.get k with cv := cv, cc := cc }) rfl).trans
    (KeepsStored.setAdc _ k (x := { s.adc.get k with uMon := u, iMon := i }) rfl rfl rfl) with }

theorem KeepsStored.csWrite (c : Chip) (level : Level) (s : State) : KeepsStored s (csWrite c level s) := by
  rcases csWrite_cases c level s with ⟨-, h⟩ | ⟨-, -, h⟩ | ⟨-, -, h⟩ <;> rw [h]
  · obtain ⟨-, -, -, hstore, h1, h2, hoff, -, hdisp, hio, hadc, -⟩ := selectChip_frame c (s.setSel (some c))
    refine ⟨hstore, h1, h2, hoff, hdisp, fun k => ?_, fun k => ?_, fun k => ?_, fun k => ?_⟩
    · obtain ⟨p, h⟩ := hio k
      rw [h]; rfl
    all_goals
      obtain ⟨p, h⟩ := hadc k
      rw [h]; rfl
  · exact { KeepsStored.refl s with }
  · exact .refl s

theorem KeepsStored.command {s u : State} (h : CommandEffect s u) : KeepsStored s u := by
  cases h with
  | io k p => exact .setIo s k rfl
  | adc k p i st => exact .setAdc s k rfl rfl rfl
  | nothing | ee | rtc | bp | dac => exact { KeepsStored.refl s with }

theorem runHandler_nil {run : HandlerOp → State → State} {k : Chan} {s : State} (h : s.scripts.get k = []) :
    runHandler run k s = s := by
  simp [runHandler, h]

/-- With no activation left for its handler, a tick at most delivers the pending start. -/
theorem KeepsStored.adcTick {s : State} {k : Chan} (h : s.scripts.get k = []) (n : Nat) :
    KeepsStored s (adcTick n k s) := by
  cases n with
  | zero => exact .refl s
  | succ n =>
    simp only [Machine.adcTick]
    rcases tickWith_cases (runHandlerOp (Machine.adcTick n)) k s with ⟨-, ht⟩ | ⟨-, -, ht⟩ | ⟨-, -, ht⟩ <;> rw [ht]
    · exact .refl s
    · exact .refl s
    · rw [runHandler_nil (by exact h)]
      exact ((KeepsStored.enterTick k s).trans (.takePending k _)).trans (.leaveTick k _)

theorem KeepsStored.changes {s t : State} (h : KeepsStored s t) : ChangesByOwnByte s t where
  store hne := absurd h.store hne
  ctrl1 hne := absurd h.ctrl1 hne
  ctrl2 hne := absurd h.ctrl2 hne
  offset hne := absurd h.offset hne
  display hne := absurd h.display hne
  ioRegs k hne := absurd (h.ioRegs k) hne
  adcRegs k hne := absurd (h.adcRegs k) hne
  setPoints k hne := hne.elim (absurd (h.uSet k)) (absurd (h.iSet k))

theorem ChangesByOwnByte.then_keeps {s t u : State} (h : ChangesByOwnByte s t) (h' : KeepsStored t u) :
    ChangesByOwnByte s u where
  store := h'.store ▸ h.store
  ctrl1 := h'.ctrl1 ▸ h.ctrl1
  ctrl2 := h'.ctrl2 ▸ h.ctrl2
  offset := h'.offset ▸ h.offset
  display := h'.display ▸ h.display
  ioRegs k := h'.ioRegs k ▸ h.ioRegs k
  adcRegs k := h'.adcRegs k ▸ h.adcRegs k
  setPoints k := h'.uSet k ▸ h'.iSet k ▸ h.setPoints k

/-- An IO expander replaced in a state where a byte is data for its registers, or with the same registers. -/
theorem ChangesByOwnByte.setIo (s : State) (k : Chan) {x : IoExp}
    (h : x.regs = (s.io.get k).regs ∨ s.sel = some (.ioexp k) ∧ (s.io.get k).ps = .wrData) :
    ChangesByOwnByte s (s.setIo k x) where
  __ := (KeepsStored.refl s).changes
  ioRegs j hne := by
    rw [State.setIo_io, Pair.get_set] at hne
    split at hne
    · next hj => subst hj; exact h.resolve_left hne
    · exact absurd rfl hne

/-- An ADC replaced, its registers and set-points each either kept or given a byte that is data for them. -/
theorem ChangesByOwnByte.setAdc (s : State) (k : Chan) {x : Adc}
    (hregs : x.regs = (s.adc.get k).regs ∨
      s.sel = some (.adc k) ∧ ((s.adc.get k).ps = .regWrite ∨ (s.adc.get k).ps = .modeWrite))
    (hset : (x.uSet = (s.adc.get k).uSet ∧ x.iSet = (s.adc.get k).iSet) ∨
      s.sel = some (.dac k) ∧ (s.dac.get k).ps = .lsb) :
    ChangesByOwnByte s (s.setAdc k x) where
  __ := (KeepsStored.refl s).changes
  adcRegs j hne := by
    rw [State.setAdc_adc, Pair.get_set] at hne
    split at hne
    · next hj => subst hj; exact hregs.resolve_left hne
    · exact absurd rfl hne
  setPoints j hne := by
    rw [State.setAdc_adc, Pair.get_set] at hne
    split at hne
    · next hj => subst hj; exact hset.resolve_left fun h => hne.elim (absurd h.1) (absurd h.2)
    · simp at hne

theorem ChangesByOwnByte.setSetPoint {s : State} {k : Chan} (hsel : s.sel = some (.dac k))
    (hps : (s.dac.get k).ps = .lsb) (buf : Buf) (v : Word) : ChangesByOwnByte s (setSetPoint k buf v s) := by
  cases buf with
  | a => exact .setAdc s k (.inl rfl) (.inr ⟨hsel, hps⟩)
  | b => exact .setAdc s k (.inl rfl) (.inr ⟨hsel, hps⟩)

theorem updateValues_scripts (k : Chan) (s : State) : (updateValues k s).scripts = s.scripts := by
  obtain ⟨_, _, _, _, _, -, h⟩ := updateValues_shape k s
  rw [h]

theorem setSetPoint_scripts (k : Chan) (buf : Buf) (v : Word) (s : State) :
    (setSetPoint k buf v s).scripts = s.scripts := by
  cases buf <;> rfl

theorem State.handlersEmpty.scripts_get {s : State} (h : s.handlersEmpty) (k : Chan) : s.scripts.get k = [] := by
  rw [h]
  cases k <;> rfl

theorem setSetPoint_setDac (k : Chan) (buf : Buf) (v : Word) (x : Dac) (s : State) :
    setSetPoint k buf v (s.setDac k x) = (setSetPoint k buf v s).setDac k x := by
  cases buf <;> rfl

/-- After the set-point is held, a commit stores nothing more: the model and a tick without a handler keep it (R251). -/
theorem KeepsStored.setDacValue {s : State} {k : Chan} (h : s.scripts.get k = []) (buf : Buf) (code : Word) :
    KeepsStored (setSetPoint k buf (dacToAdc s.cfg code) s) (setDacValueWith tick k buf code s) :=
  (updateValues k _).trans (adcTick (by rw [updateValues_scripts, setSetPoint_scripts, h]) nestBound)

theorem ChangesByOwnByte.dacTransfer {s : State} {k : Chan} (hsel : s.sel = some (.dac k)) (hq : s.handlersEmpty)
    (b : Byte) : ChangesByOwnByte s (dacTransferWith tick k b s).1 := by
  rcases dacTransfer_shape tick k b s with ⟨x, h⟩ | ⟨hps, h⟩ <;> rw [h]
  · exact (KeepsStored.setDac s k x).changes
  · refine then_keeps ?_ (KeepsStored.setDacValue (s := s.setDac k _) (hq.scripts_get k) _ _)
    rw [setSetPoint_setDac]
    exact (setSetPoint hsel hps _ _).then_keeps (.setDac _ k _)

theorem ChangesByOwnByte.adcTransfer {s : State} {k : Chan} (hsel : s.sel = some (.adc k)) (b : Byte) :
    ChangesByOwnByte s (adcTransfer k b s).1 := by
  obtain ⟨t, ps, i, regs, st, h, -, hregs, -, ht⟩ := adcTransfer_shape k b s
  rw [h]
  rcases ht with rfl | ⟨rfl, -, hps⟩
  · exact .setAdc _ k (hregs.imp_right fun hps => ⟨hsel, hps⟩) (.inl ⟨rfl, rfl⟩)
  · have hkeep := KeepsStored.updateValues k s
    have hsame : regs = (s.adc.get k).regs := hregs.resolve_right (by rcases hps with hp | hp <;> simp [hp])
    exact KeepsStored.changes (hkeep.trans (.setAdc _ k (by exact hsame.trans (hkeep.adcRegs k).symm) rfl rfl))

theorem ChangesByOwnByte.transfer {s : State} (hq : s.handlersEmpty) (b : Byte) :
    ChangesByOwnByte s (transferWith tick b s).1 := by
  unfold transferWith
  split
  · exact (KeepsStored.refl s).changes
  · next c hsel =>
    cases c with
    | eeprom =>
      obtain ⟨e, h, hstore⟩ := eeTransfer_shape b s
      exact h ▸ { (KeepsStored.refl s).changes with
        store := fun hne => ⟨hsel, (hstore.resolve_left hne).1⟩ }
    | rtc =>
      obtain ⟨r, d, h, h1, h2, hoff⟩ := rtcTransfer_shape b s
      exact h ▸ { (KeepsStored.refl s).changes with
        ctrl1 := fun hne => ⟨hsel, h1.resolve_left hne⟩
        ctrl2 := fun hne => ⟨hsel, h2.resolve_left hne⟩
        offset := fun hne => ⟨hsel, hoff.resolve_left hne⟩ }
    | bp =>
      obtain ⟨x, h, -, hdisp⟩ := bpTransfer_shape b s
      exact h ▸ { (KeepsStored.refl s).changes with
        display := fun hne => ⟨hsel, hdisp.resolve_left hne⟩ }
    | ioexp k =>
      obtain ⟨ps, i, regs, h, -, hregs⟩ := ioxTransfer_shape k b s
      exact h ▸ .setIo s k (hregs.imp_right fun hps => ⟨hsel, hps⟩)
    | adc k => exact .adcTransfer hsel b
    | dac k => exact .dacTransfer hsel hq b

theorem Exchanged.changes {s t : State} (hq : s.handlersEmpty) (h : Exchanged s t) : ChangesByOwnByte s t := by
  rcases h with ⟨b, rfl⟩ | ⟨u, r, hu, rfl⟩
  · exact (ChangesByOwnByte.transfer hq b).then_keeps (.emit _ _)
  · exact ((KeepsStored.command hu).trans (.emit u _)).changes

/-- Without a handler, an instruction changes stored contents by their own bytes only, and none if it is no exchange. -/
theorem exec_stored {i : Instr} {s t : State} (hq : s.handlersEmpty) (h : exec i s = .next t) :
    ChangesByOwnByte s t ∧ (¬ KeepsStored s t → i.isExchange = true) := by
  rcases exec_cases h with ⟨-, c, level, rfl⟩ | ⟨-, k, rfl⟩ | ⟨hi, hx⟩
  · have hk := KeepsStored.csWrite c level s
    exact ⟨hk.changes, absurd hk⟩
  · have hk := KeepsStored.adcTick (hq.scripts_get k) nestBound
    exact ⟨hk.changes, absurd hk⟩
  · exact ⟨hx.changes hq, fun _ => hi⟩

theorem RtcPs.mem_writing_of_writesTime {p : RtcPs} (h : p.writesTime = true) :
    p ∈ [.wrSeconds, .wrMinutes, .wrHours, .wrDays, .wrMonths, .wrYears] := by
  revert h
  cases p <;> decide

/-- Settles O58: an instruction that changes stored contents is an exchange, and its byte is data for what changed. -/
theorem storedContentsChangeOnlyByTheirOwnBytes : Obligations.StoredContentsChangeOnlyByTheirOwnBytes := by
  intro i s t hq h
  obtain ⟨hc, hi⟩ := exec_stored hq h
  exact ⟨
    fun hne => ⟨hi fun hk => hne hk.store, hc.store hne⟩,
    fun hne => ⟨hi fun hk => hne hk.ctrl1, hc.ctrl1 hne⟩,
    fun hne => ⟨hi fun hk => hne hk.ctrl2, hc.ctrl2 hne⟩,
    fun hne => ⟨hi fun hk => hne hk.offset, (hc.offset hne).imp_right RtcPs.mem_writing_of_writesTime⟩,
    fun hne => ⟨hi fun hk => hne hk.display, hc.display hne⟩,
    fun k hne => ⟨hi fun hk => hne (hk.ioRegs k), hc.ioRegs k hne⟩,
    fun k hne => ⟨hi fun hk => hne (hk.adcRegs k), hc.adcRegs k hne⟩,
    fun k hne => ⟨hi fun hk => hne.elim (· (hk.uSet k)) (· (hk.iSet k)), hc.setPoints k hne⟩⟩

end Sys2Proof.Machine
end

section
/-! PROOFS. The EEPROM store as data, environment inputs, and the state after a construction. -/

namespace Sys2Proof.Machine

/-! ### The store as data -/

/-- A cell that does not read as unlisted is listed. -/
theorem Memory.mem_of_read_ne {m : Memory} {a : Nat} (h : m.read a ≠ unlistedByte) : (a, m.read a) ∈ m := by
  induction m with
  | nil => exact absurd rfl h
  | cons c m ih =>
    rw [Memory.read] at h ⊢
    split at h
    · next hc => simp [← hc]
    · next hc => rw [if_neg hc]; exact List.mem_cons_of_mem c (ih h)

/-- The cells a canonical store lists are those that do not read as unlisted. -/
theorem Memory.mem_iff_read {m : Memory} (hm : m.wf) {c : Host.Cell} :
    c ∈ m ↔ m.read c.1 = c.2 ∧ c.2 ≠ unlistedByte := by
  constructor
  · exact fun hc => ⟨Memory.read_of_mem hm.1 hc, (hm.2 c hc).2⟩
  · rintro ⟨hread, hne⟩
    simpa [hread] using Memory.mem_of_read_ne (m := m) (a := c.1) (hread ▸ hne)

theorem Memory.nodup {m : Memory} (hm : m.wf) : m.Nodup :=
  hm.1.imp fun hlt heq => hlt.ne (congrArg Prod.fst heq)

/-- Settles O22: stores that read alike list the same cells, in the one rising order. -/
theorem storesThatReadAlikeAreEqual : Obligations.StoresThatReadAlikeAreEqual := by
  intro m n hm hn hread
  have hmem : ∀ c, c ∈ m ↔ c ∈ n := fun c => by rw [Memory.mem_iff_read hm, Memory.mem_iff_read hn, hread]
  have hperm : m.Perm n := (List.perm_ext_iff_of_nodup (Memory.nodup hm) (Memory.nodup hn)).2 hmem
  exact hperm.eq_of_pairwise (fun _ _ _ _ hlt hgt => absurd hlt hgt.asymm) hm.1 hn.1

/-! ### Inputs of the environment -/

theorem step_nil {s : State} (h : s.inputs = []) : step s = .next s := by
  simp [step, fetch, h]

theorem step_env {s : State} {e : EnvOp} {rest : List Input} (h : s.inputs = .env e :: rest) :
    step s = .next (applyEnv e (s.setInputs rest)) := by
  simp [step, fetch, h]

theorem step_handler {s : State} {k : Chan} {l : List (List HandlerOp)} {rest : List Input}
    (h : s.inputs = .handler k l :: rest) : step s = .next ((s.setInputs rest).setScripts k l) := by
  simp [step, fetch, h]

/-- Settles O8, by what a step does with each kind of input. -/
theorem stepTakesInputsOfTheEnvironment : Obligations.StepTakesInputsOfTheEnvironment :=
  ⟨fun _ h => step_nil h, fun _ _ _ _ h => step_env h, fun _ _ _ _ h => step_env h, fun _ _ _ h => step_env h,
    fun _ _ _ _ h => step_env h, fun _ _ _ _ _ h => step_env h, fun _ _ _ _ _ h => step_env h,
    fun _ _ _ _ h => step_handler h⟩

/-! ### The state after a construction -/

/-- Settles O53, by evaluation, channel by channel. -/
theorem resetValuesAreThoseOfTheTable : Obligations.ResetValuesAreThoseOfTheTable := by
  refine ⟨rfl, rfl, rfl, rfl, fun k => ?_, fun k => ?_, fun k => ?_⟩ <;> cases k <;> rfl

theorem State.resetWith_adc_get (c : Cfg) (k : Chan) :
    (State.resetWith c).adc.get k = Adc.reset c.adcNregs := by cases k <;> rfl

/-- Settles O54: `restart` is a construction with a configuration that those three make up. -/
theorem restartCarriesOnlyTheNonVolatileState : Obligations.RestartCarriesOnlyTheNonVolatileState := by
  intro s t hcfg hstore hoffset
  refine ⟨?_, rfl, rfl, rfl, fun k => ?_⟩
  · unfold State.restart
    rw [hcfg, hstore, hoffset]
  · unfold State.restart
    rw [State.resetWith_adc_get]
    exact ⟨rfl, rfl⟩

/-- A construction meets the invariant when its configuration is legal and its image canonical. -/
theorem State.resetWith_inv {c : Cfg} (hc : c.Wf) (himage : Memory.wf c.eeImage) : (State.resetWith c).Inv := by
  have io : (IoExp.reset c.ioxNregs).Inv c := ⟨List.length_replicate, by simp [IoExp.reset]⟩
  have adc : (Adc.reset c.adcNregs).Inv c := ⟨List.length_replicate, .inl rfl, .inl rfl, rfl⟩
  exact ⟨hc, himage, himage, fun h => (by cases h), io, io, adc, adc⟩

theorem defaultCfg_wf : defaultCfg.Wf := by decide

/-- Settles O55, as the construction at the default parameters. -/
theorem resetMeetsTheInvariant : Obligations.ResetMeetsTheInvariant :=
  State.resetWith_inv defaultCfg_wf (by decide)

end Sys2Proof.Machine
end

section
/-! PROOFS. A word at the pins and the lines it can name; then frames of data bytes: the EEPROM's window, the two bytes
of the backplane. -/

namespace Sys2Proof.Machine

/-! ### Stepping and lines -/

/-- A word that the bus reads as an instruction is taken, and the instruction run (R82, R101). -/
theorem step_word {s : State} {w : Word} {rest : List Input} {i : Instr} (h : s.inputs = .word w :: rest)
    (hi : decodeOnBus s.cfg s.listening w = .ok i) : step s = exec i (s.setInputs rest) := by
  simp [step, fetch, h, hi]

/-- Settles O7, as what a step does with a word. -/
theorem stepRunsTheDecodedInstruction : Obligations.StepRunsTheDecodedInstruction :=
  fun _ _ _ _ h hi => step_word h hi

theorem chipOfLine_eq_none {line : BitVec 4} (h : 9 ≤ line.toNat) : Chip.ofLine line = none := by
  rw [← Option.not_isSome_iff_eq_none, Chip.ofLine_isSome, decide_eq_true_eq]
  omega

theorem exec_cs_noSuchLine {line : BitVec 4} (h : Chip.ofLine line = none) (level : Level) (s : State) :
    exec (.cs line level) s = .refused .noSuchLine := by
  simp [exec, execCs, h]

/-- Settles O9: the table of R71 line by line, and no chip for any other line. -/
theorem nineLinesNameTheNineChips : Obligations.NineLinesNameTheNineChips :=
  ⟨rfl, rfl, rfl, rfl, rfl, rfl, rfl, rfl, rfl, fun s _ level h => exec_cs_noSuchLine (chipOfLine_eq_none h) level s⟩

/-- An exchange goes to the selected chip and returns its byte (R134). -/
theorem xfer_selected {s : State} {c : Chip} (hsel : s.sel = some c) (b : Byte) :
    xfer b s = reply (chipTransferWith tick c b s) :=
  exec_xfer_selected hsel rfl

/-! ### The EEPROM's window -/

/-- A `MemWrite` leaves every cell but its own as it was, in a backed store and in an unbacked one (R75, R160). -/
theorem read_memWrite_other (c : Cfg) (m : Memory) {addr : Fin Config.eeSpan} (v : Byte) {a : Nat}
    (h : a ≠ addr.val) : Memory.read (memWrite c m addr v) a = m.read a := by
  unfold memWrite
  split
  · exact Memory.read_write_other m v h
  · rfl

/-- A data byte in `Write` (R157). -/
theorem xfer_ee_write {s : State} (hsel : s.sel = some .eeprom) (hps : s.ee.ps = .write) (b : Byte) :
    xfer b s = (s.setEe { s.ee with
      store := memWrite s.cfg s.ee.store (cellOf s.ee.address s.ee.index) b
      index := s.ee.index + 1 }).emit (.ret 0x00#8) := by
  simp [xfer_selected hsel, chipTransferWith, eeTransfer, hps, eeWriteData, reply]

/-- `t` is where a WRITE frame can stand `n` data bytes after `s`: still in `Write` at the same address, the cursor `n`
further mod 64, every cell outside the window as before (R78, R157, R161). -/
structure WrittenInWindow (n : Nat) (s t : State) : Prop where
  sel : t.sel = some .eeprom
  ps : t.ee.ps = .write
  address : t.ee.address = s.ee.address
  index : t.ee.index.val = (s.ee.index.val + n) % 64
  outside : ∀ a : Nat, (a < s.ee.address.toNat ∨ s.ee.address.toNat + 63 < a) →
    Memory.read t.ee.store a = Memory.read s.ee.store a

theorem WrittenInWindow.refl {s : State} (hsel : s.sel = some .eeprom) (hps : s.ee.ps = .write) :
    WrittenInWindow 0 s s :=
  ⟨hsel, hps, rfl, (Nat.mod_eq_of_lt s.ee.index.isLt).symm, fun _ _ => rfl⟩

theorem WrittenInWindow.trans {m n : Nat} {s t u : State} (h : WrittenInWindow m s t) (h' : WrittenInWindow n t u) :
    WrittenInWindow (m + n) s u where
  sel := h'.sel
  ps := h'.ps
  address := h'.address.trans h.address
  index := by rw [h'.index, h.index, Nat.mod_add_mod, Nat.add_assoc]
  outside a ha := (h'.outside a (h.address ▸ ha)).trans (h.outside a ha)

/-- One byte: the cell it writes is at `address + index`, with an index of at most 63. -/
theorem WrittenInWindow.dataByte {s : State} (hsel : s.sel = some .eeprom) (hps : s.ee.ps = .write) (b : Byte) :
    WrittenInWindow 1 s (xfer b s) := by
  rw [xfer_ee_write hsel hps]
  refine ⟨hsel, hps, rfl, Fin.val_add _ _, fun a ha => read_memWrite_other _ _ _ ?_⟩
  have := s.ee.index.isLt
  rw [cellOf_val]
  omega

theorem WrittenInWindow.foldl_xfer (bytes : List Byte) {s : State} (hsel : s.sel = some .eeprom)
    (hps : s.ee.ps = .write) : WrittenInWindow bytes.length s (bytes.foldl (fun u b => xfer b u) s) := by
  induction bytes generalizing s with
  | nil => exact .refl hsel hps
  | cons b bytes ih =>
    have hb := WrittenInWindow.dataByte hsel hps b
    rw [List.length_cons, Nat.add_comm]
    exact hb.trans (ih hb.sel hb.ps)

/-- Settles O20, by induction on the data bytes. -/
theorem eepromFrameStaysInItsWindow : Obligations.EepromFrameStaysInItsWindow := by
  intro bytes s hsel hps
  obtain ⟨hsel', hps', haddress, hindex, houtside⟩ := WrittenInWindow.foldl_xfer bytes hsel hps
  exact ⟨_, rfl, hsel', hps', haddress, hindex, houtside⟩

/-! ### The backplane's two bytes -/

/-- A low byte ORed into a cleared low half assembles the word (R76, R202). -/
theorem word_zero_or_setWidth (hi lo : Byte) : word hi 0x00#8 ||| lo.setWidth 16 = word hi lo := by
  simp only [word, BitVec.append_def]
  simp

/-- The first byte of a frame (R201). -/
theorem xfer_bp_high {s : State} (hsel : s.sel = some .bp) (hps : s.bp.ps = .high) (b : Byte) :
    xfer b s = (s.setBp { s.bp with shift := word b 0x00#8, ps := .low }).emit (.ret 0x00#8) := by
  simp [xfer_selected hsel, chipTransferWith, bpTransfer, hps, bpHigh, reply]

/-- The second byte of a frame (R202). -/
theorem xfer_bp_low {s : State} (hsel : s.sel = some .bp) (hps : s.bp.ps = .low) (b : Byte) :
    xfer b s = (s.setBp {
      ps := .done
      shift := s.bp.shift ||| b.setWidth 16
      display := s.bp.shift ||| b.setWidth 16 }).emit (.ret 0x00#8) := by
  simp [xfer_selected hsel, chipTransferWith, bpTransfer, hps, bpLow, reply]

/-- Settles O31: the first byte replaces the whole shift register, so the second commits these two bytes alone. -/
theorem backplaneDisplaysItsTwoBytes : Obligations.BackplaneDisplaysItsTwoBytes := by
  intro s hi lo hsel hps
  have hfirst := xfer_bp_high hsel hps hi
  have hsecond := xfer_bp_low (s := xfer hi s) (by simp [hfirst, hsel]) (by simp [hfirst]) lo
  refine ⟨xfer hi s, xfer lo (xfer hi s), rfl, by simp [hfirst], rfl, ?_⟩
  rw [hsecond, hfirst]
  simp [word_zero_or_setWidth, word_toNat]

end Sys2Proof.Machine
end

section
/-! PROOFS. Encoding: the command tables and the three word layouts are read back exactly as they are written; then what
a command byte does on the bus, known to its chip or not. -/

namespace Sys2Proof

/-! ### Reading back what was written -/

/-- The command bytes of one protocol are distinct (R10). -/
theorem commandTable_keys_nodup {c : Cfg} (hc : c.Wf) (kind : ChipKind) :
    ((commandTable c kind).map Prod.fst).Nodup := by
  obtain ⟨hee, hrtc, hiox, hadc, hdac, -⟩ := hc
  cases kind with
  | eeprom => exact hee
  | rtc => exact hrtc
  | bp => exact List.nodup_nil
  | ioexp => exact hiox
  | adc => exact hadc
  | dac => exact hdac

theorem decodeCommand_eq_find? (c : Cfg) {kind : ChipKind} (hkind : kind ≠ .bp) (b : Byte) :
    decodeCommand c kind b = ((commandTable c kind).find? (fun row => row.1 = b)).map Prod.snd := by
  cases kind
  case bp => exact absurd rfl hkind
  all_goals rfl

/-- The other direction of `decodeCommand_mem`: since no two rows share a byte, each row is the one its byte finds. -/
theorem decodeCommand_of_mem {c : Cfg} (hc : c.Wf) {kind : ChipKind} {b : Byte} {i : Instr}
    (h : (b, i) ∈ commandTable c kind) : decodeCommand c kind b = some i := by
  have hkind : kind ≠ .bp := by rintro rfl; cases h
  have hfound : (decodeCommand c kind b).isSome = true := by
    rw [decodeCommand_eq_find? c hkind, Option.isSome_map, List.find?_isSome]
    exact ⟨_, h, decide_eq_true rfl⟩
  obtain ⟨j, hj⟩ := Option.isSome_iff_exists.1 hfound
  have hrow := List.inj_on_of_nodup_map (commandTable_keys_nodup hc kind) (decodeCommand_mem hkind hj) h rfl
  rw [hj, (Prod.mk.inj hrow).2]

/-- A command's byte, to a chip of its protocol, is that command (R110). -/
theorem decodeCommand_of_encode {c : Cfg} (hc : c.Wf) {i : Instr} {kind : ChipKind} {b : Byte}
    (h : encode c i = .command kind b) : decodeCommand c kind b = some i := by
  cases i <;> cases h
  case bpFrame => rfl
  all_goals exact decodeCommand_of_mem hc (by simp [commandTable])

/-- An operation on the pins is read back from its word (R113). -/
theorem decodeStimulus_of_encode {c : Cfg} {i : Instr} {w : Word} (hwf : i.wf = true)
    (h : encode c i = .stimulus w) : decodeStimulus w = .ok i := by
  cases i <;> cases h
  case cs line level => exact Laws.Carrier.cs line level c hwf
  case xfer b => exact decodeStimulus_xferWord b
  case tick k => exact decodeStimulus_tickWord k

/-- Settles O3: a stimulus word by its layout, a command byte by the distinctness of its protocol's bytes. -/
theorem encodedInstructionDecodesBack : Obligations.EncodedInstructionDecodesBack := by
  intro c i hc hwf
  cases h : encode c i with
  | stimulus w => exact decodeStimulus_of_encode hwf h
  | command kind b => simp only [decodeEncoded, decodeCommand_of_encode hc h]

/-- Where no chip awaits a command, a word means what it says (R101, R134). -/
theorem decodeOnBus_none (c : Cfg) (w : Word) : decodeOnBus c none w = decodeStimulus w := by
  unfold decodeOnBus
  split
  · next h => exact h.symm
  · rfl

/-- Settles O4: a command byte travels in an exchange, which the listening chip reads in its own table. -/
theorem instructionWordIsReadBackOnTheBus : Obligations.InstructionWordIsReadBackOnTheBus := by
  intro c i hc hwf
  unfold encodeWord
  cases h : encode c i with
  | stimulus w => exact (decodeOnBus_none c w).trans (decodeStimulus_of_encode hwf h)
  | command kind b =>
    simp [Encoded.listener, Encoded.word, decodeOnBus_xferWord, decodeCommand_of_encode hc h]

/-! ### The three layouts -/

theorem csWord_toNat (line : BitVec 4) (level : Level) :
    (csWord line level).toNat = 0x1000 + 256 * line.toNat + (if level = .high then 1 else 0) := by
  revert line
  cases level <;> decide

theorem xferWord_toNat (b : Byte) : (xferWord b).toNat = 0x2000 + b.toNat := by
  rw [xferWord, BitVec.toNat_append, ← Nat.shiftLeft_add_eq_or_of_lt b.isLt]
  rfl

theorem tickWord_toNat (k : Chan) : (tickWord k).toNat = 0x3000 + (if k = .two then 256 else 0) := by
  cases k <;> rfl

theorem Level.ofBit_eq_high (v : Bool) : Level.ofBit v = .high ↔ v = true := by
  cases v <;> decide

theorem Chan.ofBit_eq_two (k : Bool) : Chan.ofBit k = .two ↔ k = true := by
  cases k <;> decide

/-- A bit field is 0 when its number is. -/
theorem Word.extractLsb'_eq_zero {w : Word} {start len : Nat} :
    w.extractLsb' start len = 0 ↔ w.toNat >>> start % 2 ^ len = 0 := by
  rw [← BitVec.toNat_inj, BitVec.extractLsb'_toNat]
  simp

/-- A bit of a word, by its number. -/
theorem Word.getLsbD_eq_true {w : Word} {n : Nat} : w.getLsbD n = true ↔ w.toNat / 2 ^ n % 2 = 1 := by
  rw [BitVec.getLsbD, Nat.testBit_eq_decide_div_mod_eq, decide_eq_true_eq]

/-- A word of kind 1 that is read is the word of a `CS` on one of the nine lines (R71, R113). -/
theorem decodeCs_ok {w : Word} {i : Instr} (hkind : w.toNat / 4096 = 1) (h : decodeCs w = .ok i) :
    ∃ (line : BitVec 4) (level : Level), line.toNat < 9 ∧ i = .cs line level ∧ w = csWord line level := by
  unfold decodeCs at h
  split at h
  · cases h
  · next hfixed =>
    split at h <;> cases h
    next hline =>
    refine ⟨_, _, hline, rfl, BitVec.eq_of_toNat_eq ?_⟩
    rw [ne_eq, not_not, Word.extractLsb'_eq_zero] at hfixed
    simp only [csWord_toNat, BitVec.extractLsb'_toNat, Level.ofBit_eq_high, Word.getLsbD_eq_true]
    split <;> omega

/-- A word of kind 2 that is read is the word of an `XFER` (R113). -/
theorem decodeXfer_ok {w : Word} {i : Instr} (hkind : w.toNat / 4096 = 2) (h : decodeXfer w = .ok i) :
    ∃ b : Byte, i = .xfer b ∧ w = xferWord b := by
  unfold decodeXfer at h
  split at h <;> cases h
  next hfixed =>
  refine ⟨_, rfl, BitVec.eq_of_toNat_eq ?_⟩
  rw [ne_eq, not_not, Word.extractLsb'_eq_zero] at hfixed
  rw [xferWord_toNat, BitVec.extractLsb'_toNat]
  omega

/-- A word of kind 3 that is read is the word of a `TICK` (R113). -/
theorem decodeTick_ok {w : Word} {i : Instr} (hkind : w.toNat / 4096 = 3) (h : decodeTick w = .ok i) :
    ∃ k : Chan, i = .tick k ∧ w = tickWord k := by
  unfold decodeTick at h
  split at h <;> cases h
  next hfixed =>
  refine ⟨_, rfl, BitVec.eq_of_toNat_eq ?_⟩
  rw [not_or, ne_eq, ne_eq, not_not, not_not, Word.extractLsb'_eq_zero, Word.extractLsb'_eq_zero] at hfixed
  simp only [tickWord_toNat, Chan.ofBit_eq_two, Word.getLsbD_eq_true]
  split <;> omega

/-- A word that is read has one of the three layouts, and reads as its operation (R113). -/
theorem decodeStimulus_ok {w : Word} {i : Instr} (h : decodeStimulus w = .ok i) :
    (∃ (line : BitVec 4) (level : Level), line.toNat < 9 ∧ i = .cs line level ∧ w = csWord line level) ∨
      (∃ b : Byte, i = .xfer b ∧ w = xferWord b) ∨ ∃ k : Chan, i = .tick k ∧ w = tickWord k := by
  have hkind : (w.extractLsb' 12 4).toNat = w.toNat / 4096 := by
    rw [BitVec.extractLsb'_toNat]
    have := w.isLt
    omega
  rw [decodeStimulus, hkind] at h
  split at h
  · next hk => exact .inl (decodeCs_ok hk h)
  · next hk => exact .inr (.inl (decodeXfer_ok hk h))
  · next hk => exact .inr (.inr (decodeTick_ok hk h))
  · cases h

theorem decodeOnBus_error {c : Cfg} {w : Word} {why : Reject} (h : decodeStimulus w = .error why)
    (listening : Option ChipKind) : decodeOnBus c listening w = .error why := by
  simp [decodeOnBus, h]

/-- Settles O1: the reader computes each answer of the tables. -/
theorem specWordsDecode : Obligations.SpecWordsDecode := by
  unfold Obligations.SpecWordsDecode
  decide

end Sys2Proof

namespace Sys2Proof.Machine

/-- A word that is no stimulus is refused, whoever listens (R113). -/
theorem step_badStimulus {s : State} {w : Word} {rest : List Input} {why : Reject} (h : s.inputs = .word w :: rest)
    (hw : decodeStimulus w = .error why) : step s = .refused (.badStimulus why) := by
  simp [step, fetch, h, decodeOnBus_error hw]

/-- Settles O2: a layout's number fixes the word, which is the one its encoder writes. -/
theorem stimulusWordsReadExactly : Obligations.StimulusWordsReadExactly := by
  refine ⟨fun w i => ?_, fun s w rest why h hw => step_badStimulus h hw⟩
  simp only [← csWord_toNat, ← xferWord_toNat, ← tickWord_toNat, BitVec.toNat_inj]
  refine ⟨decodeStimulus_ok, ?_⟩
  rintro (⟨line, level, hline, rfl, rfl⟩ | ⟨b, rfl, rfl⟩ | ⟨k, rfl, rfl⟩)
  · exact Laws.Carrier.cs line level defaultCfg (decide_eq_true hline)
  · exact decodeStimulus_xferWord b
  · exact decodeStimulus_tickWord k

/-! ### A command byte on the bus -/

/-- What chip `c` does on the command `i` of its own protocol, with the byte it returns; nothing, and 0x00, on any other
instruction. -/
def commandOn (c : Chip) (i : Instr) (s : State) : State × Byte :=
  match c, i with
  | .eeprom, .eeRead => eeReadCommand s
  | .eeprom, .eeWrite => eeWriteCommand s
  | .eeprom, .eeRdsr => eeRdsrCommand s
  | .rtc, .rtcRdCtrl => rtcRdCtrlCommand s
  | .rtc, .rtcWrCtrl => rtcWrCtrlCommand s
  | .rtc, .rtcRdTime => rtcRdTimeCommand s
  | .rtc, .rtcWrTime => rtcWrTimeCommand s
  | .bp, .bpFrame b => bpHigh b s
  | .ioexp k, .ioxRead => ioxReadCommand k s
  | .ioexp k, .ioxWrite => ioxWriteCommand k s
  | .adc k, .adcReset => adcResetCommand k s
  | .adc k, .adcStart => adcStartCommand k s
  | .adc k, .adcRdata => adcRdataCommand k s
  | .adc k, .adcRreg => adcRregCommand k s
  | .adc k, .adcWreg => adcWregCommand k s
  | .adc k, .adcWmode => adcWmodeCommand k s
  | .dac k, .dacBufA => dacBufACommand k s
  | .dac k, .dacBufB => dacBufBCommand k s
  | _, _ => (s, 0x00#8)

/-- A chip that awaits a command looks the byte up in its table, and ignores one it does not find (R101, R111). -/
theorem chipTransferWith_awaiting {c : Chip} {s : State} (h : s.awaitsCommand c = true)
    (tick : Chan → State → State) (b : Byte) :
    chipTransferWith tick c b s =
      (decodeCommand s.cfg c.kind b).elim (s, 0x00#8) (fun i => commandOn c i s) := by
  cases c
  case bp =>
    simp only [chipTransferWith, bpTransfer, of_decide_eq_true h]
    rfl
  all_goals
    simp only [chipTransferWith, eeTransfer, rtcTransfer, ioxTransfer, adcTransfer, dacTransferWith,
      of_decide_eq_true h, eeCommand, rtcCommand, ioxCommand, adcCommand, dacCommand, Chip.kind]
    generalize decodeCommand s.cfg _ b = found
    cases found with
    | none => rfl
    | some i => cases i <;> rfl

/-- An exchange with a chip that awaits a command (R101, R111, R134). -/
theorem xfer_awaiting {s : State} {c : Chip} (hsel : s.sel = some c) (h : s.awaitsCommand c = true) (b : Byte) :
    xfer b s = reply ((decodeCommand s.cfg c.kind b).elim (s, 0x00#8) (fun i => commandOn c i s)) := by
  rw [xfer_selected hsel, chipTransferWith_awaiting h]

/-- A command constructor that its chip hears takes effect on that chip (R110). -/
theorem exec_command_heard {s : State} {c : Chip} {i : Instr} {b : Byte} (hsel : s.sel = some c)
    (hl : s.listening = some c.kind) (h : encode s.cfg i = .command c.kind b) :
    exec i s = .next (reply (commandOn c i s)) := by
  cases c with
  | eeprom => cases i <;> cases h <;> exact if_pos hl
  | rtc => cases i <;> cases h <;> exact if_pos hl
  | bp =>
    cases i <;> cases h
    exact if_pos hl
  | ioexp k => cases i <;> cases h <;> simp only [exec, execIoxRead, execIoxWrite, hsel, hl, Chip.kind, commandOn]
  | adc k =>
    cases i <;> cases h <;>
      simp only [exec, execAdcReset, execAdcStart, execAdcRdata, execAdcRreg, execAdcWreg, execAdcWmode, hsel, hl,
        Chip.kind, commandOn]
  | dac k => cases i <;> cases h <;> simp only [exec, execDacBufA, execDacBufB, hsel, hl, Chip.kind, commandOn]

/-- A command constructor that no chip of its protocol hears is the exchange of its byte (log entry 5). -/
theorem exec_command_unheard {s : State} {i : Instr} {kind : ChipKind} {b : Byte} (hl : s.listening ≠ some kind)
    (h : encode s.cfg i = .command kind b) : exec i s = .next (xfer b s) := by
  cases i <;> cases h
  case eeRead | eeWrite | eeRdsr | rtcRdCtrl | rtcWrCtrl | rtcRdTime | rtcWrTime | bpFrame => exact if_neg hl
  all_goals
    simp only [exec, execIoxRead, execIoxWrite, execAdcReset, execAdcStart, execAdcRdata, execAdcRreg, execAdcWreg,
      execAdcWmode, execDacBufA, execDacBufB]
    split
    · next hheard => exact absurd hheard hl
    · rfl

/-- Settles O5: heard, the exchange finds the command in the chip's table; unheard, the constructor is the exchange. -/
theorem commandByteIsItsExchange : Obligations.CommandByteIsItsExchange := by
  intro s i kind b hc h
  by_cases hl : s.listening = some kind
  · obtain ⟨c, hsel, hawaits, rfl⟩ := listening_eq_some.1 hl
    have hxfer : xfer b s = reply (commandOn c i s) := by
      rw [xfer_awaiting hsel hawaits, decodeCommand_of_encode hc h, Option.elim_some]
    exact (exec_command_heard hsel hl h).trans (congrArg _ hxfer.symm)
  · exact exec_command_unheard hl h

/-- Settles O6: the table lookup finds nothing, so the chip answers 0x00 and stays as it was; the bytes of each protocol
are counted one by one. -/
theorem unknownCommandByteChangesNothing : Obligations.UnknownCommandByteChangesNothing := by
  refine ⟨fun s kind b hl hb => ?_, ?_⟩
  · obtain ⟨c, hsel, hawaits, rfl⟩ := listening_eq_some.1 hl
    have hxfer := xfer_awaiting hsel hawaits b
    rw [hb, Option.elim_none] at hxfer
    exact congrArg _ hxfer
  · intro kind
    cases kind <;> decide +kernel

end Sys2Proof.Machine
end

section
/-! PROOFS. The bus: what a level on a line does to the selection, and which outputs an exchange puts out. -/

namespace Sys2Proof.Machine

/-! ### Selection -/

/-- `CS` on a line that names a chip is that chip's selection or de-selection (R71, R130). -/
theorem exec_cs {line : BitVec 4} {c : Chip} (hline : Chip.ofLine line = some c) (level : Level) (s : State) :
    exec (.cs line level) s = .next (csWrite c level s) := by
  simp [exec, execCs, hline]

/-- Settles O10: at the active level `CS` is the chip's `select()`, whose writes are listed chip by chip. -/
theorem activeLevelSelectsTheChip : Obligations.ActiveLevelSelectsTheChip := by
  intro s line c level hline hactive
  rw [exec_cs hline]
  rcases csWrite_cases c level s with ⟨-, hcs⟩ | ⟨hne, -⟩ | ⟨hne, -⟩
  · rw [hcs]
    cases c <;> rfl
  · exact absurd hactive hne
  · exact absurd hactive hne

/-- Settles O11, by whether the line's chip is the selected one. -/
theorem otherLevelDeselectsTheChip : Obligations.OtherLevelDeselectsTheChip := by
  intro s line c level hline hne
  rw [exec_cs hline]
  rcases csWrite_cases c level s with ⟨hactive, -⟩ | ⟨-, hsel, hcs⟩ | ⟨-, hsel, hcs⟩
  · exact absurd hactive hne
  · rw [hcs, if_pos hsel]; rfl
  · rw [hcs, if_neg hsel]

/-! ### Exchanges -/

/-- An exchange with no chip selected returns 0x00 (R135). -/
theorem xfer_none {s : State} (hsel : s.sel = none) (b : Byte) : xfer b s = s.emit (.ret 0x00#8) := by
  simp only [xfer, xferWith, transferWith_none hsel, reply]

/-- Settles O12: the exchange finds no chip to call, so the reply is all it does. -/
theorem unselectedExchangeReturnsZero : Obligations.UnselectedExchangeReturnsZero :=
  fun _ b hsel => congrArg Host.Outcome.next (xfer_none hsel b)

/-- Outputs are only added, and what waits at the pins stays, whatever handlers run. -/
theorem Evolves.trace_inputs {s t : State} (h : Evolves s t) : s.trace <:+ t.trace ∧ t.inputs = s.inputs := by
  induction h with
  | refl => exact ⟨List.suffix_rfl, rfl⟩
  | move h =>
    cases h with
    | reply r => exact ⟨List.suffix_cons _ _, rfl⟩
    | _ => exact ⟨List.suffix_rfl, rfl⟩
  | trans _ _ ih₁ ih₂ => exact ⟨ih₁.1.trans ih₂.1, ih₂.2.trans ih₁.2⟩
  | activation _ _ ih => exact ⟨(List.suffix_cons _ _).trans ih.1, ih.2⟩

/-- With no activation left for its handler, a tick puts out nothing or the one event (R250, R285). -/
theorem adcTick_trace {s : State} {k : Chan} (h : s.scripts.get k = []) (n : Nat) :
    (adcTick n k s).trace = s.trace ∨ (adcTick n k s).trace = .drdy k :: s.trace := by
  cases n with
  | zero => exact .inl rfl
  | succ n =>
    rw [adcTick]
    rcases tickWith_cases (runHandlerOp (adcTick n)) k s with ⟨-, ht⟩ | ⟨-, -, ht⟩ | ⟨-, -, ht⟩ <;> rw [ht]
    · exact .inl rfl
    · exact .inl rfl
    · rw [runHandler_nil (by exact h)]
      exact .inr rfl

/-- With no handler at work, a commit puts out nothing or the one event (R251). -/
theorem setDacValueWith_trace {s : State} {k : Chan} (h : s.scripts.get k = []) (buf : Buf) (code : Word) :
    (setDacValueWith tick k buf code s).trace = s.trace ∨
      (setDacValueWith tick k buf code s).trace = .drdy k :: s.trace := by
  have htrace : (updateValues k (setSetPoint k buf (dacToAdc s.cfg code) s)).trace = s.trace := by
    obtain ⟨_, _, _, _, _, -, hshape⟩ := updateValues_shape k (setSetPoint k buf (dacToAdc s.cfg code) s)
    rw [hshape]
    cases buf <;> rfl
  rw [← htrace]
  exact adcTick_trace (by rw [updateValues_scripts, setSetPoint_scripts, h]) nestBound

/-- The low code byte of a DAC puts out what its commit does: with no handler at work, no byte (R251, R273, R285). -/
theorem dacCommit_trace {s : State} {k : Chan} (hps : (s.dac.get k).ps = .lsb) (b : Byte) :
    ∃ nested, (dacTransferWith tick k b s).1.trace = nested ++ s.trace ∧ (s.handlersEmpty → ∀ r, .ret r ∉ nested) := by
  obtain ⟨nested, hnested⟩ := (dacTransferWith_evolves (adcTick_evolves nestBound) k b s).trace_inputs.1
  refine ⟨nested, hnested.symm, fun hq r hr => ?_⟩
  have hcommit : (dacTransferWith tick k b s).1.trace = s.trace ∨
      (dacTransferWith tick k b s).1.trace = [.drdy k] ++ s.trace := by
    simp only [dacTransferWith, hps]
    exact setDacValueWith_trace (s := s.setDac k _) (hq.scripts_get k) _ _
  rcases hcommit with htrace | htrace
  · rw [List.append_left_eq_self.1 (hnested.trans htrace)] at hr
    simp at hr
  · rw [List.append_cancel_right (hnested.trans htrace)] at hr
    simp at hr

/-- A byte to a chip puts nothing out before its reply, but for the low code byte of a DAC (R134, R251). -/
theorem chipTransfer_trace (tick : Chan → State → State) (c : Chip) (b : Byte) (s : State) :
    (chipTransferWith tick c b s).1.trace = s.trace ∨ ∃ k, c = .dac k ∧ (s.dac.get k).ps = .lsb := by
  cases c with
  | eeprom => obtain ⟨_, h, -⟩ := eeTransfer_shape b s; simp [chipTransferWith, h]
  | rtc => obtain ⟨_, _, h, -⟩ := rtcTransfer_shape b s; simp [chipTransferWith, h]
  | bp => obtain ⟨_, h, -⟩ := bpTransfer_shape b s; simp [chipTransferWith, h]
  | ioexp k => obtain ⟨_, _, _, h, -⟩ := ioxTransfer_shape k b s; simp [chipTransferWith, h]
  | adc k => obtain ⟨_, _, _, _, h⟩ := adcTransfer_frame k b s; simp [chipTransferWith, h]
  | dac k =>
    rcases dacTransfer_shape tick k b s with ⟨_, h⟩ | ⟨hps, -⟩
    · simp [chipTransferWith, h]
    · exact .inr ⟨k, rfl, hps⟩

/-- Settles O14: a chip puts out nothing before the reply unless it is a DAC that commits; the rest holds of whatever
evolves. -/
theorem exchangeReturnsItsByteLast : Obligations.ExchangeReturnsItsByteLast := by
  intro s t b h
  have hevolves := exec_evolves h
  refine ⟨?_, hevolves.cfg_now.1, hevolves.trace_inputs.2⟩
  cases hsel : s.sel with
  | none =>
    cases h
    exact ⟨_, [], by rw [xfer_none hsel]; rfl, fun _ => rfl, by simp⟩
  | some c =>
    obtain rfl := exec_xfer_selected hsel h
    rcases chipTransfer_trace tick c b s with htrace | ⟨k, rfl, hps⟩
    · exact ⟨_, [], congrArg _ htrace, fun _ => rfl, by simp⟩
    · obtain ⟨nested, htrace, hret⟩ := dacCommit_trace hps b
      exact ⟨_, nested, congrArg _ htrace, fun hno => absurd hps (hno k rfl), hret⟩

end Sys2Proof.Machine
end

section
/-! PROOFS. The EEPROM: what each byte does in each protocol state, the frames of R115 run from the pins, and a read
frame after a write frame. -/

namespace Sys2Proof.Machine

/-! ### One byte -/

/-- A command of a selected chip that awaits one takes effect as a constructor and as a byte alike (R101, R110). -/
theorem runsAs_command {s : State} {c : Chip} {i : Instr} {b : Byte} (hc : s.cfg.Wf) (hsel : s.sel = some c)
    (hawaits : s.awaitsCommand c = true) (h : encode s.cfg i = .command c.kind b) :
    RunsAs i b s (reply (commandOn c i s)) := by
  have hexec := exec_command_heard hsel (listening_eq_some.2 ⟨c, hsel, hawaits, rfl⟩) h
  exact ⟨hexec, (commandByteIsItsExchange s i c.kind b hc h).symm.trans hexec⟩

/-- A byte in `ReadStatus` (R158). -/
theorem xfer_ee_readStatus {s : State} (hsel : s.sel = some .eeprom) (hps : s.ee.ps = .readStatus) (b : Byte) :
    xfer b s = s.emit (.ret s.cfg.eeStatusValue) := by
  simp [xfer_selected hsel, chipTransferWith, eeTransfer, hps, eeStatus, reply]

/-- Settles O16: the commands by what their chip does on them, the status byte by its exchange. -/
theorem eepromCommandsTakeEffect : Obligations.EepromCommandsTakeEffect := by
  refine ⟨fun s hc hsel hps => ?_, fun s b hsel hps => congrArg _ (xfer_ee_readStatus hsel hps b)⟩
  have hawaits : s.awaitsCommand .eeprom = true := decide_eq_true hps
  exact ⟨runsAs_command hc hsel hawaits rfl, runsAs_command hc hsel hawaits rfl, runsAs_command hc hsel hawaits rfl⟩

/-- The high address byte, on the way to a read and on the way to a write (R153). -/
theorem xfer_ee_addrHigh {s : State} {p next : EePs} (hsel : s.sel = some .eeprom)
    (hnext : (p, next) ∈ [(EePs.readAddrHigh, EePs.readAddrLow), (.writeAddrHigh, .writeAddrLow)])
    (hps : s.ee.ps = p) (b : Byte) :
    xfer b s = (s.setEe { s.ee with ps := next, address := word b 0x00#8 }).emit (.ret 0x00#8) := by
  simp only [List.mem_cons, Prod.mk.injEq, List.not_mem_nil, or_false] at hnext
  rcases hnext with ⟨rfl, rfl⟩ | ⟨rfl, rfl⟩ <;>
    simp [xfer_selected hsel, chipTransferWith, eeTransfer, hps, eeAddrHigh, reply]

/-- The low address byte, on the way to a read and on the way to a write (R154). -/
theorem xfer_ee_addrLow {s : State} {p next : EePs} (hsel : s.sel = some .eeprom)
    (hnext : (p, next) ∈ [(EePs.readAddrLow, EePs.read), (.writeAddrLow, .write)]) (hps : s.ee.ps = p) (b : Byte) :
    xfer b s =
      (s.setEe { s.ee with ps := next, address := word (hi8 s.ee.address) b, index := 0 }).emit (.ret 0x00#8) := by
  simp only [List.mem_cons, Prod.mk.injEq, List.not_mem_nil, or_false] at hnext
  rcases hnext with ⟨rfl, rfl⟩ | ⟨rfl, rfl⟩ <;>
    simp [xfer_selected hsel, chipTransferWith, eeTransfer, hps, eeAddrLow, reply]

/-- Settles O17: the placed words have the values of R153 and R154. -/
theorem eepromAddressIsAssembledBigEndian : Obligations.EepromAddressIsAssembledBigEndian := by
  intro s b hsel
  refine ⟨fun p q hpq hps => ⟨_, ?_, congrArg _ (xfer_ee_addrHigh hsel hpq hps b)⟩,
    fun p q hpq hps => ⟨_, ?_, congrArg _ (xfer_ee_addrLow hsel hpq hps b)⟩⟩
  · rw [word_toNat, BitVec.toNat_ofNat, Nat.zero_mod, Nat.add_zero]
  · rw [word_toNat, hi8_toNat]

/-- The cursor counts mod 64 (R25, R155, R157). -/
theorem index_succ_val (j : Fin 64) : (j + 1).val = (j.val + 1) % 64 := Fin.val_add j 1

/-- A data byte in `Read` (R155). -/
theorem xfer_ee_read {s : State} (hsel : s.sel = some .eeprom) (hps : s.ee.ps = .read) (b : Byte) :
    xfer b s = (s.setEe { s.ee with index := s.ee.index + 1 }).emit
      (.ret (memRead s.cfg s.ee.store (cellOf s.ee.address s.ee.index))) := by
  simp [xfer_selected hsel, chipTransferWith, eeTransfer, hps, eeReadData, reply]

/-- Settles O18: `MemRead` at the cell of the cursor is the read the statement names. -/
theorem eepromReadByteReturnsTheCell : Obligations.EepromReadByteReturnsTheCell :=
  fun s b hsel hps => ⟨s.ee.index + 1, index_succ_val _, congrArg _ (xfer_ee_read hsel hps b)⟩

/-- Settles O19: the store after the byte is one `MemWrite`, which reaches its own cell and no other. -/
theorem eepromWriteByteStoresOneCell : Obligations.EepromWriteByteStoresOneCell := by
  intro s b hsel hps
  refine ⟨s.ee.index + 1, memWrite s.cfg s.ee.store (cellOf s.ee.address s.ee.index) b, index_succ_val _,
    congrArg _ (xfer_ee_write hsel hps b), fun hbacked => ?_, fun a ha => read_memWrite_other _ _ _ ha,
    fun hbacked => ?_⟩
  · have hread := memRead_memWrite_same hbacked s.ee.store (cellOf s.ee.address s.ee.index) b
    rwa [memRead, if_pos hbacked] at hread
  · simp [memWrite, hbacked]

/-! ### Data bytes of a frame -/

/-- The store after the data bytes of a WRITE frame at address `a`, the first of them at index `j` (R157). -/
def storeBytes (c : Cfg) (a : Word) : Fin 64 → List Byte → Memory → Memory
  | _, [], m => m
  | j, b :: bytes, m => storeBytes c a (j + 1) bytes (memWrite c m (cellOf a j) b)

/-- The bytes that `n` data bytes of a READ frame at address `a` return, the first of them from index `j` (R155). -/
def loadBytes (c : Cfg) (a : Word) (m : Memory) : Fin 64 → Nat → List Byte
  | _, 0 => []
  | j, n + 1 => memRead c m (cellOf a j) :: loadBytes c a m (j + 1) n

/-- Two indices of one window name two cells (R72, R155). -/
theorem cellOf_ne {a : Word} {i j : Fin 64} (h : i ≠ j) : cellOf a i ≠ cellOf a j := by
  intro heq
  have hval := congrArg Fin.val heq
  rw [cellOf_val, cellOf_val] at hval
  exact h (Fin.ext (by omega))

/-- Bytes stored from index `j` on leave the cell at index `i` alone unless one of them comes to that index. -/
theorem memRead_storeBytes_other (c : Cfg) (a : Word) {i j : Fin 64} (bytes : List Byte) (m : Memory)
    (h : ∀ n < bytes.length, (j.val + n) % 64 ≠ i.val) :
    memRead c (storeBytes c a j bytes m) (cellOf a i) = memRead c m (cellOf a i) := by
  induction bytes generalizing j m with
  | nil => rfl
  | cons b bytes ih =>
    have hi : i ≠ j := by
      rintro rfl
      exact h 0 (by simp) (Nat.mod_eq_of_lt i.isLt)
    have hrest : ∀ n < bytes.length, ((j + 1).val + n) % 64 ≠ i.val := fun n hn => by
      have hn' := h (n + 1) (by simpa using hn)
      rw [index_succ_val]
      omega
    rw [storeBytes, ih _ hrest, memRead_memWrite_other c m b (cellOf_ne hi)]

/-- At most 64 bytes stored in a backed store are loaded again, in order: none overwrites another (R161(a)). -/
theorem loadBytes_storeBytes {c : Cfg} (hbacked : c.eeBacked = true) (a : Word) (j : Fin 64) (bytes : List Byte)
    (m : Memory) (hlen : bytes.length ≤ 64) : loadBytes c a (storeBytes c a j bytes m) j bytes.length = bytes := by
  induction bytes generalizing j m with
  | nil => rfl
  | cons b bytes ih =>
    rw [List.length_cons] at hlen
    have hfirst : memRead c (storeBytes c a j (b :: bytes) m) (cellOf a j) = b := by
      rw [storeBytes, memRead_storeBytes_other, memRead_memWrite_same hbacked]
      intro n hn
      rw [index_succ_val]
      omega
    rw [List.length_cons, loadBytes, hfirst, storeBytes, ih (j + 1) _ (by omega)]

/-- Data bytes in `Write` (R157). -/
theorem foldl_xfer_ee_write (bytes : List Byte) {s : State} (hsel : s.sel = some .eeprom) (hps : s.ee.ps = .write) :
    ∃ j, bytes.foldl (fun u b => xfer b u) s = { s with
      ee := { s.ee with store := storeBytes s.cfg s.ee.address s.ee.index bytes s.ee.store, index := j }
      trace := List.replicate bytes.length (.ret 0x00#8) ++ s.trace } := by
  induction bytes generalizing s with
  | nil => exact ⟨s.ee.index, rfl⟩
  | cons b bytes ih =>
    have hb := xfer_ee_write hsel hps b
    obtain ⟨j, hj⟩ := ih (s := xfer b s) (by simp [hb, hsel]) (by simp [hb, hps])
    refine ⟨j, ?_⟩
    rw [List.foldl_cons, hj, hb]
    simp [State.setEe, State.emit, storeBytes, List.replicate_succ']

/-- Data bytes in `Read`, whatever they are (R155). -/
theorem foldl_xfer_ee_read (sent : List Byte) {s : State} (hsel : s.sel = some .eeprom) (hps : s.ee.ps = .read) :
    ∃ j, sent.foldl (fun u b => xfer b u) s = { s with
      ee := { s.ee with index := j }
      trace := ((loadBytes s.cfg s.ee.address s.ee.store s.ee.index sent.length).map Output.ret).reverse
        ++ s.trace } := by
  induction sent generalizing s with
  | nil => exact ⟨s.ee.index, rfl⟩
  | cons b sent ih =>
    have hb := xfer_ee_read hsel hps b
    obtain ⟨j, hj⟩ := ih (s := xfer b s) (by simp [hb, hsel]) (by simp [hb, hps])
    refine ⟨j, ?_⟩
    rw [List.foldl_cons, hj, hb]
    simp [State.setEe, State.emit, loadBytes]

/-- Both address bytes together: the address is whole, whatever it was before (R153, R154). -/
theorem xfer_ee_address {s : State} {high low data : EePs} (hsel : s.sel = some .eeprom)
    (hhigh : (high, low) ∈ [(EePs.readAddrHigh, EePs.readAddrLow), (.writeAddrHigh, .writeAddrLow)])
    (hlow : (low, data) ∈ [(EePs.readAddrLow, EePs.read), (.writeAddrLow, .write)]) (hps : s.ee.ps = high)
    (a : Word) :
    xfer (lo8 a) (xfer (hi8 a) s) = { s with
      ee := { s.ee with ps := data, address := a, index := 0 }
      trace := .ret 0x00#8 :: .ret 0x00#8 :: s.trace } := by
  have hfirst := xfer_ee_addrHigh hsel hhigh hps (hi8 a)
  rw [xfer_ee_addrLow (by simp [hfirst, hsel]) hlow (by simp [hfirst]), hfirst]
  simp [State.setEe, State.emit, word_hi8_lo8]

/-! ### A frame at the pins -/

theorem run_succ {s t : State} (h : step s = .next t) (n : Nat) :
    Host.Core.run core (n + 1) s = Host.Core.run core n t := by
  have hstep : core.step s = .next t := h
  simp only [Host.Core.run, hstep]

/-- Every row of a command table is one instruction with the byte it travels in (R110). -/
theorem encode_of_mem_commandTable (c : Cfg) (kind : ChipKind) :
    ∀ row ∈ commandTable c kind, encode c row.2 = .command kind row.1 := by
  cases kind <;> simp [commandTable, encode]

/-- The instruction a chip reads in a byte is one that travels in that byte (R110). -/
theorem encode_of_decodeCommand {c : Cfg} {kind : ChipKind} {b : Byte} {i : Instr}
    (h : decodeCommand c kind b = some i) : encode c i = .command kind b := by
  by_cases hkind : kind = .bp
  · subst hkind
    cases h
    rfl
  · exact encode_of_mem_commandTable c kind _ (decodeCommand_mem hkind h)

/-- The word of an exchange at the pins is that exchange, whoever listens (R101, R134). -/
theorem step_xferInput {s : State} (hc : s.cfg.Wf) (b : Byte) (rest : List Input) :
    step (s.setInputs (xferInput b :: rest)) = .next (xfer b (s.setInputs rest)) := by
  refine (step_word (s := s.setInputs _) rfl (decodeOnBus_xferWord s.cfg s.listening b)).trans ?_
  cases hfound : s.listening.bind (fun k => decodeCommand s.cfg k b) with
  | none => rfl
  | some i =>
    obtain ⟨kind, -, hi⟩ := Option.bind_eq_some_iff.1 hfound
    exact commandByteIsItsExchange (s.setInputs rest) i kind b hc (encode_of_decodeCommand hi)

/-- The word of a `CS` on a chip's line, at the pins, is that `CS`, whoever listens (R113, R130). -/
theorem step_csInput (c : Chip) (level : Level) (s : State) (rest : List Input) :
    step (s.setInputs (csInput c level :: rest)) = .next (csWrite c level (s.setInputs rest)) := by
  have hline : c.line.toNat < 9 := by simpa [Chip.ofLine_line] using Chip.ofLine_isSome c.line
  have hword : decodeStimulus (csWord c.line level) = .ok (.cs c.line level) :=
    Laws.Carrier.cs c.line level s.cfg (decide_eq_true hline)
  have hbus : decodeOnBus s.cfg s.listening (csWord c.line level) = .ok (.cs c.line level) := by
    simp only [decodeOnBus, hword]
  exact (step_word (s := s.setInputs _) rfl hbus).trans (exec_cs (Chip.ofLine_line c) level _)

/-- The EEPROM does not look at the pins. -/
theorem eeTransfer_setInputs (b : Byte) (s : State) (l : List Input) :
    eeTransfer b (s.setInputs l) = ((eeTransfer b s).1.setInputs l, (eeTransfer b s).2) := by
  unfold eeTransfer
  rw [State.setInputs_ee]
  cases s.ee.ps with
  | idle =>
    simp only [eeCommand, State.setInputs_cfg]
    cases decodeCommand s.cfg .eeprom b with
    | none => rfl
    | some i => cases i <;> rfl
  | _ => rfl

theorem xfer_ee_setInputs {s : State} (hsel : s.sel = some .eeprom) (b : Byte) (l : List Input) :
    xfer b (s.setInputs l) = (xfer b s).setInputs l := by
  rw [xfer_selected (s := s.setInputs l) hsel, xfer_selected hsel]
  exact congrArg reply (eeTransfer_setInputs b s l)

theorem xfer_ee_sel_cfg {s : State} (hsel : s.sel = some .eeprom) (b : Byte) :
    (xfer b s).sel = some .eeprom ∧ (xfer b s).cfg = s.cfg := by
  obtain ⟨e, he, -⟩ := eeTransfer_shape b s
  simp [xfer_selected hsel, chipTransferWith, reply, he, hsel]

theorem foldl_xfer_ee_sel_cfg (bytes : List Byte) {s : State} (hsel : s.sel = some .eeprom) :
    (bytes.foldl (fun u b => xfer b u) s).sel = some .eeprom ∧
      (bytes.foldl (fun u b => xfer b u) s).cfg = s.cfg := by
  induction bytes generalizing s with
  | nil => exact ⟨hsel, rfl⟩
  | cons b bytes ih =>
    obtain ⟨hsel', hcfg'⟩ := xfer_ee_sel_cfg hsel b
    exact (ih hsel').imp_right (·.trans hcfg')

/-- The bytes of a frame at the pins are exchanged with the EEPROM one after the other. -/
theorem run_xferInputs (bytes : List Byte) {s : State} (hc : s.cfg.Wf) (hsel : s.sel = some .eeprom)
    (rest : List Input) (n : Nat) :
    Host.Core.run core (bytes.length + n) (s.setInputs (bytes.map xferInput ++ rest)) =
      Host.Core.run core n ((bytes.foldl (fun u b => xfer b u) s).setInputs rest) := by
  induction bytes generalizing s with
  | nil => rw [List.length_nil, Nat.zero_add]; rfl
  | cons b bytes ih =>
    obtain ⟨hsel', hcfg'⟩ := xfer_ee_sel_cfg hsel b
    have hstep := step_xferInput hc b (bytes.map xferInput ++ rest)
    rw [xfer_ee_setInputs hsel] at hstep
    rw [List.length_cons, Nat.add_right_comm]
    exact (run_succ hstep _).trans (ih (hcfg' ▸ hc) hsel')

/-- `SEL` at the pins selects the chip (R115, R132). -/
theorem step_selInput (c : Chip) (s : State) (rest : List Input) :
    step (s.setInputs (selInput s.cfg c :: rest)) = .next ((select c s).setInputs rest) := by
  refine (step_csInput c (s.cfg.csActive.get c) s rest).trans (congrArg _ ?_)
  rcases csWrite_cases c (s.cfg.csActive.get c) (s.setInputs rest) with ⟨-, hcs⟩ | ⟨hne, -⟩ | ⟨hne, -⟩
  · rw [hcs]
    cases c <;> rfl
  · exact absurd rfl hne
  · exact absurd rfl hne

theorem levelOther_ne (level : Level) : Level.other level ≠ level := by cases level <;> decide

/-- `DESEL` at the pins de-selects the selected chip (R115, R133). -/
theorem step_deselInput {c : Chip} {s : State} (hsel : s.sel = some c) (rest : List Input) :
    step (s.setInputs (deselInput s.cfg c :: rest)) = .next ((s.setSel none).setInputs rest) := by
  refine (step_csInput c (Level.other (s.cfg.csActive.get c)) s rest).trans (congrArg _ ?_)
  rcases csWrite_cases c (Level.other (s.cfg.csActive.get c)) (s.setInputs rest) with
    ⟨heq, -⟩ | ⟨-, -, hcs⟩ | ⟨-, hne, -⟩
  · exact absurd heq (levelOther_ne _)
  · rw [hcs]
    rfl
  · exact absurd hsel hne

/-- A frame to the EEPROM at the pins: select, exchange its bytes, de-select (R100, R115). -/
theorem run_eeFrame (bytes : List Byte) {s : State} (hc : s.cfg.Wf) (rest : List Input) (n : Nat) :
    Host.Core.run core ((frame s.cfg .eeprom bytes).length + n) (s.setInputs (frame s.cfg .eeprom bytes ++ rest)) =
      Host.Core.run core n
        (((bytes.foldl (fun u b => xfer b u) (select .eeprom s)).setSel none).setInputs rest) := by
  obtain ⟨hsel, hcfg⟩ := foldl_xfer_ee_sel_cfg bytes (s := select .eeprom s) rfl
  have hlen : (frame s.cfg .eeprom bytes).length + n = bytes.length + (n + 1) + 1 := by simp [frame]; omega
  have hinputs : frame s.cfg .eeprom bytes ++ rest =
      selInput s.cfg .eeprom :: (bytes.map xferInput ++ deselInput s.cfg .eeprom :: rest) := by simp [frame]
  have hdeselect := step_deselInput hsel rest
  rw [hcfg] at hdeselect
  rw [hlen, hinputs]
  calc
    _ = Host.Core.run core (bytes.length + (n + 1))
          ((select .eeprom s).setInputs (bytes.map xferInput ++ deselInput s.cfg .eeprom :: rest)) :=
      run_succ (step_selInput .eeprom s _) _
    _ = Host.Core.run core (n + 1) ((bytes.foldl (fun u b => xfer b u) (select .eeprom s)).setInputs
          (deselInput s.cfg .eeprom :: rest)) := run_xferInputs bytes (s := select .eeprom s) hc rfl _ _
    _ = _ := run_succ hdeselect n

/-! ### A read frame after a write frame -/

/-- The state in which the EEPROM, selected in `s`, awaits the first data byte of a frame at address `a` (R154). -/
def eeOpened (data : EePs) (a : Word) (s : State) : State := { s with
  sel := some .eeprom
  ee := { s.ee with ps := data, address := a, index := 0 }
  trace := List.replicate 3 (.ret 0x00#8) ++ s.trace }

/-- The three bytes that open a frame, a command that moves the protocol state alone and the address (R152 to R154,
R156). -/
theorem foldl_xfer_ee_open {s : State} {i : Instr} {command : Byte} {high low data : EePs} (hc : s.cfg.Wf)
    (hencode : encode s.cfg i = .command .eeprom command)
    (hcommand : ∀ u, commandOn .eeprom i u = (u.setEe { u.ee with ps := high }, 0x00#8))
    (hhigh : (high, low) ∈ [(EePs.readAddrHigh, EePs.readAddrLow), (.writeAddrHigh, .writeAddrLow)])
    (hlow : (low, data) ∈ [(EePs.readAddrLow, EePs.read), (.writeAddrLow, .write)]) (a : Word) :
    [command, hi8 a, lo8 a].foldl (fun u b => xfer b u) (select .eeprom s) = eeOpened data a s := by
  have hfirst : xfer command (select .eeprom s) = reply (commandOn .eeprom i (select .eeprom s)) :=
    Host.Outcome.next.inj (runsAs_command (s := select .eeprom s) hc rfl rfl hencode).2
  simp only [List.foldl_cons, List.foldl_nil]
  rw [hfirst, hcommand, xfer_ee_address rfl hhigh hlow rfl a]
  rfl

/-- The state after `EE.WR A, b0, .., bn` (R115, R157), where the cursor has come to stand at `j`. -/
def afterEeWr (a : Word) (bytes : List Byte) (j : Fin 64) (s : State) : State := { s with
  sel := none
  ee := { ps := .write, address := a, index := j, store := storeBytes s.cfg a 0 bytes s.ee.store }
  trace := List.replicate (bytes.length + 3) (.ret 0x00#8) ++ s.trace }

/-- The state after `EE.RD A, n` (R115, R155), where the cursor has come to stand at `j`. -/
def afterEeRd (a : Word) (count : Nat) (j : Fin 64) (s : State) : State := { s with
  sel := none
  ee := { s.ee with ps := .read, address := a, index := j }
  trace := ((loadBytes s.cfg a s.ee.store 0 count).map Output.ret).reverse ++
    (List.replicate 3 (.ret 0x00#8) ++ s.trace) }

theorem run_eeWr {s : State} (hc : s.cfg.Wf) (a : Word) (bytes : List Byte) (rest : List Input) (n : Nat) :
    ∃ j, Host.Core.run core ((eeWr s.cfg a bytes).length + n) (s.setInputs (eeWr s.cfg a bytes ++ rest)) =
      Host.Core.run core n ((afterEeWr a bytes j s).setInputs rest) := by
  have hopen := foldl_xfer_ee_open hc (i := .eeWrite) rfl (fun _ => rfl) (.tail _ (.head _)) (.tail _ (.head _)) a
  obtain ⟨j, hj⟩ := foldl_xfer_ee_write bytes (s := eeOpened .write a s) rfl rfl
  refine ⟨j, (run_eeFrame ([s.cfg.eeCmdWrite, hi8 a, lo8 a] ++ bytes) hc rest n).trans ?_⟩
  rw [List.foldl_append, hopen, hj, afterEeWr, List.replicate_add, List.append_assoc]
  rfl

theorem run_eeRd {s : State} (hc : s.cfg.Wf) (a : Word) (count : Nat) (rest : List Input) (n : Nat) :
    ∃ j, Host.Core.run core ((eeRd s.cfg a count).length + n) (s.setInputs (eeRd s.cfg a count ++ rest)) =
      Host.Core.run core n ((afterEeRd a count j s).setInputs rest) := by
  have hopen := foldl_xfer_ee_open hc (i := .eeRead) rfl (fun _ => rfl) (.head _) (.head _) a
  obtain ⟨j, hj⟩ := foldl_xfer_ee_read (List.replicate count 0x00#8) (s := eeOpened .read a s) rfl rfl
  refine ⟨j, (run_eeFrame ([s.cfg.eeCmdRead, hi8 a, lo8 a] ++ List.replicate count 0x00#8) hc rest n).trans ?_⟩
  rw [List.foldl_append, hopen, hj, List.length_replicate]
  rfl

/-- Settles O21: the write frame leaves the bytes in the store, and the read frame loads as many from there. -/
theorem eepromReadsBackWhatAFrameWrote : Obligations.EepromReadsBackWhatAFrameWrote := by
  intro s a bytes hc hbacked hlen hinputs
  obtain ⟨i, hwrite⟩ := run_eeWr hc a bytes (eeRd s.cfg a bytes.length) (eeRd s.cfg a bytes.length).length
  obtain ⟨j, hread⟩ := run_eeRd (s := afterEeWr a bytes i s) hc a bytes.length [] 0
  rw [List.append_nil] at hread
  refine ⟨(afterEeRd a bytes.length j (afterEeWr a bytes i s)).setInputs [], ?_, rfl, ?_⟩
  · rw [← List.length_append, ← hinputs] at hwrite
    exact hwrite.trans hread
  · have hback := loadBytes_storeBytes hbacked a 0 bytes s.ee.store hlen
    simp only [State.setInputs_trace, afterEeRd, afterEeWr, hback]
    rw [← List.append_assoc (List.replicate 3 _), List.replicate_append_replicate, Nat.add_comm 3, List.append_assoc]

end Sys2Proof.Machine
end

section
/-! PROOFS. The calendar: a date is a day of a year that begins in March, so that the leap day comes last; day numbers
and dates, and with them instants and valid records, are one-to-one. -/

namespace Sys2Proof.Machine

/-- A leap year, by its remainders (R174). -/
theorem isLeap_iff (y : Int) : isLeap y = true ↔ (y % 4 = 0 ∧ y % 100 ≠ 0) ∨ y % 400 = 0 := by
  simp [isLeap]

/-! ### Years that begin in March -/

/-- The day number of day `j` of the year from 1 March of `c` to the last day of the next February (R174, R175). -/
def marchDay (c j : Int) : Int := 365 * c + c / 4 - c / 100 + c / 400 + j - 719468

/-- Day `j`, counted from 0, exists in the year from 1 March of `c`: its last day is the leap day of `c + 1`. -/
def InMarchYear (c j : Int) : Prop := 0 ≤ j ∧ j ≤ 365 ∧ (j = 365 → isLeap (c + 1) = true)

/-- The day number of a day of year `k` of four-year cycle `q` of century `g` of 400-year era `e`, from the days of a
whole era, century, cycle and year (R174). -/
theorem marchDay_parts {e g q k : Int} (hg : 0 ≤ g) (hg' : g ≤ 3) (hq : 0 ≤ q) (hq' : q ≤ 24) (hk : 0 ≤ k) (hk' : k ≤ 3)
    (j : Int) :
    marchDay (400 * e + 100 * g + 4 * q + k) j = 146097 * e + (36524 * g + 1461 * q + 365 * k + j) - 719468 := by
  have h4 : (400 * e + 100 * g + 4 * q + k) / 4 = 100 * e + 25 * g + q := by omega
  have h100 : (400 * e + 100 * g + 4 * q + k) / 100 = 4 * e + g := by omega
  have h400 : (400 * e + 100 * g + 4 * q + k) / 400 = e := by omega
  rw [marchDay, h4, h100, h400]
  ring

/-- Every day number is a day of some year that begins in March. -/
theorem exists_marchDay (z : Int) : ∃ c j, InMarchYear c j ∧ z = marchDay c j := by
  obtain ⟨hlo, hhi⟩ := dayOfEra_range z
  obtain ⟨g, q, k, j, hg, hg', hq, hq', hk, hk', hj, hj', hlong, hdoe⟩ := dayOfEra_parts hlo hhi
  refine ⟨400 * ((z + 719468) / 146097) + 100 * g + 4 * q + k, j, ⟨hj, hj', fun h => ?_⟩, ?_⟩
  · rw [isLeap_iff]
    omega
  · rw [marchDay_parts hg hg' hq hq' hk hk', ← hdoe, dayOfEra]
    ring

/-- The closed formulas of `civil_from_days` find the year and the day again (R174). -/
theorem InMarchYear.found {c j : Int} (h : InMarchYear c j) :
    yearOfEra (dayOfEra (marchDay c j)) + (marchDay c j + 719468) / 146097 * 400 = c ∧
      dayOfYear (dayOfEra (marchDay c j)) = j := by
  obtain ⟨e, g, q, k, hg, hg', hq, hq', hk, hk', rfl⟩ : ∃ e g q k : Int,
      0 ≤ g ∧ g ≤ 3 ∧ 0 ≤ q ∧ q ≤ 24 ∧ 0 ≤ k ∧ k ≤ 3 ∧ c = 400 * e + 100 * g + 4 * q + k :=
    ⟨c / 400, c % 400 / 100, c % 100 / 4, c % 4, by omega⟩
  obtain ⟨hj, hj', hleap⟩ := h
  have hlong : j = 365 → k = 3 ∧ (q = 24 → g = 3) := by
    rw [isLeap_iff] at hleap
    omega
  have hera : (marchDay (400 * e + 100 * g + 4 * q + k) j + 719468) / 146097 = e := by
    rw [marchDay_parts hg hg' hq hq' hk hk']
    omega
  have hdoe : dayOfEra (marchDay (400 * e + 100 * g + 4 * q + k) j) = 36524 * g + 1461 * q + 365 * k + j := by
    rw [dayOfEra, hera, marchDay_parts hg hg' hq hq' hk hk']
    ring
  obtain ⟨hyear, hday⟩ := yearOfEra_parts hg hg' hq hq' hk hk' hj hj' hlong
  rw [hera, hdoe, hyear, hday]
  exact ⟨by ring, rfl⟩

/-! ### Dates -/

/-- A date of the calendar, the first half of `valid` (R175). -/
def IsDate (y m d : Int) : Prop := 1 ≤ m ∧ m ≤ 12 ∧ 1 ≤ d ∧ d ≤ daysInMonth y m

/-- The year from March that a month of year `y` falls in (R175). -/
def marchYear (y m : Int) : Int := if m ≤ 2 then y - 1 else y

/-- The day from 1 March on which the month `p`, counted from March, begins (R174, R175). -/
def monthStart (p : Int) : Int := (153 * p + 2) / 5

/-- The day from 1 March of day `d` of month `m` (R175). -/
def dayFromMarch (m d : Int) : Int := monthStart ((m + 9) % 12) + d - 1

theorem daysFromCivil_eq_marchDay (y m d : Int) :
    daysFromCivil y m d = marchDay (marchYear y m) (dayFromMarch m d) := by
  simp only [daysFromCivil, marchDay, marchYear, dayFromMarch, monthStart]
  omega

/-- `civil_from_days` finds the month whose days the day lies among (R174). -/
theorem marchMonth_eq_iff (j p : Int) : marchMonth j = p ↔ monthStart p ≤ j ∧ j < monthStart (p + 1) := by
  unfold marchMonth monthStart
  omega

/-- A month but February lasts until the next begins. -/
theorem daysInMonth_eq_monthStart_sub (y : Int) {m : Int} (hm : 1 ≤ m) (hm' : m ≤ 12) (hfeb : m ≠ 2) :
    daysInMonth y m = monthStart ((m + 9) % 12 + 1) - monthStart ((m + 9) % 12) := by
  obtain rfl | hmarch : m = 1 ∨ 3 ≤ m := by omega
  · rfl
  · interval_cases m <;> rfl

/-- February, the last month from March, has a 29th day in a leap year only (R175). -/
theorem le_daysInMonth_february (y d : Int) : d ≤ daysInMonth y 2 ↔ d ≤ 29 ∧ (d = 29 → isLeap y = true) := by
  unfold daysInMonth
  cases isLeap y
  · simp
    omega
  · simp

/-- A date is a day of its year from March, in the month that `civil_from_days` finds (R174). -/
theorem IsDate.inMarchYear {y m d : Int} (h : IsDate y m d) :
    InMarchYear (marchYear y m) (dayFromMarch m d) ∧ marchMonth (dayFromMarch m d) = (m + 9) % 12 := by
  obtain ⟨hm, hm', hd, hd'⟩ := h
  rw [marchMonth_eq_iff]
  by_cases hfeb : m = 2
  · subst hfeb
    obtain ⟨hd29, hleap⟩ := (le_daysInMonth_february y d).1 hd'
    have hday : dayFromMarch 2 d = 336 + d := by
      unfold dayFromMarch monthStart
      omega
    rw [hday, marchYear, if_pos le_rfl]
    refine ⟨⟨by omega, by omega, fun hlast => ?_⟩, ?_⟩
    · rw [sub_add_cancel]
      exact hleap (by omega)
    · unfold monthStart
      omega
  · rw [daysInMonth_eq_monthStart_sub y hm hm' hfeb] at hd'
    simp only [InMarchYear, marchYear, dayFromMarch, monthStart] at hd' ⊢
    omega

/-- Every day of a year from March is a date. -/
theorem InMarchYear.exists_isDate {c j : Int} (h : InMarchYear c j) :
    ∃ y m d, IsDate y m d ∧ marchYear y m = c ∧ dayFromMarch m d = j := by
  obtain ⟨hj, hj', hleap⟩ := h
  obtain ⟨p, hp⟩ : ∃ p, marchMonth j = p := ⟨_, rfl⟩
  have hrange : 0 ≤ p ∧ p ≤ 11 := by
    unfold marchMonth at hp
    omega
  rw [marchMonth_eq_iff] at hp
  obtain ⟨m, hm, hm', hpm⟩ : ∃ m : Int, 1 ≤ m ∧ m ≤ 12 ∧ p = (m + 9) % 12 := ⟨(p + 2) % 12 + 1, by omega⟩
  subst hpm
  refine ⟨if m ≤ 2 then c + 1 else c, m, j - monthStart ((m + 9) % 12) + 1, ⟨hm, hm', by omega, ?_⟩, ?_, ?_⟩
  · by_cases hfeb : m = 2
    · subst hfeb
      rw [if_pos le_rfl, le_daysInMonth_february]
      have hstart : monthStart ((2 + 9) % 12) = 337 := by decide
      exact ⟨by omega, fun hlast => hleap (by omega)⟩
    · rw [daysInMonth_eq_monthStart_sub _ hm hm' hfeb]
      omega
  · unfold marchYear
    split <;> omega
  · unfold dayFromMarch
    ring

/-- `civil_from_days` of a date's day number is the date (R174, R175). -/
theorem civilFromDays_daysFromCivil {y m d : Int} (h : IsDate y m d) :
    civilFromDays (daysFromCivil y m d) = (y, m, d) := by
  obtain ⟨hin, hmonth⟩ := h.inMarchYear
  obtain ⟨hyear, hday⟩ := hin.found
  obtain ⟨hm, hm', -, -⟩ := h
  simp only [civilFromDays, daysFromCivil_eq_marchDay, hday, hmonth, hyear, Prod.mk.injEq]
  have hback : (if (m + 9) % 12 < 10 then (m + 9) % 12 + 3 else (m + 9) % 12 - 9) = m := by split <;> omega
  refine ⟨?_, hback, ?_⟩
  · rw [hback, marchYear]
    split <;> omega
  · rw [dayFromMarch, monthStart]
    ring

/-- Every day number is that of a date (R174). -/
theorem exists_daysFromCivil (z : Int) : ∃ y m d, IsDate y m d ∧ z = daysFromCivil y m d := by
  obtain ⟨c, j, hin, hz⟩ := exists_marchDay z
  obtain ⟨y, m, d, hdate, rfl, rfl⟩ := hin.exists_isDate
  exact ⟨y, m, d, hdate, hz.trans (daysFromCivil_eq_marchDay y m d).symm⟩

/-! ### Instants -/

/-- The second half of `valid`: a time of day (R175). -/
def IsTimeOfDay (h m s : Int) : Prop := 0 ≤ h ∧ h ≤ 23 ∧ 0 ≤ m ∧ m ≤ 59 ∧ 0 ≤ s ∧ s ≤ 59

theorem Civil.valid_iff (r : Civil) :
    r.valid = true ↔ IsDate r.year r.month r.day ∧ IsTimeOfDay r.hour r.minute r.second := by
  simp only [Civil.valid, IsDate, IsTimeOfDay, decide_eq_true_eq, and_assoc]

/-- `make_time` does not look at the weekday (R175). -/
theorem makeTime_weekday (r : Civil) (w : Int) : makeTime { r with weekday := w } = makeTime r := rfl

/-- `break_time` of `make_time` of a valid record is the record, but for the weekday (R174, R175). -/
theorem breakTime_makeTime {r : Civil} (h : r.valid = true) :
    breakTime (makeTime r) = { r with weekday := (breakTime (makeTime r)).weekday } := by
  obtain ⟨hdate, hh, hh', hm, hm', hs, hs'⟩ := r.valid_iff.1 h
  have hcivil := civilFromDays_daysFromCivil hdate
  have hday : makeTime r / 86400 = daysFromCivil r.year r.month r.day := by
    unfold makeTime
    omega
  have hsod : makeTime r % 86400 = r.hour * 3600 + r.minute * 60 + r.second := by
    unfold makeTime
    omega
  simp only [breakTime, hday, hsod, hcivil, Civil.mk.injEq, true_and, and_true]
  omega

/-- Every instant is `make_time` of a valid record (R174, R175). -/
theorem exists_makeTime (t : Int) : ∃ r : Civil, r.valid = true ∧ t = makeTime r := by
  obtain ⟨y, m, d, hdate, hz⟩ := exists_daysFromCivil (t / 86400)
  refine ⟨⟨y, m, d, t % 86400 / 3600, t % 86400 % 3600 / 60, t % 86400 % 60, 0⟩, (Civil.valid_iff _).2 ⟨hdate, ?_⟩, ?_⟩
  · simp only [IsTimeOfDay]
    omega
  · simp only [makeTime, ← hz]
    omega

/-- Every instant breaks into a valid record (R174). -/
theorem breakTime_valid (t : Int) : (breakTime t).valid = true := by
  obtain ⟨r, hr, rfl⟩ := exists_makeTime t
  rw [breakTime_makeTime hr]
  exact hr

/-- `make_time` undoes `break_time` (R175). -/
theorem makeTime_breakTime (t : Int) : makeTime (breakTime t) = t := by
  obtain ⟨r, hr, rfl⟩ := exists_makeTime t
  rw [breakTime_makeTime hr, makeTime_weekday]

/-- A second replaced by another of the same minute changes no other field, the weekday included (R186). -/
theorem breakTime_makeTime_second (t : Int) {v : Int} (h0 : 0 ≤ v) (h59 : v ≤ 59) :
    breakTime (makeTime { breakTime t with second := v }) = { breakTime t with second := v } := by
  obtain ⟨hdate, hh, hh', hm, hm', -⟩ := (Civil.valid_iff _).1 (breakTime_valid t)
  have hvalid : ({ breakTime t with second := v } : Civil).valid = true :=
    (Civil.valid_iff _).2 ⟨hdate, hh, hh', hm, hm', h0, h59⟩
  have hreplaced : makeTime { breakTime t with second := v } = makeTime (breakTime t) - (breakTime t).second + v := by
    simp only [makeTime]
    ring
  have hsecond : (breakTime t).second = t % 86400 % 60 := rfl
  have hsameDay : makeTime { breakTime t with second := v } / 86400 = t / 86400 := by
    rw [hreplaced, makeTime_breakTime, hsecond]
    omega
  have hweekday : (breakTime (makeTime { breakTime t with second := v })).weekday = (breakTime t).weekday :=
    congrArg (fun z => (z + 4) % 7) hsameDay
  rw [breakTime_makeTime hvalid, hweekday]

/-- Settles O28: `make_time` and `break_time` undo each other on valid records, up to the weekday. -/
theorem calendarBreaksAndMakesTheSameInstants : Obligations.CalendarBreaksAndMakesTheSameInstants := by
  refine ⟨breakTime_valid, fun t r hr => ⟨fun h => ?_, ?_⟩⟩
  · rw [← makeTime_breakTime t, h, makeTime_weekday]
  · rintro rfl
    exact breakTime_makeTime hr

end Sys2Proof.Machine
end

section
/-! PROOFS. The RTC: BCD, what each byte does in each protocol state, and the present time after a written field. -/

namespace Sys2Proof.Machine

/-! ### BCD -/

theorem toBcd_toNat {v : Int} (h0 : 0 ≤ v) (h99 : v ≤ 99) : ((toBcd v).toNat : Int) = v / 10 * 16 + v % 10 := by
  rw [toBcd, BitVec.toNat_ofNat]
  omega

theorem bcdOk_toBcd {v : Int} (h0 : 0 ≤ v) (h99 : v ≤ 99) : bcdOk (toBcd v) = true := by
  have hnat := toBcd_toNat h0 h99
  rw [bcdOk_iff]
  omega

theorem fromBcd_toBcd {v : Int} (h0 : 0 ≤ v) (h99 : v ≤ 99) : fromBcd (toBcd v) = v := by
  have hnat := toBcd_toNat h0 h99
  rw [fromBcd_nat]
  omega

theorem fromBcd_nonneg (b : Byte) : 0 ≤ fromBcd b := by
  rw [fromBcd_nat]
  exact Int.natCast_nonneg _

/-- Settles O27: each direction by its lemma. -/
theorem bcdConversionsAreInverse : Obligations.BcdConversionsAreInverse :=
  ⟨fun _ h0 h99 => ⟨bcdOk_toBcd h0 h99, fromBcd_toBcd h0 h99, toBcd_toNat h0 h99⟩, bcdOk_iff,
    fun b hb => ⟨by rw [fromBcd_nat]; push_cast; rfl, toBcd_fromBcd hb⟩⟩

/-! ### Commands and control registers -/

/-- An exchange with the RTC selected is its transfer (R134). -/
theorem xfer_rtc {s : State} (hsel : s.sel = some .rtc) (b : Byte) : xfer b s = reply (rtcTransfer b s) :=
  xfer_selected hsel b

theorem rtc_awaitsCommand {s : State} (hps : s.rtc.ps = .idle) : s.awaitsCommand .rtc = true := decide_eq_true hps

/-- Settles O23: the commands by what they do on the RTC, the data bytes by their exchanges. -/
theorem rtcControlRegistersExchange : Obligations.RtcControlRegistersExchange := by
  refine ⟨fun s hc hsel hps => ?_, fun s b hsel => ?_⟩
  · exact ⟨runsAs_command hc hsel (rtc_awaitsCommand hps) rfl, runsAs_command hc hsel (rtc_awaitsCommand hps) rfl⟩
  · refine ⟨fun hps => ?_, fun hps => ?_, fun hps => ?_, fun hps => ?_⟩ <;>
    · rw [exec, execXfer, xfer_rtc hsel, rtcTransfer, hps]
      rfl

/-! ### Reading the time -/

/-- The states in which a byte reads a field other than the year, with the field and the state after it (R179). -/
def readChain : List (RtcPs × Field × RtcPs) :=
  [(.rdSeconds, .second, .rdMinutes), (.rdMinutes, .minute, .rdHours), (.rdHours, .hour, .rdDays),
    (.rdDays, .day, .rdWeekdays), (.rdWeekdays, .weekday, .rdMonths), (.rdMonths, .month, .rdYears)]

/-- A byte that reads a field other than the year (R179, R180). -/
theorem xfer_rtc_read {s : State} {p q : RtcPs} {f : Field} (hsel : s.sel = some .rtc) (hchain : (p, f, q) ∈ readChain)
    (hps : s.rtc.ps = p) (b : Byte) : xfer b s = (setRtcPs q s).emit (.ret (rtcPlainField f s)) := by
  simp only [readChain, List.mem_cons, Prod.mk.injEq, List.not_mem_nil, or_false] at hchain
  rw [xfer_rtc hsel, rtcTransfer, hps]
  rcases hchain with ⟨rfl, rfl, rfl⟩ | ⟨rfl, rfl, rfl⟩ | ⟨rfl, rfl, rfl⟩ | ⟨rfl, rfl, rfl⟩ | ⟨rfl, rfl, rfl⟩ |
    ⟨rfl, rfl, rfl⟩ <;> rfl

/-- The window of R180: the years 2000 to 2099. -/
theorem yearShown_iff (s : State) :
    yearShown s = true ↔ 2000 ≤ (breakTime (presentTime s)).year ∧ (breakTime (presentTime s)).year ≤ 2099 := by
  rw [yearShown, Bool.and_eq_true, decide_eq_true_eq, decide_eq_true_eq]
  rfl

/-- The byte that reads a year the window shows (R180). -/
theorem xfer_rtc_year_shown {s : State} (hsel : s.sel = some .rtc) (hps : s.rtc.ps = .rdYears)
    (hyear : yearShown s = true) (b : Byte) :
    xfer b s = (setRtcPs .idle s).emit (.ret (toBcd ((breakTime (presentTime s)).year - Config.rtcYearOrigin))) := by
  simp only [xfer_rtc hsel, rtcTransfer, hps, rtcReadField, if_pos hyear, reply]

/-- The byte that reads a year outside the window is a draw (R180). -/
theorem xfer_rtc_year_drawn {s : State} (hsel : s.sel = some .rtc) (hps : s.rtc.ps = .rdYears)
    (hyear : ¬ yearShown s = true) (b : Byte) :
    xfer b s = (setRtcPs .idle s).drawn.emit (.ret s.drawByte) := by
  simp only [xfer_rtc hsel, rtcTransfer, hps, rtcReadField, if_neg hyear, reply]

/-- Settles O24: the six plain fields along the chain, then the year by whether the window shows it. -/
theorem rtcReadChainReturnsThePresentTime : Obligations.RtcReadChainReturnsThePresentTime := by
  refine ⟨fun s hc hsel hps => runsAs_command hc hsel (rtc_awaitsCommand hps) rfl, ?_⟩
  rintro s b _ hsel rfl
  refine ⟨fun p v q hfield hps => ?_, fun hps hlo hhi => ?_, fun hps hout => ?_⟩
  · obtain ⟨⟨_, f, _⟩, hchain, heq⟩ :=
      List.mem_map (l := readChain) (f := fun x => (x.1, (breakTime (presentTime s)).field x.2.1, x.2.2)).1 hfield
    cases heq
    exact congrArg _ (xfer_rtc_read hsel hchain hps b)
  · exact congrArg _ (xfer_rtc_year_shown hsel hps ((yearShown_iff s).2 ⟨hlo, hhi⟩) b)
  · refine ⟨s.drawByte, congrArg _ (xfer_rtc_year_drawn hsel hps ?_ b)⟩
    rw [yearShown_iff, presentTime]
    omega

/-! ### Writing the time -/

/-- The states in which a byte writes a field, with the field and the state after it (R181). -/
def writeChain : List (RtcPs × Field × RtcPs) :=
  [(.wrSeconds, .second, .wrMinutes), (.wrMinutes, .minute, .wrHours), (.wrHours, .hour, .wrDays),
    (.wrDays, .day, .wrWeekdays), (.wrMonths, .month, .wrYears), (.wrYears, .year, .idle)]

/-- A row of the write chain as the statements list it: the state, the record the byte gives, the state after it. -/
def writeRow (b : Byte) (s : State) (x : RtcPs × Field × RtcPs) : RtcPs × Civil × RtcPs :=
  (x.1, substituted x.2.1 b s, x.2.2)

/-- A byte that writes a field is its setter, and the chain moves (R181). -/
theorem xfer_rtc_write {s : State} {p q : RtcPs} {f : Field} (hsel : s.sel = some .rtc)
    (hchain : (p, f, q) ∈ writeChain) (hps : s.rtc.ps = p) (b : Byte) :
    xfer b s = (setRtcPs q (setField f b s)).emit (.ret 0x00#8) := by
  simp only [writeChain, List.mem_cons, Prod.mk.injEq, List.not_mem_nil, or_false] at hchain
  rw [xfer_rtc hsel, rtcTransfer, hps]
  rcases hchain with ⟨rfl, rfl, rfl⟩ | ⟨rfl, rfl, rfl⟩ | ⟨rfl, rfl, rfl⟩ | ⟨rfl, rfl, rfl⟩ | ⟨rfl, rfl, rfl⟩ |
    ⟨rfl, rfl, rfl⟩ <;> rfl

/-- The setter of a byte that gives a valid record (R182). -/
theorem setField_valid {f : Field} {b : Byte} {s : State} (hb : bcdOk b = true) (h : (substituted f b s).valid = true) :
    setField f b s = s.setRtc { s.rtc with offset := makeTime (substituted f b s) - s.env.now } := by
  rw [setField, fieldWriteOk, hb, h]
  rfl

/-- The setter of a byte that is not BCD or gives an invalid record (R184). -/
theorem setField_invalid {f : Field} {b : Byte} {s : State} (h : bcdOk b = false ∨ (substituted f b s).valid = false) :
    setField f b s = (s.setRtc { s.rtc with offset := s.drawOffset }).drawn := by
  have hok : fieldWriteOk f b s = false := Bool.and_eq_false_iff.2 h
  rw [setField, hok]
  rfl

/-- Settles O25: along the chain the valid branch of the setter; the weekday byte by its exchange. -/
theorem rtcWriteChainSetsOneFieldAtATime : Obligations.RtcWriteChainSetsOneFieldAtATime := by
  refine ⟨fun s hc hsel hps => runsAs_command hc hsel (rtc_awaitsCommand hps) rfl, ?_, fun s b hsel hps => ?_⟩
  · rintro s b _ hsel rfl hb p T' q hrow hps hvalid
    obtain ⟨⟨_, f, _⟩, hchain, heq⟩ := List.mem_map (l := writeChain) (f := writeRow b s).1 hrow
    cases heq
    rw [exec, execXfer, xfer_rtc_write hsel hchain hps, setField_valid hb hvalid]
    rfl
  · rw [exec, execXfer, xfer_rtc hsel, rtcTransfer, hps]
    rfl

/-- Settles O26: along the chain the other branch of the setter, whose offset is a draw. -/
theorem rtcInvalidWriteLeavesSomeOffset : Obligations.RtcInvalidWriteLeavesSomeOffset := by
  rintro s b _ hsel rfl p T' q hrow hps hinvalid
  obtain ⟨⟨_, f, _⟩, hchain, heq⟩ := List.mem_map (l := writeChain) (f := writeRow b s).1 hrow
  cases heq
  refine ⟨s.drawOffset, ?_⟩
  rw [exec, execXfer, xfer_rtc_write hsel hchain hps, setField_invalid hinvalid]
  rfl

/-! ### Reading back -/

/-- After a valid write the present time is the substituted record's instant, and the inputs stand as before (R182). -/
theorem exec_rtc_write_valid {s : State} {p q : RtcPs} {f : Field} {b : Byte} (hsel : s.sel = some .rtc)
    (hchain : (p, f, q) ∈ writeChain) (hps : s.rtc.ps = p) (hb : bcdOk b = true)
    (hvalid : (substituted f b s).valid = true) :
    ∃ t, exec (.xfer b) s = .next t ∧ t.env = s.env ∧ t.rtc.offset + t.env.now = makeTime (substituted f b s) := by
  refine ⟨_, rfl, ?_⟩
  rw [xfer_rtc_write hsel hchain hps, setField_valid hb hvalid]
  exact ⟨rfl, Int.sub_add_cancel _ _⟩

/-- Settles O29: the instant after the write breaks into the record written, the weekday left to the second's lemma. -/
theorem rtcFieldReadsBackAsWritten : Obligations.RtcFieldReadsBackAsWritten := by
  constructor
  · intro s b hsel hps hb h59
    have hback := breakTime_makeTime_second (presentTime s) (fromBcd_nonneg b) h59
    have hvalid : (substituted .second b s).valid = true := by
      rw [← breakTime_valid (makeTime (substituted .second b s))]
      exact congrArg _ hback.symm
    obtain ⟨t, hexec, henv, htime⟩ := exec_rtc_write_valid hsel (.head _) hps hb hvalid
    have hnew := (congrArg breakTime htime).trans hback
    refine ⟨t, hexec, henv, hnew, ?_⟩
    rw [hnew]
    exact toBcd_fromBcd hb
  · rintro s b _ hsel rfl hb p T' hrow hps hvalid
    obtain ⟨⟨_, f, _⟩, hchain, heq⟩ :=
      List.mem_map (l := writeChain) (f := fun x => (x.1, substituted x.2.1 b s)).1 hrow
    cases heq
    obtain ⟨t, hexec, henv, htime⟩ := exec_rtc_write_valid hsel hchain hps hb hvalid
    refine ⟨t, hexec, henv, ?_⟩
    rw [htime]
    exact breakTime_makeTime hvalid

end Sys2Proof.Machine
end

section
/-! PROOFS. The backplane: what a byte does in each of its three protocol states. -/

namespace Sys2Proof.Machine

/-- A word whose low byte is zero is its high byte times 256 (R201). -/
theorem word_zero_toNat (b : Byte) : (word b 0x00#8).toNat = b.toNat * 256 := by
  rw [word_toNat, BitVec.toNat_ofNat, Nat.zero_mod, Nat.add_zero]

/-- A backplane in `High` is listening, so the frame constructor is heard; its byte has the same effect (R110, R201). -/
theorem runsAs_bpFrame {s : State} (hsel : s.sel = some .bp) (hps : s.bp.ps = .high) (b : Byte) :
    RunsAs (.bpFrame b) b s
      ((s.setBp { s.bp with shift := word b 0x00#8, ps := .low }).emit (.ret 0x00#8)) := by
  have hl : s.listening = some .bp := listening_eq_some.2 ⟨.bp, hsel, decide_eq_true hps, rfl⟩
  exact ⟨exec_command_heard hsel hl rfl, congrArg _ (xfer_bp_high hsel hps b)⟩

/-- Every byte after the second (R203). -/
theorem xfer_bp_done {s : State} (hsel : s.sel = some .bp) (hps : s.bp.ps = .done) (b : Byte) :
    xfer b s = s.emit (.ret 0x00#8) := by
  simp [xfer_selected hsel, chipTransferWith, bpTransfer, hps, reply]

/-- Settles O30: one exchange lemma per protocol state; in `High` the frame constructor is heard as well. -/
theorem backplaneCommitsOnTheSecondByte : Obligations.BackplaneCommitsOnTheSecondByte := by
  intro s b hsel
  refine ⟨fun hps => ?high, fun hps => ?low, fun hps => ?done⟩
  case high => exact ⟨word b 0x00#8, word_zero_toNat b, runsAs_bpFrame hsel hps b⟩
  case low => exact ⟨_, rfl, congrArg _ (xfer_bp_low hsel hps b)⟩
  case done => exact congrArg _ (xfer_bp_done hsel hps b)

end Sys2Proof.Machine
end

section
/-! PROOFS. The IO expanders: the overlaid byte bit by bit, what each byte does in each protocol state, and a read frame
after a write frame at the pins. -/

namespace Sys2Proof.Machine

/-! ### The overlay -/

/-- `v[p] <- f` puts the flag at bit `p` and leaves every other bit (R214). -/
theorem putBit_getLsbD (v : Byte) (p q : Fin 8) (f : Bool) :
    (putBit v p f).getLsbD q.val = if q = p then f else v.getLsbD q.val := by
  have hmask : (1#8 <<< p.val).getLsbD q.val = decide (q = p) := by
    revert p q
    decide
  cases f
  · have hbit : (putBit v p false).getLsbD q.val = (v.getLsbD q.val && !decide (q = p)) := by
      simp only [putBit, Bool.false_eq_true, if_false, BitVec.getLsbD_and, BitVec.getLsbD_not, hmask, q.isLt,
        decide_true, Bool.true_and]
    rw [hbit]
    by_cases h : q = p <;> simp [h]
  · have hbit : (putBit v p true).getLsbD q.val = (v.getLsbD q.val || decide (q = p)) := by
      simp only [putBit, if_true, BitVec.getLsbD_or, hmask]
    rw [hbit]
    by_cases h : q = p <;> simp [h]

/-- Every bit of the overlaid byte, the last flag written first (R214). -/
theorem overlay_getLsbD (cfg : Cfg) (k : Chan) (x : IoExp) (v : Byte) (p : Fin 8) :
    (overlay cfg k x v).getLsbD p.val =
      if p = cfg.ioxBitCc then x.cc
      else if p = cfg.ioxBitCv then x.cv
      else if p = cfg.ioxBitRpol ∧ cfg.rpolCapable.get k = true then x.rpol
      else if p = cfg.ioxBitPwrgood then x.pwrgood
      else v.getLsbD p.val := by
  unfold overlay
  cases cfg.rpolCapable.get k <;>
    simp only [putBit_getLsbD, Bool.false_eq_true, if_true, if_false, and_true, and_false]

/-- Settles O34: the four positions are distinct, so at each of them one line of the overlay decides. -/
theorem overlayShowsTheFourFlags : Obligations.OverlayShowsTheFourFlags := by
  intro cfg k x v hc
  obtain ⟨-, -, -, -, -, -, hbits, -⟩ := hc
  simp only [List.nodup_cons, List.mem_cons, List.not_mem_nil, or_false, not_or] at hbits
  obtain ⟨⟨hpr, hpv, hpc⟩, ⟨hrv, hrc⟩, hvc, -⟩ := hbits
  simp only [overlay_getLsbD]
  refine ⟨?pwrgood, ?rpol, ?cv, if_pos trivial, fun p hp => ?other⟩
  case pwrgood => simp [hpr, hpv, hpc]
  case rpol => simp [hrv, hrc, Ne.symm hpr]
  case cv => simp [hvc]
  case other =>
    simp only [List.mem_cons, List.not_mem_nil, or_false, not_or] at hp
    simp [hp]

/-! ### One byte -/

/-- The index byte, on the way to a read and on the way to a write: every value is taken (R212, R215). -/
theorem xfer_iox_index {s : State} {k : Chan} {p next : IoPs} (hsel : s.sel = some (.ioexp k))
    (hnext : (p, next) ∈ [(IoPs.rdIndex, IoPs.rdData), (.wrIndex, .wrData)]) (hps : (s.io.get k).ps = p) (b : Byte) :
    xfer b s = (s.setIo k { s.io.get k with ps := next, index := b }).emit (.ret 0x00#8) := by
  simp only [List.mem_cons, Prod.mk.injEq, List.not_mem_nil, or_false] at hnext
  rcases hnext with ⟨rfl, rfl⟩ | ⟨rfl, rfl⟩ <;>
    simp [xfer_selected hsel, chipTransferWith, ioxTransfer, hps, ioxIndex, reply]

/-- A data byte in `RdData` (R213). -/
theorem xfer_iox_read {s : State} {k : Chan} (hsel : s.sel = some (.ioexp k)) (hps : (s.io.get k).ps = .rdData)
    (b : Byte) : xfer b s = s.emit (.ret (ioxReadValue s.cfg k (s.io.get k))) := by
  simp [xfer_selected hsel, chipTransferWith, ioxTransfer, hps, ioxReadData, reply]

/-- A data byte in `WrData` (R216). -/
theorem xfer_iox_write {s : State} {k : Chan} (hsel : s.sel = some (.ioexp k)) (hps : (s.io.get k).ps = .wrData)
    (b : Byte) :
    xfer b s = (s.setIo k { s.io.get k with
      regs := regWrite s.cfg.ioxNregs (s.io.get k).regs (s.io.get k).index b }).emit (.ret 0x00#8) := by
  simp [xfer_selected hsel, chipTransferWith, ioxTransfer, hps, ioxWriteData, reply]

/-- Settles O32: the commands by what their chip does on them, the index bytes by their exchange. -/
theorem ioExpanderCommandsTakeEffect : Obligations.IoExpanderCommandsTakeEffect := by
  refine ⟨fun s k hc hsel hps => ?_, fun s k b hsel => ⟨fun hps => ?_, fun hps => ?_⟩⟩
  · have hawaits : s.awaitsCommand (.ioexp k) = true := decide_eq_true hps
    exact ⟨runsAs_command hc hsel hawaits rfl, runsAs_command hc hsel hawaits rfl⟩
  · exact congrArg _ (xfer_iox_index hsel (.head _) hps b)
  · exact congrArg _ (xfer_iox_index hsel (.tail _ (.head _)) hps b)

/-! ### The byte a read returns -/

/-- An index beyond the array reads 0x00 (R217). -/
theorem ioxReadValue_beyond {cfg : Cfg} (k : Chan) {x : IoExp} (h : cfg.ioxNregs ≤ x.index.toNat) :
    ioxReadValue cfg k x = 0x00#8 := by
  simp [ioxReadValue, Nat.not_lt.2 h]

/-- The GPIO index reads the stored byte overlaid (R213, R214). -/
theorem ioxReadValue_gpio {cfg : Cfg} (k : Chan) {x : IoExp} (h : x.index.toNat < cfg.ioxNregs)
    (hgpio : x.index = cfg.gpioIndex) :
    ioxReadValue cfg k x = overlay cfg k x (regRead cfg.ioxNregs x.regs x.index) := by
  simp only [ioxReadValue, if_pos h, if_pos hgpio]

/-- Every other index of the array reads the stored byte (R213). -/
theorem ioxReadValue_other {cfg : Cfg} (k : Chan) {x : IoExp} (h : x.index.toNat < cfg.ioxNregs)
    (hgpio : x.index ≠ cfg.gpioIndex) : ioxReadValue cfg k x = regRead cfg.ioxNregs x.regs x.index := by
  simp only [ioxReadValue, if_pos h, if_neg hgpio]

/-- A register that exists is read from the array (R73). -/
theorem regRead_eq_getElem {n : Nat} {regs : List Byte} {i : Byte} (hn : i.toNat < n) (h : i.toNat < regs.length) :
    regRead n regs i = regs[i.toNat] := by
  simp [regRead, hn, h]

/-- Settles O33: the three cases of the byte read. -/
theorem ioExpanderReadReturnsTheRegister : Obligations.IoExpanderReadReturnsTheRegister := by
  intro s k b v hsel hps hlen hv
  have hvalue : ioxReadValue s.cfg k (s.io.get k) = v := by
    rcases hv with ⟨hbeyond, rfl⟩ | ⟨hin, ⟨hgpio, rfl⟩ | ⟨hgpio, rfl⟩⟩
    · exact ioxReadValue_beyond k hbeyond
    · rw [ioxReadValue_gpio k (hlen ▸ hin) hgpio, regRead_eq_getElem (hlen ▸ hin) hin]
    · rw [ioxReadValue_other k (hlen ▸ hin) hgpio, regRead_eq_getElem (hlen ▸ hin) hin]
  rw [← hvalue]
  exact congrArg _ (xfer_iox_read hsel hps b)

/-- Settles O35: a register write is the conditional update the statement names. -/
theorem ioExpanderWriteStoresTheRegister : Obligations.IoExpanderWriteStoresTheRegister :=
  fun _ _ b hsel hps => congrArg _ (xfer_iox_write hsel hps b)

/-! ### A read frame after a write frame -/

/-- The state in which expander `k`, selected in `s`, awaits the data byte of a frame at index `i` (R212, R215). -/
def ioxOpened (data : IoPs) (k : Chan) (i : Byte) (s : State) : State := { s with
  sel := some (.ioexp k)
  io := s.io.set k { s.io.get k with ps := data, index := i }
  trace := List.replicate 2 (.ret 0x00#8) ++ s.trace }

/-- The state after `IOX.WR k, i, v` (R115, R216). -/
def afterIoxWr (k : Chan) (i v : Byte) (s : State) : State := { s with
  sel := none
  io := s.io.set k { s.io.get k with
    ps := .wrData, index := i, regs := regWrite s.cfg.ioxNregs (s.io.get k).regs i v }
  trace := List.replicate 3 (.ret 0x00#8) ++ s.trace }

/-- The state after `IOX.RD k, i` (R115, R213). -/
def afterIoxRd (k : Chan) (i : Byte) (s : State) : State := { s with
  sel := none
  io := s.io.set k { s.io.get k with ps := .rdData, index := i }
  trace := .ret (ioxReadValue s.cfg k { s.io.get k with ps := .rdData, index := i }) ::
    List.replicate 2 (.ret 0x00#8) ++ s.trace }

/-- An expander does not look at the pins. -/
theorem ioxTransfer_setInputs (k : Chan) (b : Byte) (s : State) (l : List Input) :
    ioxTransfer k b (s.setInputs l) = ((ioxTransfer k b s).1.setInputs l, (ioxTransfer k b s).2) := by
  unfold ioxTransfer
  rw [State.setInputs_io]
  cases (s.io.get k).ps with
  | idle =>
    simp only [ioxCommand, State.setInputs_cfg]
    cases decodeCommand s.cfg .ioexp b with
    | none => rfl
    | some i => cases i <;> rfl
  | _ => rfl

/-- The word of a byte to the selected expander, at the pins, is that exchange. -/
theorem run_ioxByte {s t : State} {k : Chan} {b : Byte} (hc : s.cfg.Wf) (hsel : s.sel = some (.ioexp k))
    (h : xfer b s = t) (rest : List Input) (n : Nat) :
    Host.Core.run core (n + 1) (s.setInputs (xferInput b :: rest)) = Host.Core.run core n (t.setInputs rest) := by
  have hpins : xfer b (s.setInputs rest) = t.setInputs rest := by
    rw [← h, xfer_selected (s := s.setInputs rest) hsel, xfer_selected hsel]
    exact congrArg reply (ioxTransfer_setInputs k b s rest)
  exact run_succ ((step_xferInput hc b rest).trans (congrArg _ hpins)) n

/-- A frame to an expander at the pins: select, a command that moves the protocol state alone, the index, the data byte,
de-select (R100, R115). -/
theorem run_ioxFrame {s t : State} {k : Chan} {c : Instr} {command i b : Byte} {index data : IoPs} (hc : s.cfg.Wf)
    (hencode : encode s.cfg c = .command .ioexp command)
    (hcommand : ∀ u, commandOn (.ioexp k) c u = (u.setIo k { u.io.get k with ps := index }, 0x00#8))
    (hindex : (index, data) ∈ [(IoPs.rdIndex, IoPs.rdData), (.wrIndex, .wrData)])
    (hdata : xfer b (ioxOpened data k i s) = t) (hsel : t.sel = some (.ioexp k)) (hcfg : t.cfg = s.cfg)
    (rest : List Input) (n : Nat) :
    Host.Core.run core (n + 5) (s.setInputs (frame s.cfg (.ioexp k) [command, i, b] ++ rest)) =
      Host.Core.run core n ((t.setSel none).setInputs rest) := by
  have hawaits : (select (.ioexp k) s).awaitsCommand (.ioexp k) = true := by
    simp [State.awaitsCommand, select, selectChip]
  have hfirst : xfer command (select (.ioexp k) s) =
      ((select (.ioexp k) s).setIo k { (select (.ioexp k) s).io.get k with ps := index }).emit (.ret 0x00#8) := by
    rw [Host.Outcome.next.inj (runsAs_command (s := select (.ioexp k) s) hc rfl hawaits hencode).2, hcommand, reply]
  have hsecond : xfer i (xfer command (select (.ioexp k) s)) = ioxOpened data k i s := by
    rw [hfirst, xfer_iox_index rfl hindex (by simp)]
    simp [select, selectChip, State.setIo, State.setSel, State.emit, ioxOpened]
  have hdeselect := step_deselInput hsel rest
  rw [hcfg] at hdeselect
  calc
    _ = Host.Core.run core (n + 4) ((select (.ioexp k) s).setInputs
          ([xferInput command, xferInput i, xferInput b, deselInput s.cfg (.ioexp k)] ++ rest)) :=
      run_succ (step_selInput _ s _) _
    _ = Host.Core.run core (n + 3) ((xfer command (select (.ioexp k) s)).setInputs
          ([xferInput i, xferInput b, deselInput s.cfg (.ioexp k)] ++ rest)) :=
      run_ioxByte (s := select (.ioexp k) s) hc rfl rfl _ _
    _ = Host.Core.run core (n + 2) ((ioxOpened data k i s).setInputs
          ([xferInput b, deselInput s.cfg (.ioexp k)] ++ rest)) :=
      run_ioxByte (by rw [hfirst]; exact hc) (by rw [hfirst]; rfl) hsecond _ _
    _ = Host.Core.run core (n + 1) (t.setInputs (deselInput s.cfg (.ioexp k) :: rest)) :=
      run_ioxByte (s := ioxOpened data k i s) hc rfl hdata _ _
    _ = _ := run_succ hdeselect n

theorem run_ioxWr {s : State} (hc : s.cfg.Wf) (k : Chan) (i v : Byte) (rest : List Input) (n : Nat) :
    Host.Core.run core (n + 5) (s.setInputs (ioxWr s.cfg k i v ++ rest)) =
      Host.Core.run core n ((afterIoxWr k i v s).setInputs rest) := by
  have hdata := xfer_iox_write (s := ioxOpened .wrData k i s) (k := k) rfl (by simp [ioxOpened]) v
  refine (run_ioxFrame hc (c := .ioxWrite) rfl (fun _ => rfl) (.tail _ (.head _)) hdata rfl rfl rest n).trans ?_
  simp [ioxOpened, afterIoxWr, State.setIo, State.setSel, State.emit, List.replicate]

theorem run_ioxRd {s : State} (hc : s.cfg.Wf) (k : Chan) (i : Byte) (rest : List Input) (n : Nat) :
    Host.Core.run core (n + 5) (s.setInputs (ioxRd s.cfg k i ++ rest)) =
      Host.Core.run core n ((afterIoxRd k i s).setInputs rest) := by
  have hdata := xfer_iox_read (s := ioxOpened .rdData k i s) (k := k) rfl (by simp [ioxOpened]) 0x00#8
  refine (run_ioxFrame hc (c := .ioxRead) rfl (fun _ => rfl) (.head _) hdata rfl rfl rest n).trans ?_
  simp [ioxOpened, afterIoxRd, State.setSel, State.emit]

/-- Settles O36: the write frame leaves the byte in the array, and the read frame moves no register. -/
theorem ioExpanderKeepsWhatIsWritten : Obligations.IoExpanderKeepsWhatIsWritten := by
  intro s k i v hc hlen hi hinputs
  have hwritten : (afterIoxWr k i v s).io.get k = { s.io.get k with
      ps := .wrData, index := i, regs := regWrite s.cfg.ioxNregs (s.io.get k).regs i v } := by
    simp [afterIoxWr]
  refine ⟨(afterIoxRd k i (afterIoxWr k i v s)).setInputs [], ?run, ?stored, fun hgpio => ?returned⟩
  case run =>
    have hwrite := run_ioxWr hc k i v (ioxRd s.cfg k i) 5
    have hread := run_ioxRd (s := afterIoxWr k i v s) hc k i [] 0
    rw [← hinputs] at hwrite
    rw [List.append_nil] at hread
    rw [hinputs]
    exact hwrite.trans hread
  case stored => simp [afterIoxRd, hwritten, regWrite, hlen, hi]
  case returned =>
    have hvalue : ioxReadValue s.cfg k { (afterIoxWr k i v s).io.get k with ps := .rdData, index := i } = v := by
      rw [ioxReadValue_other k hi hgpio, hwritten]
      exact regRead_regWrite_same hlen hi v
    exact congrArg (Output.ret · :: (List.replicate 5 (.ret 0x00#8) ++ s.trace)) hvalue

end Sys2Proof.Machine
end

section
/-! PROOFS. The transient flags of the IO expanders: with no handler at work, which operations move them. -/

namespace Sys2Proof.Machine

/-- The next byte makes the electrical model of channel `k` run: it commits a DAC code, or is a result byte of a measured
quantity (R220, R241, R251). -/
def State.ModelDue (s : State) (k : Chan) : Prop :=
  (s.sel = some (.dac k) ∧ (s.dac.get k).ps = .lsb) ∨
    (s.sel = some (.adc k) ∧ ((s.adc.get k).ps = .dataMsb ∨ (s.adc.get k).ps = .dataLsb) ∧
      (s.adc.get k).measures s.cfg = true)

/-- All that can become of the two expanders in one operation, `due` saying where the model may run: nothing, one's own
protocol and registers, or one's two mode flags. -/
inductive IoMove (due : Chan → Prop) (p : Pair IoExp) : Pair IoExp → Prop
  | kept : IoMove due p p
  | protocol (k : Chan) (ps : IoPs) (i : Byte) (regs : List Byte) :
      IoMove due p (p.set k { p.get k with ps := ps, index := i, regs := regs })
  | mode (k : Chan) (cv cc : Bool) (h : due k) : IoMove due p (p.set k { p.get k with cv := cv, cc := cc })

/-- What an `IoMove` means for the four flags (R35). -/
theorem IoMove.flags {due : Chan → Prop} {p q : Pair IoExp} (h : IoMove due p q) (k : Chan) :
    (q.get k).pwrgood = (p.get k).pwrgood ∧ (q.get k).rpol = (p.get k).rpol ∧
      ((q.get k).cv ≠ (p.get k).cv ∨ (q.get k).cc ≠ (p.get k).cc → due k) := by
  cases h with
  | kept => simp
  | protocol j => by_cases hj : k = j <;> simp [Pair.get_set, hj]
  | mode j cv cc hdue =>
    by_cases hj : k = j
    · subst hj
      simp [hdue]
    · simp [Pair.get_set, hj]

theorem IoMove.mono {due due' : Chan → Prop} {p q : Pair IoExp} (h : IoMove due p q) (hdue : ∀ k, due k → due' k) :
    IoMove due' p q := by
  cases h with
  | kept => exact .kept
  | protocol k ps i regs => exact .protocol k ps i regs
  | mode k cv cc h => exact .mode k cv cc (hdue k h)

/-- A selection touches the protocol state of one expander at most (R138). -/
theorem csWrite_ioMove (due : Chan → Prop) (c : Chip) (level : Level) (s : State) :
    IoMove due s.io (csWrite c level s).io := by
  rcases csWrite_cases c level s with ⟨-, h⟩ | ⟨-, -, h⟩ | ⟨-, -, h⟩ <;> rw [h]
  · cases c with
    | ioexp k => exact .protocol k .idle _ _
    | _ => exact .kept
  · exact .kept
  · exact .kept

/-- With no activation left for its handler, a tick touches no expander (R250, R285). -/
theorem adcTick_io {s : State} {k : Chan} (h : s.scripts.get k = []) (n : Nat) : (adcTick n k s).io = s.io := by
  cases n with
  | zero => rfl
  | succ n =>
    rw [adcTick]
    rcases tickWith_cases (runHandlerOp (adcTick n)) k s with ⟨-, ht⟩ | ⟨-, -, ht⟩ | ⟨-, -, ht⟩ <;> rw [ht]
    rw [runHandler_nil (by exact h)]
    rfl

theorem CommandEffect.ioMove {s u : State} (due : Chan → Prop) (h : CommandEffect s u) : IoMove due s.io u.io := by
  cases h with
  | io k p => exact .protocol k p _ _
  | _ => exact .kept

/-- A run of the model moves the two mode flags of its channel (R253 to R256). -/
theorem updateValues_ioMove {due : Chan → Prop} {k : Chan} (h : due k) (s : State) :
    IoMove due s.io (updateValues k s).io := by
  obtain ⟨cv, cc, _, _, _, -, hshape⟩ := updateValues_shape k s
  rw [hshape]
  exact .mode k cv cc h

/-- With no handler at work, a commit runs the model once and touches no expander else (R251). -/
theorem setDacValueWith_ioMove {due : Chan → Prop} {s : State} {k : Chan} (h : s.scripts.get k = []) (hdue : due k)
    (buf : Buf) (code : Word) : IoMove due s.io (setDacValueWith tick k buf code s).io := by
  have hio : (setSetPoint k buf (dacToAdc s.cfg code) s).io = s.io := by cases buf <;> rfl
  have htick : (setDacValueWith tick k buf code s).io =
      (updateValues k (setSetPoint k buf (dacToAdc s.cfg code) s)).io :=
    adcTick_io (by rw [updateValues_scripts, setSetPoint_scripts, h]) nestBound
  rw [htick, ← hio]
  exact updateValues_ioMove hdue _

/-- An exchange moves mode flags only where it makes the model run (R220). -/
theorem transfer_ioMove {s : State} (hq : s.handlersEmpty) (b : Byte) :
    IoMove s.ModelDue s.io (transferWith tick b s).1.io := by
  unfold transferWith
  split
  · exact .kept
  · next c hsel =>
    cases c with
    | eeprom => obtain ⟨_, h, -⟩ := eeTransfer_shape b s; exact h ▸ .kept
    | rtc => obtain ⟨_, _, h, -⟩ := rtcTransfer_shape b s; exact h ▸ .kept
    | bp => obtain ⟨_, h, -⟩ := bpTransfer_shape b s; exact h ▸ .kept
    | ioexp k => obtain ⟨ps, i, regs, h, -⟩ := ioxTransfer_shape k b s; exact h ▸ .protocol k ps i regs
    | adc k =>
      obtain ⟨u, _, _, _, _, h, -, -, -, hu⟩ := adcTransfer_shape k b s
      rw [chipTransferWith, h, State.setAdc_io]
      rcases hu with rfl | ⟨rfl, hmode, hps⟩
      · exact .kept
      · exact updateValues_ioMove (.inr ⟨hsel, hps, hmode⟩) s
    | dac k =>
      rcases dacTransfer_shape tick k b s with ⟨_, h⟩ | ⟨hps, h⟩ <;> rw [chipTransferWith, h]
      · exact .kept
      · exact setDacValueWith_ioMove (s := s.setDac k _) (hq.scripts_get k) (.inl ⟨hsel, hps⟩) _ _

/-- With no handler at work, only an exchange that makes the model run moves mode flags. -/
theorem exec_ioMove {i : Instr} {s t : State} (hq : s.handlersEmpty) (h : exec i s = .next t) :
    IoMove (fun k => i.isExchange = true ∧ s.ModelDue k) s.io t.io := by
  rcases exec_cases h with ⟨-, c, level, rfl⟩ | ⟨-, k, rfl⟩ | ⟨hi, ⟨b, rfl⟩ | ⟨u, r, hu, rfl⟩⟩
  · exact csWrite_ioMove _ c level s
  · exact (adcTick_io (hq.scripts_get k) nestBound).symm ▸ .kept
  · exact (transfer_ioMove hq b).mono fun _ hdue => ⟨hi, hdue⟩
  · exact hu.ioMove _

theorem Adc.measures_iff (cfg : Cfg) (x : Adc) :
    x.measures cfg = true ↔ x.mode = cfg.adcModeUMon ∨ x.mode = cfg.adcModeIMon := by
  simp [Adc.measures]

/-- Settles O59, by what an operation does to the expanders. -/
theorem modeFlagsMoveOnlyWithTheModel : Obligations.ModeFlagsMoveOnlyWithTheModel := by
  intro i s t k hq h
  have hflags := (exec_ioMove hq h).flags k
  simpa only [State.ModelDue, Adc.measures_iff] using hflags

end Sys2Proof.Machine
end

section
/-! PROOFS. The bound of the model's own recursion: how many more activations can nest, and that a tick with more room
than that does the same. -/

namespace Sys2Proof.Machine

/-- A tick as one case split: it delivers below the bound where a start is pending, and else changes nothing (R250). -/
theorem tickWith_eq (run : HandlerOp → State → State) (k : Chan) (s : State) :
    tickWith run k s =
      if (s.adc.get k).depth.val < 4 ∧ (s.adc.get k).start = true
        then leaveTick k (runHandler run k (takePending k (enterTick k s))) else s := by
  rcases tickWith_cases run k s with ⟨hd, h⟩ | ⟨-, hst, h⟩ | ⟨hd, hst, h⟩ <;> rw [h]
  · simp [hd]
  · simp [hst]
  · rw [if_pos ⟨hd, hst⟩]

/-- How many more activations can nest: those that the two depth counters leave room for (R40, R289). -/
def State.room (s : State) : Nat := (4 - (s.adc.get .one).depth.val) + (4 - (s.adc.get .two).depth.val)

theorem State.room_le (s : State) : s.room ≤ nestBound := by
  unfold State.room nestBound
  omega

/-- With no room left, both ADCs are at the bound. -/
theorem depth_of_room_zero {s : State} (h : s.room = 0) (k : Chan) : (s.adc.get k).depth = 4 := by
  unfold State.room at h
  apply Fin.ext
  show (s.adc.get k).depth.val = 4
  cases k <;> omega

theorem Evolves.room {s t : State} (h : Evolves s t) : t.room = s.room := by
  simp only [State.room, h.depth]

/-- Counting an activation on takes one from the room (R250). -/
theorem room_takePending_enterTick {s : State} {k : Chan} (hd : (s.adc.get k).depth.val < 4) :
    (takePending k (enterTick k s)).room + 1 = s.room := by
  have hsucc : ((s.adc.get k).depth + 1).val = (s.adc.get k).depth.val + 1 :=
    Fin.val_add_one_of_lt (Fin.lt_def.2 hd)
  simp only [State.room, takePending_enterTick_depth]
  cases k <;> rw [if_pos rfl, if_neg (by decide), hsucc] <;> omega

/-- An operation of a handler reaches the tick only at depth counters it found, so two ticks that agree there serve it
alike (R251, R285). -/
theorem runHandlerOp_congr {f g : Chan → State → State} {s : State} (h : ∀ k u, u.room = s.room → f k u = g k u)
    (o : HandlerOp) : runHandlerOp f o s = runHandlerOp g o s := by
  have hdac : ∀ k b, dacTransferWith f k b s = dacTransferWith g k b s := by
    intro k b
    unfold dacTransferWith
    cases (s.dac.get k).ps with
    | idle => rfl
    | msb => rfl
    | lsb =>
      have hev : Evolves s (updateValues k (setSetPoint k (s.dac.get k).buf
          (dacToAdc s.cfg (word (s.dac.get k).msb b)) (s.setDac k { s.dac.get k with ps := .idle }))) :=
        .trans (.move (.dac k _)) (.trans (setSetPoint_evolves k _ _ _) (updateValues_evolves k _))
      exact congrArg (·, 0x00#8) (h k _ hev.room)
  cases o with
  | cs c level => rfl
  | env e => rfl
  | xfer b =>
    refine congrArg reply ?_
    unfold transferWith
    cases s.sel with
    | none => rfl
    | some c =>
      cases c with
      | dac k => exact hdac k b
      | _ => rfl

/-- Ticks that agree wherever there is as much room serve a whole script alike. -/
theorem foldl_runHandlerOp_congr {f g : Chan → State → State} {n : Nat} (hf : TickEvolves f)
    (h : ∀ k u, u.room = n → f k u = g k u) (ops : List HandlerOp) {s : State} (hs : s.room = n) :
    ops.foldl (fun t o => runHandlerOp f o t) s = ops.foldl (fun t o => runHandlerOp g o t) s := by
  induction ops generalizing s with
  | nil => rfl
  | cons o ops ih =>
    have hop : runHandlerOp f o s = runHandlerOp g o s := runHandlerOp_congr (hs ▸ h) o
    rw [List.foldl_cons, List.foldl_cons, ← hop]
    exact ih ((runHandlerOp_evolves hf o s).room.trans hs)

/-- A tick asks its own kind only below itself, where there is one activation less room. -/
theorem tickWith_congr {f g : Chan → State → State} (hf : TickEvolves f) {s : State}
    (h : ∀ k u, u.room + 1 = s.room → f k u = g k u) (k : Chan) :
    tickWith (runHandlerOp f) k s = tickWith (runHandlerOp g) k s := by
  rw [tickWith_eq, tickWith_eq]
  split
  · next hdeliver =>
    have hroom := room_takePending_enterTick hdeliver.1
    generalize takePending k (enterTick k s) = u at hroom
    refine congrArg (leaveTick k) ?_
    unfold runHandler
    cases u.scripts.get k with
    | nil => rfl
    | cons ops later =>
      exact foldl_runHandlerOp_congr (s := u.setScripts k later) hf (fun j v hv => h j v (hv ▸ hroom)) ops rfl
  · rfl

/-- Once the recursion has as much room as the counters leave, one activation more changes nothing. -/
theorem adcTick_succ (n : Nat) (k : Chan) (s : State) (h : s.room ≤ n) : adcTick (n + 1) k s = adcTick n k s := by
  induction n generalizing k s with
  | zero =>
    have hdropped : ¬((s.adc.get k).depth.val < 4 ∧ (s.adc.get k).start = true) := by
      simp [depth_of_room_zero (Nat.le_zero.1 h) k]
    exact (tickWith_eq _ k s).trans (if_neg hdropped)
  | succ n ih => exact tickWith_congr (adcTick_evolves _) (fun j u hu => ih j u (by omega)) k

/-- Settles O51, by induction on the room beyond eight activations: the two counters never leave more. -/
theorem nestingNeverOutgrowsTheCounters : Obligations.NestingNeverOutgrowsTheCounters := by
  intro n k s hn
  induction n, hn using Nat.le_induction with
  | base => rfl
  | succ n hn ih => exact (adcTick_succ n k s (s.room_le.trans hn)).trans ih

/-- With no activation left for its handler, counting on, taking the start and counting off clear the start and put the
event out, and the counter is as it was (R250, R285). -/
theorem leaveTick_takePending_enterTick (k : Chan) (s : State) :
    leaveTick k (takePending k (enterTick k s)) =
      (s.setAdc k { s.adc.get k with start := false }).emit (.drdy k) := by
  simp [leaveTick, takePending, enterTick, State.setAdc, State.emit]

/-- Settles O47: a delivery that finds no activation listed runs nothing between its entry and its return. -/
theorem tickDeliversAPendingStartOnce : Obligations.TickDeliversAPendingStartOnce := by
  intro s k hscripts
  refine congrArg Host.Outcome.next ?_
  rw [tick, nestBound, adcTick, tickWith_eq, runHandler_nil (by exact hscripts), leaveTick_takePending_enterTick]
  rfl

end Sys2Proof.Machine
end

section
/-! PROOFS. The electrical model: the remap of DAC codes, the conversions of R258 at the default code range, and what a
run of the model leaves, with a load and without one. -/

namespace Sys2Proof.Machine

/-! ### The remap of DAC codes -/

theorem clamp_eq_max_min {x lo hi : Int} (h : lo ≤ hi) : clamp x lo hi = max lo (min hi x) := by
  unfold clamp
  split
  · omega
  · split <;> omega

/-- The floored remap of a code, before the clamp, on integers as the model computes it (R252). -/
def remap (cfg : Cfg) (code : Nat) : Int :=
  (cfg.adcMin : Int) +
    ((code : Int) - cfg.dacMin) * ((cfg.adcMax : Int) - cfg.adcMin) / ((cfg.dacMax : Int) - cfg.dacMin)

/-- The integer division of the model floors the exact quotient of R252. -/
theorem remap_eq_floor {cfg : Cfg} (hdac : cfg.dacMin < cfg.dacMax) (code : Nat) :
    remap cfg code = ⌊(cfg.adcMin : Rat) + ((code : Rat) - cfg.dacMin) * ((cfg.adcMax : Rat) - cfg.adcMin) /
      ((cfg.dacMax : Rat) - cfg.dacMin)⌋ := by
  have hspan : (cfg.dacMax : Rat) - cfg.dacMin = ((cfg.dacMax - cfg.dacMin : Nat) : Rat) := (Nat.cast_sub hdac.le).symm
  have hnum : ((code : Rat) - cfg.dacMin) * ((cfg.adcMax : Rat) - cfg.adcMin) =
      ((((code : Int) - cfg.dacMin) * ((cfg.adcMax : Int) - cfg.adcMin) : Int) : Rat) := by push_cast; rfl
  rw [hspan, hnum, Int.floor_natCast_add, Rat.floor_intCast_div_natCast, Nat.cast_sub hdac.le, remap]

theorem remap_mono {cfg : Cfg} (hadc : cfg.adcMin < cfg.adcMax) (hdac : cfg.dacMin < cfg.dacMax) {c d : Nat}
    (h : c ≤ d) : remap cfg c ≤ remap cfg d := by
  have hnum : ((c : Int) - cfg.dacMin) * ((cfg.adcMax : Int) - cfg.adcMin) ≤
      ((d : Int) - cfg.dacMin) * ((cfg.adcMax : Int) - cfg.adcMin) :=
    Int.mul_le_mul_of_nonneg_right (by omega) (by omega)
  exact Int.add_le_add_left (Int.ediv_le_ediv (by omega) hnum) _

theorem remap_dacMin (cfg : Cfg) : remap cfg cfg.dacMin = cfg.adcMin := by
  simp [remap]

theorem remap_dacMax {cfg : Cfg} (hdac : cfg.dacMin < cfg.dacMax) : remap cfg cfg.dacMax = cfg.adcMax := by
  rw [remap, Int.mul_ediv_cancel_left _ (by omega)]
  omega

/-- Settles O44: the remap is floored, monotone and right at the ends before the clamp, which keeps all three. -/
theorem dacCodesRemapIntoTheAdcRange : Obligations.DacCodesRemapIntoTheAdcRange := by
  intro cfg hc
  have hcode : ∀ code : Word, ((dacToAdc cfg code).toNat : Int) = clamp (remap cfg code.toNat) cfg.adcMin cfg.adcMax :=
    dacToAdc_toNat hc
  obtain ⟨-, -, -, -, -, -, -, -, -, -, hadc, -, hdac, -⟩ := hc
  have hrange : (cfg.adcMin : Int) ≤ cfg.adcMax := by omega
  refine ⟨fun c => ?floored, fun c d hcd => ?mono, fun c hmin => ?low, fun c hmax => ?high⟩
  case floored => rw [hcode, clamp_eq_max_min hrange, remap_eq_floor hdac]
  case mono =>
    have hclamp := clamp_mono (remap_mono hadc hdac hcd) hrange
    rw [← hcode, ← hcode] at hclamp
    exact Int.ofNat_le.1 hclamp
  case low =>
    have hlow := hcode c
    rw [hmin, remap_dacMin, clamp_eq_max_min hrange] at hlow
    omega
  case high =>
    have hhigh := hcode c
    rw [hmax, remap_dacMax hdac, clamp_eq_max_min hrange] at hhigh
    omega

/-! ### Conversions -/

theorem codeOf_toNat (q : Rat) : ((codeOf q).toNat : Int) = max 0 (min 65535 q.floor) := by
  unfold codeOf
  rw [clamp_eq_max_min (by decide), BitVec.toNat_ofInt]
  omega

theorem codeOf_mono {q r : Rat} (h : q ≤ r) : (codeOf q).toNat ≤ (codeOf r).toNat := by
  have hfloor : q.floor ≤ r.floor := Int.floor_mono h
  have hq := codeOf_toNat q
  have hr := codeOf_toNat r
  omega

/-- A code is brought to 16 bits as itself. -/
theorem codeOf_toNat_cast (c : Word) : codeOf (c.toNat : Rat) = c := by
  have hfloor : (c.toNat : Rat).floor = c.toNat :=
    Rat.floor_intCast c.toNat
  have hcode := codeOf_toNat (c.toNat : Rat)
  have hlt := c.isLt
  apply BitVec.eq_of_toNat_eq
  omega

section DefaultRange

variable {cfg : Cfg} (hmin : cfg.adcMin = 0) (hmax : cfg.adcMax = 32767)
include hmin hmax

/-- The default calibration at the default code range (R258). -/
theorem codeToVolts_default (c : Word) : codeToVolts cfg defaultCal c = (c.toNat : Rat) * 40 / 32767 := by
  simp [codeToVolts, defaultCal, codeOffset, codeSpan, hmin, hmax]

theorem codeToAmps_default (c : Word) : codeToAmps cfg defaultCal c = (c.toNat : Rat) * 5 / 32767 := by
  simp [codeToAmps, defaultCal, codeOffset, codeSpan, hmin, hmax]

theorem voltsToCode_default (u : Rat) : voltsToCode cfg defaultCal u = codeOf (u * 32767 / 40) := by
  simp [voltsToCode, defaultCal, codeSpan, hmin, hmax]

theorem ampsToCode_default (i : Rat) : ampsToCode cfg defaultCal i = codeOf (i * 32767 / 5) := by
  simp [ampsToCode, defaultCal, codeSpan, hmin, hmax]

/-- A voltage code survives the round trip through volts. -/
theorem voltsToCode_codeToVolts (c : Word) : voltsToCode cfg defaultCal (codeToVolts cfg defaultCal c) = c := by
  rw [voltsToCode_default hmin hmax, codeToVolts_default hmin hmax,
    show (c.toNat : Rat) * 40 / 32767 * 32767 / 40 = c.toNat by ring, codeOf_toNat_cast]

/-- A current code survives the round trip through amperes. -/
theorem ampsToCode_codeToAmps (c : Word) : ampsToCode cfg defaultCal (codeToAmps cfg defaultCal c) = c := by
  rw [ampsToCode_default hmin hmax, codeToAmps_default hmin hmax,
    show (c.toNat : Rat) * 5 / 32767 * 32767 / 5 = c.toNat by ring, codeOf_toNat_cast]

/-- A voltage not above a code's reads as a code not above it. -/
theorem voltsToCode_le {u : Rat} {c : Word} (h : u ≤ codeToVolts cfg defaultCal c) :
    (voltsToCode cfg defaultCal u).toNat ≤ c.toNat := by
  have hround := voltsToCode_codeToVolts hmin hmax c
  rw [voltsToCode_default hmin hmax] at hround ⊢
  exact hround ▸ codeOf_mono (by linarith)

/-- A current not above a code's reads as a code not above it. -/
theorem ampsToCode_le {i : Rat} {c : Word} (h : i ≤ codeToAmps cfg defaultCal c) :
    (ampsToCode cfg defaultCal i).toNat ≤ c.toNat := by
  have hround := ampsToCode_codeToAmps hmin hmax c
  rw [ampsToCode_default hmin hmax] at hround ⊢
  exact hround ▸ codeOf_mono (by linarith)

end DefaultRange

/-- Settles O42: the default record's formulas at the default range, `Cal_T1`'s as it is defined. -/
theorem calibrationFormulas : Obligations.CalibrationFormulas := by
  refine ⟨fun c => ⟨codeToVolts_default rfl rfl c, codeToAmps_default rfl rfl c, rfl, rfl⟩,
    fun x => ⟨?_, ?_, codeOf_toNat _, codeOf_toNat _, ?_, rfl⟩⟩
  · rw [voltsToCode_default rfl rfl, codeOf_toNat]
  · rw [ampsToCode_default rfl rfl, codeOf_toNat]
  · simp only [progToVolts, defaultCal, Config.vprogMax]
    ring

/-! ### A run of the model -/

/-- Settles O40, by the two tests of the branch: the strict comparison, and the resistance of the division. -/
theorem loadedChannelClampsVoltageOrCurrent : Obligations.LoadedChannelClampsVoltageOrCurrent := by
  rintro s k U I R hload hU rfl rfl
  have hbranch : updateValues k s = branchA k s := if_pos hload
  have hcmd : commandedVolts k s = U := hU.symm
  subst hcmd
  refine ⟨fun hcv hr => ?cv, fun hcv hr => ⟨s.drawCode, ?short⟩, fun hcc => ?cc⟩
  case cv => exact hbranch.trans ((if_pos hcv).trans (if_neg hr))
  case short => exact hbranch.trans ((if_pos hcv).trans (if_pos hr))
  case cc => exact hbranch.trans (if_neg (not_lt.2 hcc))

/-- Settles O41: with no load the output enable alone decides. -/
theorem unloadedChannelShowsItsSetPoint : Obligations.UnloadedChannelShowsItsSetPoint := by
  intro s k hload
  refine ⟨fun hout => ?on, fun hout => ?off⟩
  case on =>
    have hbranch : updateValues k s = branchB k s := by simp [updateValues, hload, hout]
    rw [hbranch, branchB, noLoadCv, ← Bool.decide_and]
    rfl
  case off =>
    have hbranch : updateValues k s = branchC k s := by simp [updateValues, hload, hout]
    rw [hbranch]
    rfl

/-- Settles O43: in each mode one code is its set-point's round trip, and the other comes from a quantity that the mode's
comparison holds under its set-point. -/
theorem loadNeverExceedsTheSetPoints : Obligations.LoadNeverExceedsTheSetPoints := by
  intro s k hmin hmax hcal hload hprog _ _
  obtain ⟨hcv, -, hcc⟩ := loadedChannelClampsVoltageOrCurrent s k _ _ _ hload rfl rfl rfl
  simp only [hprog, Bool.false_eq_true, if_false, hcal] at hcv hcc
  set u := (s.adc.get k).uSet
  set i := (s.adc.get k).iSet
  set r := (s.env.ch.get k).loadR
  refine ⟨_, rfl, ?_⟩
  by_cases hmode : codeToAmps s.cfg defaultCal i * r > codeToVolts s.cfg defaultCal u
  · have hu : 0 ≤ codeToVolts s.cfg defaultCal u := by rw [codeToVolts_default hmin hmax]; positivity
    have hi : 0 ≤ codeToAmps s.cfg defaultCal i := by rw [codeToAmps_default hmin hmax]; positivity
    have hr : 0 < r := pos_of_mul_pos_right (hu.trans_lt hmode) hi
    have hle : codeToVolts s.cfg defaultCal u / r ≤ codeToAmps s.cfg defaultCal i := (div_le_iff₀ hr).2 hmode.le
    rw [hcv hmode hr.ne']
    simp [voltsToCode_codeToVolts hmin hmax, ampsToCode_le hmin hmax hle]
  · rw [hcc (not_lt.1 hmode)]
    simp [ampsToCode_codeToAmps hmin hmax, voltsToCode_le hmin hmax (not_lt.1 hmode)]

end Sys2Proof.Machine
end

section
/-! PROOFS. The ADCs: what each byte does in each protocol state. -/

namespace Sys2Proof.Machine

/-- Settles O37: each command by what it does on the ADC that awaits it. -/
theorem adcCommandsTakeEffect : Obligations.AdcCommandsTakeEffect := by
  intro s k hc hsel hps
  have hawaits : s.awaitsCommand (.adc k) = true := decide_eq_true hps
  exact ⟨runsAs_command hc hsel hawaits rfl, runsAs_command hc hsel hawaits rfl, runsAs_command hc hsel hawaits rfl,
    runsAs_command hc hsel hawaits rfl, runsAs_command hc hsel hawaits rfl, runsAs_command hc hsel hawaits rfl⟩

/-- An exchange with ADC `k` selected is its transfer (R134). -/
theorem xfer_adc {s : State} {k : Chan} (hsel : s.sel = some (.adc k)) (b : Byte) :
    xfer b s = reply (adcTransfer k b s) :=
  xfer_selected hsel b

/-! ### Register bytes -/

/-- A register byte's cursor counts mod 256 (R235, R237). -/
theorem byte_succ_toNat (i : Byte) : (i + 1).toNat = (i.toNat + 1) % 256 := BitVec.toNat_add i 1

/-- A register array of its fixed size reads as the list does, and 0x00 beyond it (R73, R235). -/
theorem regRead_eq_getD {n : Nat} {regs : List Byte} (h : regs.length = n) (i : Byte) :
    regRead n regs i = regs[i.toNat]?.getD 0x00#8 := by
  unfold regRead
  split
  · rw [List.getD_eq_getElem?_getD]
  · next hi => rw [List.getElem?_eq_none (by omega), Option.getD_none]

/-- Settles O38, by protocol state: the burst reads and writes at the cursor, the mode byte at register 0, which exists
under a legal `Cfg`. -/
theorem adcRegisterBytesMoveTheCursor : Obligations.AdcRegisterBytesMoveTheCursor := by
  intro s k b hc hsel hlen
  rw [exec, execXfer, xfer_adc hsel]
  refine ⟨fun hps => ⟨_, byte_succ_toNat _, ?read⟩, fun hps => ⟨_, byte_succ_toNat _, ?write⟩,
    fun hps => ⟨(s.adc.get k).regs.set 0 b, ?register0, List.length_set, fun n => ?others, ?mode⟩⟩
  case read =>
    rw [adcTransfer, hps, ← regRead_eq_getD hlen]
    rfl
  case write =>
    rw [adcTransfer, hps]
    rfl
  case register0 =>
    obtain ⟨-, -, -, -, -, -, -, -, hpos, -⟩ := hc
    exact List.getElem?_set_self (hlen ▸ hpos)
  case others => exact List.getElem?_set_ne (Nat.succ_ne_zero n).symm
  case mode =>
    rw [adcTransfer, hps]
    rfl

/-! ### Result bytes -/

theorem updateValues_trace (k : Chan) (s : State) : (updateValues k s).trace = s.trace := by
  obtain ⟨_, _, _, _, _, -, h⟩ := updateValues_shape k s
  rw [h]

theorem Adc.mode_of_getElem? {x : Adc} {m : Byte} (h : x.regs[0]? = some m) : x.mode = m := by
  rw [Adc.mode, List.getD_eq_getElem?_getD, h, Option.getD_some]

/-- The four mode values are distinct, in the order `result(k)` tests them: what a later test looks for meets none of
the earlier ones (R10, R241). -/
theorem adcModes_distinct {cfg : Cfg} (hc : cfg.Wf) :
    cfg.adcModeIMon ≠ cfg.adcModeUMon ∧
      (cfg.adcModeUSet ≠ cfg.adcModeUMon ∧ cfg.adcModeUSet ≠ cfg.adcModeIMon) ∧
      cfg.adcModeISet ≠ cfg.adcModeUMon ∧ cfg.adcModeISet ≠ cfg.adcModeIMon ∧ cfg.adcModeISet ≠ cfg.adcModeUSet := by
  obtain ⟨-, -, -, -, -, hmodes, -⟩ := hc
  simp only [List.nodup_cons, List.mem_cons, List.not_mem_nil, or_false, not_or] at hmodes
  obtain ⟨⟨hISet, hUSet, hIMon⟩, ⟨hISetUSet, hISetIMon⟩, hUSetIMon, -⟩ := hmodes
  exact ⟨Ne.symm hIMon, ⟨Ne.symm hUSet, hUSetIMon⟩, Ne.symm hISet, hISetIMon, hISetUSet⟩

/-- Computing a result puts nothing out (R241). -/
theorem adcResult_trace (k : Chan) (s : State) : (adcResult k s).1.trace = s.trace := by
  rw [adcResult_state]
  split
  · exact updateValues_trace k s
  · rfl

/-- Settles O39: both bytes are of `result(k)`, computed when they are read. -/
theorem adcResultBytesFollowTheModeRegister : Obligations.AdcResultBytesFollowTheModeRegister := by
  intro s u k b m q hc hsel hm h
  have hresult : adcResult k s = (u, q) := by
    obtain ⟨hIMon, hUSet, hISet⟩ := adcModes_distinct hc
    rw [adcResult, Adc.mode_of_getElem? hm]
    rcases h with ⟨rfl, rfl, rfl⟩ | ⟨rfl, rfl, rfl⟩ | ⟨rfl, rfl, rfl⟩ | ⟨rfl, rfl, rfl⟩ | ⟨hother, rfl, rfl⟩
    · simp
    · simp [hIMon]
    · simp [hUSet]
    · simp [hISet]
    · simp only [List.mem_cons, List.not_mem_nil, or_false, not_or] at hother
      simp [hother]
  have htrace : u.trace = s.trace := by rw [← adcResult_trace k s, hresult]
  rw [exec, execXfer, xfer_adc hsel, ← htrace]
  refine ⟨fun hps => ⟨hi8 q, hi8_toNat q, ?high⟩, fun hps => ⟨lo8 q, lo8_toNat q, ?low⟩⟩
  case high =>
    rw [adcTransfer, hps]
    simp only [adcResultHigh, hresult]
    rfl
  case low =>
    rw [adcTransfer, hps]
    simp only [adcResultLow, hresult]
    rfl

end Sys2Proof.Machine
end

section
/-! PROOFS. The DACs: what each byte does in each protocol state. -/

namespace Sys2Proof.Machine

/-- The high code byte (R272). -/
theorem xfer_dac_msb {s : State} {k : Chan} (hsel : s.sel = some (.dac k)) (hps : (s.dac.get k).ps = .msb) (b : Byte) :
    xfer b s = (s.setDac k { s.dac.get k with ps := .lsb, msb := b }).emit (.ret 0x00#8) := by
  simp [xfer_selected hsel, chipTransferWith, dacTransferWith, hps, dacMsb, reply]

/-- The low code byte: the commit runs from a DAC already in `Idle`, and 0x00 goes out after it (R273). -/
theorem xfer_dac_lsb {s : State} {k : Chan} (hsel : s.sel = some (.dac k)) (hps : (s.dac.get k).ps = .lsb) (b : Byte) :
    xfer b s =
      (setDacValueWith tick k (s.dac.get k).buf (word (s.dac.get k).msb b)
        (s.setDac k { s.dac.get k with ps := .idle })).emit (.ret 0x00#8) := by
  simp [xfer_selected hsel, chipTransferWith, dacTransferWith, hps, dacLsbWith, reply]

/-- Settles O45: the buffer selections by what they do on the DAC that awaits them, the high byte by its exchange. -/
theorem dacCommandsTakeEffect : Obligations.DacCommandsTakeEffect := by
  refine ⟨fun s k hc hsel hps => ?selections, fun s k b hsel hps => congrArg _ (xfer_dac_msb hsel hps b)⟩
  case selections =>
    have hawaits : s.awaitsCommand (.dac k) = true := decide_eq_true hps
    exact ⟨runsAs_command hc hsel hawaits rfl, runsAs_command hc hsel hawaits rfl⟩

/-- The held set-point as one record update, the buffer choosing its field (R251). -/
theorem setSetPoint_eq (k : Chan) (buf : Buf) (v : Word) (s : State) :
    setSetPoint k buf v s = s.setAdc k
      (match buf with
        | .a => { s.adc.get k with uSet := v }
        | .b => { s.adc.get k with iSet := v }) := by
  cases buf <;> rfl

/-- Settles O46: the code is the word of the two bytes, and the tick named in the statement is the commit's own. -/
theorem dacCommitRunsTheModelThenTicks : Obligations.DacCommitRunsTheModelThenTicks := by
  intro s t k b code hsel hps hcode htick
  have hword : word (s.dac.get k).msb b = code := BitVec.eq_of_toNat_eq ((word_toNat _ b).trans hcode.symm)
  have hcommit : setDacValueWith tick k (s.dac.get k).buf code (s.setDac k { s.dac.get k with ps := .idle }) = t := by
    rw [setDacValueWith, setSetPoint_eq]
    exact Host.Outcome.next.inj htick
  rw [exec, execXfer, xfer_dac_lsb hsel hps, hword, hcommit]
  rfl

end Sys2Proof.Machine
end

section
/-! PROOFS. Delivery and refusal: a pending start across an operation, a handler's script run by the ordinary rules, a
tick at the bound, and which instructions have a next state. -/

namespace Sys2Proof.Machine

/-! ### A pending start -/

/-- From `s` to `t` outputs are only added, and where a start of `k` was pending it still is, or its `DRDY` is among
them (R286). -/
def StartKept (k : Chan) (s t : State) : Prop :=
  ∃ out : List Output, t.trace = out ++ s.trace ∧
    ((s.adc.get k).start = true → (t.adc.get k).start = true ∨ .drdy k ∈ out)

theorem StartKept.of_trace_eq {k : Chan} {s t : State} (htrace : t.trace = s.trace)
    (hstart : (s.adc.get k).start = true → (t.adc.get k).start = true) : StartKept k s t :=
  ⟨[], htrace, fun h => .inl (hstart h)⟩

theorem StartKept.trans {k : Chan} {s t u : State} (h : StartKept k s t) (h' : StartKept k t u) : StartKept k s u := by
  obtain ⟨out, htrace, hkept⟩ := h
  obtain ⟨out', htrace', hkept'⟩ := h'
  refine ⟨out' ++ out, by rw [htrace', htrace, List.append_assoc], fun hs => ?_⟩
  rcases hkept hs with ht | hout
  · exact (hkept' ht).imp_right (List.mem_append_left out)
  · exact .inr (List.mem_append_right out' hout)

/-- No elementary change takes a pending start back. -/
theorem Move.startKept {s t : State} (h : Move s t) (k : Chan) : StartKept k s t := by
  cases h with
  | adc j x _ _ hstart =>
    refine .of_trace_eq rfl fun hs => ?_
    rw [State.setAdc_adc, Pair.get_set]
    split
    · next hk => exact hstart (hk ▸ hs)
    · exact hs
  | reply r => exact ⟨[.ret r], rfl, .inl⟩
  | _ => exact .of_trace_eq rfl id

/-- The entry of an activation takes a start, and puts its event out (R250, R285). -/
theorem startKept_takePending_enterTick (j k : Chan) (s : State) : StartKept k s (takePending j (enterTick j s)) := by
  refine ⟨[.drdy j], rfl, fun hs => ?_⟩
  by_cases hk : k = j
  · exact .inr (hk ▸ List.mem_singleton_self _)
  · exact .inl (by simpa [takePending, enterTick, Pair.get_set_other _ hk] using hs)

/-- The return of an activation leaves what is pending (R289). -/
theorem leaveTick_start (j k : Chan) (u : State) : ((leaveTick j u).adc.get k).start = (u.adc.get k).start := by
  rw [leaveTick, State.setAdc_adc, Pair.get_set]
  split
  · next hk => rw [hk]
  · rfl

theorem Evolves.startKept {s t : State} (h : Evolves s t) (k : Chan) : StartKept k s t := by
  induction h with
  | refl s => exact .of_trace_eq rfl id
  | move h => exact h.startKept k
  | trans _ _ ih₁ ih₂ => exact ih₁.trans ih₂
  | @activation s u j _ ih =>
    have hreturn : StartKept k u (leaveTick j u) := .of_trace_eq rfl (leaveTick_start j k u).trans
    exact (startKept_takePending_enterTick j k _).trans (ih.trans hreturn)

/-- Settles O52, by induction on what the instruction does: only the entry of an activation clears a start. -/
theorem pendingStartIsClearedOnlyByItsDelivery : Obligations.PendingStartIsClearedOnlyByItsDelivery :=
  fun _ _ _ k h => (exec_evolves h).startKept k

/-! ### A tick -/

/-- One level down, where an activation has been counted on, the tick still has all the room the counters leave
(log entry 14). -/
theorem adcTick_eq_tick {k : Chan} {s : State} (h : s.room ≤ 7) : adcTick 7 k s = tick k s :=
  (adcTick_succ 7 k s h).symm

/-- Settles O48: after the entry there is one activation less room, so the handler's operations meet the same tick as
those outside, and run alike. -/
theorem handlerRunsByTheOrdinaryRules : Obligations.HandlerRunsByTheOrdinaryRules := by
  intro s t k ops later hscript hdepth hstart ht
  have hroom : (takePending k (enterTick k s)).room ≤ 7 :=
    Nat.le_of_succ_le_succ ((room_takePending_enterTick hdepth).trans_le s.room_le)
  have hentry : (takePending k (enterTick k s)).setScripts k later =
      { s with
        adc := s.adc.set k { s.adc.get k with start := false, depth := (s.adc.get k).depth + 1 }
        scripts := s.scripts.set k later
        trace := .drdy k :: s.trace } := by
    simp [takePending, enterTick, State.setAdc, State.emit, State.setScripts]
  have hscript' : (takePending k (enterTick k s)).scripts.get k = ops :: later := hscript
  have hhandler : runHandler (runHandlerOp (adcTick 7)) k (takePending k (enterTick k s)) = t := by
    rw [runHandler, hscript', ht, ← hentry]
    exact foldl_runHandlerOp_congr (adcTick_evolves 7) (fun j u hu => adcTick_eq_tick (hu.trans_le hroom)) ops rfl
  have htick : tick k s = leaveTick k t := by
    rw [tick, nestBound, adcTick, tickWith_eq, if_pos ⟨hdepth, hstart⟩, hhandler]
  exact congrArg Host.Outcome.next htick

/-- Settles O49: the bound is the first thing a tick tests. -/
theorem tickAtTheBoundIsDropped : Obligations.TickAtTheBoundIsDropped := by
  intro s k hdepth
  have hdropped : ¬((s.adc.get k).depth.val < 4 ∧ (s.adc.get k).start = true) := by simp [hdepth]
  exact congrArg Host.Outcome.next ((tickWith_eq _ k s).trans (if_neg hdropped))

/-! ### Which instructions have a next state -/

/-- A command constructor has a next state, heard or unheard (R110; log entry 5). -/
theorem exec_command_next {s : State} {i : Instr} {kind : ChipKind} {b : Byte} (h : encode s.cfg i = .command kind b) :
    ∃ t, exec i s = .next t := by
  by_cases hl : s.listening = some kind
  · obtain ⟨c, hsel, -, rfl⟩ := listening_eq_some.1 hl
    exact ⟨_, exec_command_heard hsel hl h⟩
  · exact ⟨_, exec_command_unheard hl h⟩

/-- Settles O13: only `CS` has an operand to refuse, and the lines it takes are those that name a chip. -/
theorem operationsAreTotal : Obligations.OperationsAreTotal := by
  refine ⟨fun i s hwf => ?next, fun i s hwf => ?refused⟩
  case next =>
    cases i
    case cs line level =>
      obtain ⟨c, hline⟩ := Option.isSome_iff_exists.1 ((Chip.ofLine_isSome line).trans hwf)
      exact ⟨_, exec_cs hline level s⟩
    case xfer b => exact ⟨_, rfl⟩
    case tick k => exact ⟨_, rfl⟩
    all_goals exact exec_command_next rfl
  case refused =>
    cases i
    case cs line level =>
      exact exec_cs_noSuchLine (chipOfLine_eq_none (Nat.le_of_not_lt (of_decide_eq_false hwf))) level s
    all_goals cases hwf

end Sys2Proof.Machine
end
